-- ==== Sys2Proof/Word.lean ====
section
/-! DEFINITION. The one data unit of the block (20_memory.md R66): the byte. Indices, cursors and counters are
natural numbers reduced where the spec reduces them (40_ringbuffer.md R121; log 17). -/

namespace Sys2Proof

/-- A byte: 8 bits, unsigned (00_scope.md R8). -/
abbrev Byte := BitVec 8

end Sys2Proof
end

