-- ==== Sys2Proof/Config.lean ====
section
/-! DEFINITION. The implementation parameters of 00_scope.md R6, fixed for the whole of a run (R7), and the free values of
the model. A parameter the spec gives a value has that value as its default (log 27); one it leaves OPEN is `none`. -/

namespace Sys2Proof

/-- `SYNC_LAG`: whether the cross-domain views of the indices may lag or are exact (R6, 20_memory.md R83). -/
inductive SyncLag where
  | free | zero
deriving DecidableEq, Repr

/-- The three open field lengths of Read-Page: A = `RP_ADDR_BYTES`, M = `RP_DUMMY_BYTES`, G = `RP_DATA_BYTES` (42_nand_sequencer.md R172). -/
structure PageLayout where
  addrBytes  : Nat
  dummyBytes : Nat
  dataBytes  : Nat
deriving DecidableEq, Repr

/-- L = 1 + A + M + G, the length of frame NP (30_encoding.md R102). -/
def PageLayout.frameLen (l : PageLayout) : Nat := 1 + l.addrBytes + l.dummyBytes + l.dataBytes

/-- `PAGE_AW` = 8 * A, the width of the page-address operand (R6). -/
def PageLayout.pageAw (l : PageLayout) : Nat := 8 * l.addrBytes

/-- The order of bits on the serial bus. -/
inductive BitOrder where
  | msbFirst | lsbFirst
deriving DecidableEq, Repr

/-- Clock polarity and phase. -/
structure SpiMode where
  cpol : Bool
  cpha : Bool
deriving DecidableEq, Repr

/-- The parameters below the level of this model: OPEN, and no rule depends on any of them (00_scope.md R4 (d), R6,
42_nand_sequencer.md R177). Frequencies, times and depths are numbers in the platform's own units (log 22). -/
structure Physical where
  /-- `BIT_ORDER`. -/
  bitOrder   : Option BitOrder := none
  /-- `SPI_MODE`. -/
  spiMode    : Option SpiMode := none
  /-- `F_SCK`. -/
  fSck       : Option Nat := none
  /-- `T_CSS`. -/
  tCss       : Option Nat := none
  /-- `T_CSH`. -/
  tCsh       : Option Nat := none
  /-- `SYNC_STAGES`. -/
  syncStages : Option Nat := none
deriving DecidableEq, Repr

/-- The rows of 00_scope.md R6. `RB_DEPTH`, `PAGE_AW` and `XB_LEN` are derived below, and `TEXT_VALID` is `textValid` in
Machine/Text.lean. -/
structure Config where
  /-- `IDX_W`; `RB_N` is the power of two `2 ^ IDX_W` (92_eei_decisions.md D4). -/
  idxW        : Nat := 8
  /-- `LINE_CAP`. -/
  lineCap     : Nat := 256
  /-- `DELIM`. -/
  delim       : Byte := 0x0A#8
  /-- `WS`, the set of bytes trimmed from the end of an emitted line. -/
  ws          : List Byte := [0x09#8, 0x0A#8, 0x0B#8, 0x0C#8, 0x0D#8, 0x20#8]
  /-- `CMD_RESET`. -/
  cmdReset    : Byte := 0xFF#8
  /-- `CMD_READ_ID`. -/
  cmdReadId   : Byte := 0x9F#8
  /-- `CMD_READ_PAGE`. -/
  cmdReadPage : Byte := 0x13#8
  /-- `ID_LEN`. -/
  idLen       : Nat := 6
  /-- `ID_MFR_IDX`. -/
  idMfrIdx    : Nat := 2
  /-- `ID_DEV_IDX`. -/
  idDevIdx    : Nat := 3
  /-- `FILL`. -/
  fill        : Byte := 0x00#8
  /-- `T_SETTLE`, OPEN: `none` leaves it to `Config.openSettle` (log 14). -/
  tSettle     : Option Nat := none
  /-- `RP_ADDR_BYTES`, `RP_DUMMY_BYTES`, `RP_DATA_BYTES`, OPEN: `none` is the configuration that does not supply them (R170). -/
  page        : Option PageLayout := none
  /-- `RP_ADDR_MSB_FIRST`. -/
  pageMsbFirst : Bool := true
  /-- `SYNC_LAG`. -/
  syncLag     : SyncLag := .free
  /-- The parameters no rule depends on. -/
  physical    : Physical := {}
deriving DecidableEq, Repr

/-- The value of `T_SETTLE` where the configuration does not fix it: open, so uninterpreted (R6; log 14). -/
opaque Config.openSettle : Nat

/-- The n-th value of a register the spec leaves undefined after an operation (10_state.md R29, 42_nand_sequencer.md R173; log 6). -/
opaque Config.freeByte : Nat → Byte

/-- Whether the n-th unanswered exchange fails (42_nand_sequencer.md R166; log 7). -/
opaque Config.freeBusFails : Nat → Bool

/-- Byte i that the device returns in the n-th exchange where nothing fixes it (R166; log 7). -/
opaque Config.freeMiso : Nat → Nat → Byte

/-- The opaque code of the n-th failing exchange (R166; log 7). -/
opaque Config.freeErrCode : Nat → Nat

/-- How many bytes the n-th failing exchange had transferred, before the bound 0 to n of R166 is applied (log 7). -/
opaque Config.freeErrCount : Nat → Nat

/-- How far the n-th unscheduled SYNC step advances a view, before the bound of 40_ringbuffer.md R128 is applied (log 5). -/
opaque Config.freeSync : Nat → Nat

/-- Which agent the n-th free move is drawn for: 0 P, 1 C, 2 and 3 S with SYNC_H and SYNC_T, taken mod 4 (00_scope.md R14; log 5). -/
opaque Config.freeMove : Nat → Nat

namespace Config

/-- `RB_N`, the number of slots of the ring. -/
def rbN (c : Config) : Nat := 2 ^ c.idxW

/-- `RB_DEPTH`, the greatest number of unread bytes (90_conflicts.md C1). -/
def rbDepth (c : Config) : Nat := c.rbN - 1

/-- The settle count in force: the configured one, or the open one. -/
def settleTicks (c : Config) : Nat := c.tSettle.getD openSettle

/-- `XB_LEN` = max(`ID_LEN`, L); with the Read-Page lengths unset it is `ID_LEN` (R6; log 26). -/
def xbLen (c : Config) : Nat :=
  match c.page with
  | none => c.idLen
  | some l => max c.idLen l.frameLen

end Config

end Sys2Proof
end

