-- ==== Sys2Proof/Syntax.lean ====
section
/-! DEFINITION. The ten operations of 00_scope.md R5, the agents that may request them, and the requests as the ports
carry them (30_encoding.md R90 to R93). -/

namespace Sys2Proof

/-- One constructor per row of the operation table. `k` and `page` are natural numbers because their widths
(`IDX_W`, `PAGE_AW`) are parameters; `Instr.wf` bounds them (log 17). -/
inductive Instr where
  | push (b : Byte)
  | pop
  | feed (b : Byte)
  | drain
  | nop
  | nandReset
  | nandReadId
  | nandReadPage (page : Nat)
  | syncH (k : Nat)
  | syncT (k : Nat)
deriving DecidableEq, Repr

/-- Who presents a request: P, C and S of 00_scope.md R13, and the second producer and second consumer that
40_ringbuffer.md R133 excludes (log 19). -/
inductive Agent where
  | producer | consumer | synchroniser | secondProducer | secondConsumer
deriving DecidableEq, Repr

/-- The three request formats (30_encoding.md R90). -/
inductive Format where
  | W | C | S
deriving DecidableEq, Repr

/-- A request as its port carries it: the 9-bit write word (R91); the 3-bit code with the two operand ports (R92);
the synchroniser step label of `1 + IDX_W` bits (R93). -/
inductive Request where
  | w (word : BitVec 9)
  | c (op : BitVec 3) (byte : Byte) (page : Nat)
  | s (label : Nat)
deriving DecidableEq, Repr

/-- The format that carries an operation. -/
def Instr.format : Instr → Format
  | .push _ => .W
  | .pop => .C
  | .feed _ => .C
  | .drain => .C
  | .nop => .C
  | .nandReset => .C
  | .nandReadId => .C
  | .nandReadPage _ => .C
  | .syncH _ => .S
  | .syncT _ => .S

/-- The format of a request. -/
def Request.format : Request → Format
  | .w _ => .W
  | .c _ _ _ => .C
  | .s _ => .S

/-- The one agent that performs the operations of a format (60_exceptions.md R234). -/
def Format.owner : Format → Agent
  | .W => .producer
  | .C => .consumer
  | .S => .synchroniser

end Sys2Proof
end

