-- ==== Sys2Proof/WellFormed.lean ====
section
/-! DEFINITION. Which configurations the spec admits, and which operands an operation's encoding can carry. -/

namespace Sys2Proof

/-- The ring has at least two slots (00_scope.md R6: a power of two, at least 2). -/
def Config.ringOk (c : Config) : Bool := decide (1 ≤ c.idxW)

/-- `LINE_CAP` is 1 to 256 (R6, 92_eei_decisions.md D10). -/
def Config.lineOk (c : Config) : Bool := decide (1 ≤ c.lineCap) && decide (c.lineCap ≤ 256)

/-- The two identifiers lie inside the Read-ID exchange (42_nand_sequencer.md R168). -/
def Config.idOk (c : Config) : Bool := decide (c.idMfrIdx < c.idLen) && decide (c.idDevIdx < c.idLen)

/-- A configuration the spec admits. -/
def Config.wf (c : Config) : Bool := c.ringOk && c.lineOk && c.idOk

/-- A page address has `PAGE_AW` bits (42_nand_sequencer.md R172: one that does not fit cannot be expressed). -/
def pageFits (c : Config) (page : Nat) : Bool :=
  match c.page with
  | none => true
  | some l => decide (page < 2 ^ l.pageAw)

/-- `s_k` has `IDX_W` bits (30_encoding.md R93). -/
def stepFits (c : Config) (k : Nat) : Bool := decide (k < c.rbN)

/-- The operands of an operation are ones its encoding can carry. -/
def Instr.wf (c : Config) : Instr → Bool
  | .push _ => true
  | .pop => true
  | .feed _ => true
  | .drain => true
  | .nop => true
  | .nandReset => true
  | .nandReadId => true
  | .nandReadPage page => pageFits c page
  | .syncH k => stepFits c k
  | .syncT k => stepFits c k

end Sys2Proof
end

