-- ==== Sys2Proof/Decode.lean ====
section
/-! DEFINITION. The decoder of the three request formats (30_encoding.md R91 to R93), the encoder, and the operation table
as data. A request is decoded by the port it arrives on: the same nine bits are PUSH on the write port and SYNC_T as a
synchroniser label, and no mode bit changes a decoding (R90). -/

namespace Sys2Proof

/-- Why a request is no operation. -/
inductive Reject where
  /-- `w_en` = 0: "not an operation and changes no state" (R91). -/
  | noRequest
  /-- `c_op` = 7 is reserved (R99). -/
  | reservedCode
deriving DecidableEq, Repr

/-- Format W: `{w_en, w_data[7:0]}`. -/
def decodeW (word : BitVec 9) : Except Reject Instr :=
  if word.extractLsb' 8 1 = 1#1 then .ok (.push (word.extractLsb' 0 8)) else .error .noRequest

/-- The page operand as the `PAGE_AW` wires of `c_page` carry it (log 31). -/
def pagePort (c : Config) (page : Nat) : Nat :=
  match c.page with
  | none => page
  | some l => page % 2 ^ l.pageAw

/-- Format C: the 3-bit code; the operand ports are read only by the operations that name them. -/
def decodeC (c : Config) (op : BitVec 3) (byte : Byte) (page : Nat) : Except Reject Instr :=
  if op = 0b000#3 then .ok .nop
  else if op = 0b001#3 then .ok .pop
  else if op = 0b010#3 then .ok (.feed byte)
  else if op = 0b011#3 then .ok .drain
  else if op = 0b100#3 then .ok .nandReset
  else if op = 0b101#3 then .ok .nandReadId
  else if op = 0b110#3 then .ok (.nandReadPage (pagePort c page))
  else .error .reservedCode

/-- Format S: `{s_sel, s_k[IDX_W-1:0]}`. -/
def decodeS (c : Config) (label : Nat) : Instr :=
  if label.testBit c.idxW then .syncT (label % c.rbN) else .syncH (label % c.rbN)

/-- The decoder: total on every request. -/
def decode (c : Config) : Request → Except Reject Instr
  | .w word => decodeW word
  | .c op byte page => decodeC c op byte page
  | .s label => .ok (decodeS c label)

/-- The request that carries an operation; an operand port the operation does not name carries zeros. -/
def encode (c : Config) : Instr → Request
  | .push b => .w (1#1 ++ b)
  | .pop => .c 0b001#3 0#8 0
  | .feed b => .c 0b010#3 b 0
  | .drain => .c 0b011#3 0#8 0
  | .nop => .c 0b000#3 0#8 0
  | .nandReset => .c 0b100#3 0#8 0
  | .nandReadId => .c 0b101#3 0#8 0
  | .nandReadPage page => .c 0b110#3 0#8 page
  | .syncH k => .s k
  | .syncT k => .s (c.rbN + k)

/-- The bits of a request that the operation table numbers (the write word, the code, the label). -/
def Request.tableBits : Request → Nat
  | .w word => word.toNat
  | .c op _ _ => op.toNat
  | .s label => label

/-- One row of the operation table: a word `w` of `format` is the row's when `w &&& mask = pattern`. -/
structure Row where
  mnemonic : String
  format   : Format
  width    : Nat
  mask     : Nat
  pattern  : Nat
deriving DecidableEq, Repr

/-- The row of an operation, as spec/opcode_table.json gives it. -/
def Instr.row : Instr → Row
  | .push _ => ⟨"PUSH", .W, 9, 0x100, 0x100⟩
  | .pop => ⟨"POP", .C, 3, 0x7, 0x1⟩
  | .feed _ => ⟨"FEED", .C, 3, 0x7, 0x2⟩
  | .drain => ⟨"DRAIN", .C, 3, 0x7, 0x3⟩
  | .nop => ⟨"NOP", .C, 3, 0x7, 0x0⟩
  | .nandReset => ⟨"NAND_RESET", .C, 3, 0x7, 0x4⟩
  | .nandReadId => ⟨"NAND_READ_ID", .C, 3, 0x7, 0x5⟩
  | .nandReadPage _ => ⟨"NAND_READ_PAGE", .C, 3, 0x7, 0x6⟩
  | .syncH _ => ⟨"SYNC_H", .S, 9, 0x100, 0x000⟩
  | .syncT _ => ⟨"SYNC_T", .S, 9, 0x100, 0x100⟩

/-- The ten rows. -/
def opcodeTable : List Row :=
  [(Instr.push 0).row, Instr.pop.row, (Instr.feed 0).row, Instr.drain.row, Instr.nop.row, Instr.nandReset.row,
   Instr.nandReadId.row, (Instr.nandReadPage 0).row, (Instr.syncH 0).row, (Instr.syncT 0).row]

/-- No word of one format matches both rows (two rows that agree where both masks look would share a word). -/
def Row.disjoint (a b : Row) : Bool :=
  a.format != b.format || (a.pattern &&& b.mask) != (b.pattern &&& a.mask)

/-- The request behind a bare table word. A table word does not say which port carries it: a 9-bit word with bit 8 set
is both PUSH's and SYNC_T's, and is read here as the write port's; with bit 8 clear only SYNC_H has it (log 12). -/
def tableRequest (nbits w : Nat) : Option Request :=
  if nbits = 9 ∨ nbits = 16 then
    if w < 2 ^ 9 then some (if w.testBit 8 then .w (BitVec.ofNat 9 w) else .s w) else none
  else if nbits = 3 ∨ nbits = 8 then
    if w < 2 ^ 3 then some (.c (BitVec.ofNat 3 w) 0#8 0) else none
  else none

/-- The operation the decoder reads from a bare table word, under the default parameters. -/
def decodeTableWord (nbits w : Nat) : Option Instr :=
  match tableRequest nbits w with
  | none => none
  | some r => (decode {} r).toOption

end Sys2Proof
end

