-- ==== Sys2Proof/Machine/State.lean ====
section
/-! DEFINITION. The state of the block (10_state.md), the events of its history (00_scope.md R12), the inputs that act on it
(R14, R17), the faults and refusals of a step, and the state after reset (R55). -/

namespace Sys2Proof.Machine

/-- A private byte memory: strictly rising addresses; an address that is not listed holds no value (R56; log 3). -/
abbrev Memory := List Host.Cell

/-- The three memories (20_memory.md R60): the ring `mem`, the line buffer `line`, the exchange buffer `xbuf`. -/
inductive Space where
  | RB | LB | XB
deriving DecidableEq, Repr

/-- `ns_state` (10_state.md R41). -/
inductive NsState where
  | idle | transacting | settling
deriving DecidableEq, Repr

/-- `nand_status` (10_state.md R46). -/
inductive NandStatus where
  | none | ok | err
deriving DecidableEq, Repr

/-- What a NAND operation reports in `NandDone` (42_nand_sequencer.md R163, R167, R171). -/
inductive NandResult where
  | ok
  | okId (mfr dev : Byte)
  | okPage (data : List Byte)
  | busError (e : Nat)
deriving DecidableEq, Repr

/-- The outcome `o` of an exchange (42_nand_sequencer.md R162 step T2): the received bytes, or an error code with the
count of bytes transferred. -/
inductive BusOutcome where
  | ok (rx : List Byte)
  | err (e k : Nat)
deriving DecidableEq, Repr

/-- What V is told to answer in a coming exchange (30_encoding.md R111 `V: MISO`, `V: BUSERR`; log 7). -/
inductive BusAnswer where
  | miso (bytes : List Byte)
  | busErr (e k : Nat)
deriving DecidableEq, Repr

/-- The events of the history (00_scope.md R12). -/
inductive Event where
  | pushed (b : Byte)
  | overflow (b : Byte)
  | popped (b : Byte)
  | popEmpty
  | lineOut (s : List Byte)
  | lineDropped (s : List Byte)
  | csLow
  | xfer (tx rx : List Byte)
  | xferErr (e k : Nat)
  | csHigh
  | settleStart
  | settleDone
  | nandDone (r : NandResult)
  | fatal
deriving DecidableEq, Repr

/-- Which NAND operation C is inside; Read-Page with the layout it runs under. -/
inductive NandOp where
  | reset
  | readId
  | readPage (layout : PageLayout)
deriving DecidableEq, Repr

/-- The step of a NAND operation that comes next: T1 to T3 of `transact` (R162), step 3 (the error test), step 4, and
for NAND_RESET steps 5 and 6. The outcome `o` is the operation's local variable. -/
inductive NandAt where
  | t1
  | t2
  | t3 (o : BusOutcome)
  | check (o : BusOutcome)
  | step4
  | settle
deriving DecidableEq, Repr

/-- The step of DRAIN that comes next: steps 2 to 5 of 41_lineframer.md R148. The result `r` of the POP is the operation's local variable. -/
inductive DrainAt where
  | pop
  | test (r : Option Byte)
  | feed (b : Byte)
  | again
deriving DecidableEq, Repr

/-- The consumer's place in its operation: what stands in a program counter's place (10_state.md R51; log 8). -/
inductive Seq where
  | idle
  | drain (next : DrainAt)
  | nand (op : NandOp) (next : NandAt)
deriving DecidableEq, Repr

/-- A result output of the command port (30_encoding.md R95). -/
inductive HostPort where
  | cBusy | halted | rValid | rData | nandStatus | nandMfr | nandDev
  | xData (xIdx : Nat)
deriving DecidableEq, Repr

/-- One thing the world does to the block (00_scope.md R17; log 4): an edge of a request port with what stands on it, the
`fatal` and reset inputs, a directive to V, a read of a result port, or a foreign master driving the NAND bus. The schedule
of agents is a parameter of the step relation too (R14): it may say that C takes one further step of its operation, that C
goes on to the operation's end, that S brings one view nearer, or that the next agent is drawn freely (log 5). -/
inductive Input where
  | request (who : Agent) (r : Request)
  | consumerStep
  | consumerRest
  | syncHead
  | syncTail
  | freeMove
  | fatal
  | reset
  | answer (a : BusAnswer)
  | hostRead (p : HostPort)
  | foreignMaster
deriving DecidableEq, Repr

/-- The ring buffer's state (10_state.md R21 to R30). -/
structure Ring where
  mem    : Memory
  head   : Nat
  tail   : Nat
  /-- `head_c`, the consumer's view of `head`. -/
  headC  : Nat
  /-- `tail_p`, the producer's view of `tail`. -/
  tailP  : Nat
  rValid : Bool
  rData  : Byte
  wOvf   : Bool
deriving DecidableEq, Repr

/-- The line framer's state (10_state.md R31, R32). -/
structure Framer where
  line : Memory
  idx  : Nat
deriving DecidableEq, Repr

/-- The NAND sequencer's state (10_state.md R41 to R47). -/
structure Nand where
  nsState    : NsState
  csN        : Bool
  xbuf       : Memory
  xlen       : Nat
  settleCnt  : Nat
  nandStatus : NandStatus
  nandMfr    : Byte
  nandDev    : Byte
  /-- `nand_mfr` and `nand_dev` hold a value (R47). -/
  idValid    : Bool
deriving DecidableEq, Repr

/-- The consumer agent's state (10_state.md R49, R51). -/
structure Consumer where
  cBusy  : Bool
  halted : Bool
  seq    : Seq
deriving DecidableEq, Repr

/-- The model's own fields: what the world will do next (log 4, log 7) and the counter of free values (log 6). -/
structure Env where
  inputs    : List Input
  /-- What the world does again and again, without end, once `inputs` is used up; each round of it is fair (log 4). -/
  cycle     : List Input
  answers   : List BusAnswer
  freeCount : Nat
deriving DecidableEq, Repr

/-- The state of the block (10_state.md R20), with its parameters and the model's own fields. -/
structure State where
  cfg     : Config
  rb      : Ring
  lf      : Framer
  ns      : Nand
  cons    : Consumer
  history : List Event
  env     : Env
deriving DecidableEq, Repr

/-- Why a step stops with a fault. Both are the model's treatment of an element that holds no value (10_state.md R56). -/
inductive Fault where
  /-- An operation or the host reads a byte of memory that nothing has written: raised by POP, the flush, the exchange
  and the read-out port. Safe: the model stops where hardware would deliver some byte. -/
  | unwritten (sp : Space) (addr : Nat)
  /-- A read of `r_data` with `r_valid` = 0, or of `nand_mfr` / `nand_dev` that are not valid: raised by the host's read
  and by nothing else. The spec asks for it: "reading them is a fault of the model" (R47), R29, R56, 93_implementation_defined.md
  U3 and U15, vector V-EX-4. Safe: the model stops where hardware would deliver some byte. -/
  | noResult (p : HostPort)
  /-- The host's `x_idx` is no index of `xbuf`: raised by the host's read. Safe: no such byte exists. -/
  | outsideBuffer (xIdx : Nat)
deriving DecidableEq, Repr

/-- Why a step is refused: the spec gives the request or the configuration no meaning (93_implementation_defined.md). -/
inductive Refusal where
  /-- An instruction that has no meaning in this model yet: raised by an arm of `exec`. Safe. -/
  | notModelled (mnemonic : String)
  /-- `c_op` = 7 (30_encoding.md R99, U8): raised by the command port. Safe. -/
  | reservedCode
  /-- A second producer (40_ringbuffer.md R133, U1): raised by the write port. Safe. -/
  | secondProducer
  /-- A second consumer (40_ringbuffer.md R133, U1): raised by the command port. Safe. -/
  | secondConsumer
  /-- A request from the wrong context (R133, 41_lineframer.md R152, U2): raised by any request port. Safe. -/
  | wrongContext
  /-- Another master on the NAND bus (42_nand_sequencer.md R176, U7): raised by the bus. Safe. -/
  | foreignMaster
  /-- NAND_READ_PAGE in a configuration that does not supply its lengths (R170, U5): raised by NAND_READ_PAGE. Safe. -/
  | pageUnset
deriving DecidableEq, Repr

/-- The three outcomes of a step of this machine. -/
abbrev Out := Host.Outcome State Fault Refusal

/-- The state after reset (10_state.md R55, 70_reset_and_hazards.md R250), with the default parameters. `rData`,
`nandMfr` and `nandDev`, whose reset value is unspecified, are 0 (DESIGN CHOICE, log 1, log 2). -/
def State.reset : State :=
  { cfg := {}
    rb := { mem := [], head := 0, tail := 0, headC := 0, tailP := 0, rValid := false, rData := 0#8, wOvf := false }
    lf := { line := [], idx := 0 }
    ns := { nsState := .idle, csN := true, xbuf := [], xlen := 0, settleCnt := 0, nandStatus := .none,
            nandMfr := 0#8, nandDev := 0#8, idValid := false }
    cons := { cBusy := false, halted := false, seq := .idle }
    history := []
    env := { inputs := [], cycle := [], answers := [], freeCount := 0 } }

end Sys2Proof.Machine
end

