-- ==== Sys2Proof/Machine/Ops.lean ====
section
/-! DEFINITION. The shared operations: one byte of a memory (00_scope.md R9), the ring's index arithmetic (40_ringbuffer.md
R121), raising an event (R10), the publication of an index (20_memory.md R71, R73), the entry of an error
(60_exceptions.md R221), the free draws, and the reset of the block (70_reset_and_hazards.md R250). -/

namespace Sys2Proof.Machine

/-! ## Memory -/

/-- The canonical form: addresses strictly rising. -/
abbrev Memory.wf (m : Memory) : Prop := (m.map Prod.fst).Pairwise (· < ·)

/-- The byte at an address, if one has been written. -/
def Memory.read : Memory → Nat → Option Byte
  | [], _ => none
  | (k, v) :: rest, a => if k = a then some v else Memory.read rest a

/-- Writes one byte, keeping the addresses in order. -/
def Memory.write : Memory → Nat → Byte → Memory
  | [], a, v => [(a, v)]
  | (k, w) :: rest, a, v =>
    if a < k then (a, v) :: (k, w) :: rest
    else if a = k then (a, v) :: rest
    else (k, w) :: Memory.write rest a v

/-- Writes a sequence of bytes from address `a` on, lower index first (20_memory.md R64). -/
def Memory.writeAll : Memory → Nat → List Byte → Memory
  | m, _, [] => m
  | m, a, b :: bs => Memory.writeAll (m.write a b) (a + 1) bs

/-- The `n` bytes from address `a` on in index order, or the first address among them that holds no value. -/
def Memory.slice (m : Memory) : Nat → Nat → Except Nat (List Byte)
  | _, 0 => .ok []
  | a, n + 1 =>
    match m.read a with
    | none => .error a
    | some b =>
      match Memory.slice m (a + 1) n with
      | .error e => .error e
      | .ok bs => .ok (b :: bs)

/-- The memory of a space (R9). -/
def State.bank (s : State) : Space → Memory
  | .RB => s.rb.mem
  | .LB => s.lf.line
  | .XB => s.ns.xbuf

/-- `s` with the memory of a space replaced. -/
def State.setBank (s : State) : Space → Memory → State
  | .RB, m => { s with rb := { s.rb with mem := m } }
  | .LB, m => { s with lf := { s.lf with line := m } }
  | .XB, m => { s with ns := { s.ns with xbuf := m } }

/-- `MemRead(space, addr, 1)` (R9). -/
def memRead (sp : Space) (addr : Nat) (s : State) : Option Byte := (s.bank sp).read addr

/-- `MemWrite(space, addr, 1, v)` (R9). -/
def memWrite (sp : Space) (addr : Nat) (v : Byte) (s : State) : State := s.setBank sp ((s.bank sp).write addr v)

/-! ## Index arithmetic of the ring -/

/-- The successor of an index, mod the number of slots (R121). -/
def ringSucc (n i : Nat) : Nat := (i + 1) % n

/-- The forward distance `d(a, b) = (b - a) mod n` (10_state.md R28). -/
def ringDist (n a b : Nat) : Nat := (b + (n - a % n)) % n

/-! ## Sequencing -/

/-- Goes on with `f` from the next state; a fault or a refusal stops. -/
def andThen (o : Out) (f : State → Out) : Out :=
  match o with
  | .next s => f s
  | .fault r => .fault r
  | .refused r => .refused r

/-- `raise <Event>`: appends to the history (R10, R12). -/
def State.raise (e : Event) (s : State) : State := { s with history := s.history ++ [e] }

/-- A request on the command port is taken only while `c_busy` = 0 and `halted` = 0; otherwise it is ignored
(30_encoding.md R92, R95; log 9). -/
def whenTaken (s : State) (o : Out) : Out := if s.cons.cBusy || s.cons.halted then .next s else o

/-- `c_busy <- 1` and the operation's next step. -/
def State.begin (seq : Seq) (s : State) : State := { s with cons := { s.cons with cBusy := true, seq := seq } }

/-- The consumer's next step becomes `seq`. -/
def State.goto (seq : Seq) (s : State) : State := { s with cons := { s.cons with seq := seq } }

/-- `c_busy <- 0 ; done`. -/
def State.finish (s : State) : State := { s with cons := { s.cons with cBusy := false, seq := .idle } }

/-! ## Publication of an index -/

/-- `head <- h`. With `SYNC_LAG` = zero the view `head_c` is identical to `head` at every instant (10_state.md R25). -/
def State.publishHead (h : Nat) (s : State) : State :=
  { s with rb := { s.rb with head := h, headC := if s.cfg.syncLag = .zero then h else s.rb.headC } }

/-- `tail <- t`. With `SYNC_LAG` = zero the view `tail_p` is identical to `tail` at every instant (10_state.md R26). -/
def State.publishTail (t : Nat) (s : State) : State :=
  { s with rb := { s.rb with tail := t, tailP := if s.cfg.syncLag = .zero then t else s.rb.tailP } }

/-! ## Free draws -/

/-- The next free byte, and the counter moved on (log 6). -/
def State.freeByte (s : State) : Byte := Config.freeByte s.env.freeCount

/-- The counter of free values moved on by `n`. -/
def State.spend (n : Nat) (s : State) : State := { s with env := { s.env with freeCount := s.env.freeCount + n } }

/-- `n` received bytes: those the directive fixes, and a free byte at every place it does not reach (log 7). -/
def misoBytes (n c : Nat) (bytes : List Byte) : List Byte :=
  (List.range n).map fun i => (bytes[i]?).getD (Config.freeMiso c i)

/-- The answer of V to an exchange of `n` bytes (42_nand_sequencer.md R162 T2, R166): what it has been told to answer, or a
free answer; the count of bytes transferred is at most `n`. -/
def busOutcome (n : Nat) (s : State) : BusOutcome :=
  match s.env.answers with
  | .miso bytes :: _ => .ok (misoBytes n s.env.freeCount bytes)
  | .busErr e k :: _ => .err e (min k n)
  | [] =>
    if Config.freeBusFails s.env.freeCount then
      .err (Config.freeErrCode s.env.freeCount) (Config.freeErrCount s.env.freeCount % (n + 1))
    else .ok (misoBytes n s.env.freeCount [])

/-- The answer is spent. -/
def State.answered (s : State) : State :=
  { s with env := { s.env with answers := s.env.answers.tail, freeCount := s.env.freeCount + 1 } }

/-! ## Entry of an error -/

/-- The error classes of 60_exceptions.md R221. -/
inductive ErrorClass where
  | overflow (b : Byte)
  | parseUnknown
  | busError (e : Nat)
  | fatal
deriving DecidableEq, Repr

/-- The cause code of a class (R221). -/
def ErrorClass.code : ErrorClass → Nat
  | .overflow _ => 1
  | .parseUnknown => 2
  | .busError _ => 3
  | .fatal => 4

/-- The complete effect of an error (R221, R231): nothing is saved, no mode changes and nothing jumps.
Overflow: the event and the pulse `w_ovf` (R222). ParseUnknown: no state of the block (R223). BusError: the operation ends,
`nand_mfr` and `nand_dev` hold no defined value (42_nand_sequencer.md R173; log 6, log 15). Fatal: `halted`, once (R226, R232). -/
def enterError (cls : ErrorClass) (s : State) : State :=
  match cls with
  | .overflow b => { s with rb := { s.rb with wOvf := true } }.raise (.overflow b)
  | .parseUnknown => s
  | .busError e =>
    (State.raise (.nandDone (.busError e))
      { s with ns := { s.ns with nandStatus := .err, idValid := false, nandMfr := s.freeByte, nandDev := (s.spend 1).freeByte } }
      |>.spend 2).finish
  | .fatal => if s.cons.halted then s else { s with cons := { s.cons with halted := true } }.raise .fatal

/-! ## Reset and the pulse -/

/-- The block after `rst_n` (70_reset_and_hazards.md R250, R252): every element as R55 says; the parameters and the world's
plans stay (log 18). -/
def State.resetBlock (s : State) : State := { State.reset with cfg := s.cfg, env := s.env }

/-- The pulse `w_ovf` is one step long (10_state.md R30; log 11). -/
def State.lowerPulse (s : State) : State := { s with rb := { s.rb with wOvf := false } }

end Sys2Proof.Machine
end

