-- ==== Sys2Proof/Machine/Flags.lean ====
section
/-! DEFINITION. The flags of the block and the derived quantities of the ring (10_state.md R27, R52): what PUSH and POP
test, and the codes of the status outputs (R41, R46). -/

namespace Sys2Proof.Machine

/-- `count`: unread bytes. -/
def State.count (s : State) : Nat := ringDist s.cfg.rbN s.rb.tail s.rb.head

/-- `count_c`: unread bytes that C can see. -/
def State.countC (s : State) : Nat := ringDist s.cfg.rbN s.rb.tail s.rb.headC

/-- `count_p`: bytes P believes unread. -/
def State.countP (s : State) : Nat := ringDist s.cfg.rbN s.rb.tailP s.rb.head

/-- `empty = (head == tail)`. -/
def State.empty (s : State) : Bool := s.rb.head == s.rb.tail

/-- `empty_c = (head_c == tail)`, which POP tests. -/
def State.emptyC (s : State) : Bool := s.rb.headC == s.rb.tail

/-- `full = ((head + 1) mod RB_N == tail)`. -/
def State.full (s : State) : Bool := ringSucc s.cfg.rbN s.rb.head == s.rb.tail

/-- `full_p = ((head + 1) mod RB_N == tail_p)`, which PUSH tests. -/
def State.fullP (s : State) : Bool := ringSucc s.cfg.rbN s.rb.head == s.rb.tailP

/-- The queue content, oldest first (R27): the slots from `tail` up to `head`, each with what it holds. -/
def State.content (s : State) : List (Option Byte) :=
  (List.range s.count).map fun i => s.rb.mem.read ((s.rb.tail + i) % s.cfg.rbN)

/-- The two-bit code of `ns_state` (R41). -/
def NsState.code : NsState → BitVec 2
  | .idle => 0
  | .transacting => 1
  | .settling => 2

/-- The two-bit code of `nand_status` (30_encoding.md R95). -/
def NandStatus.code : NandStatus → BitVec 2
  | .none => 0
  | .ok => 1
  | .err => 2

end Sys2Proof.Machine
end

