-- ==== Sys2Proof/Machine/RingBuffer.lean ====
section
/-! DEFINITION. RB, the asynchronous FIFO: PUSH, POP, SYNC_H, SYNC_T (40_ringbuffer.md). -/

namespace Sys2Proof.Machine

/-- The accepting arm of PUSH (R122): store, then publish. -/
def acceptPush (b : Byte) (s : State) : State :=
  (((memWrite .RB s.rb.head b s).publishHead (ringSucc s.cfg.rbN s.rb.head)).lowerPulse).raise (.pushed b)

/-- PUSH b (R122): the full test reads `tail_p`, never `tail`, and comes before the store (60_exceptions.md R230 (b)). -/
def execPush (b : Byte) (s : State) : Out :=
  .next (if s.fullP then enterError (.overflow b) s else acceptPush b s)

/-- The empty arm of POP (R125): the result is `None`, and `r_data` holds no defined value (10_state.md R29; log 6). -/
def popNone (s : State) : State :=
  (({ s with rb := { s.rb with rValid := false, rData := s.freeByte } } : State).spend 1).raise .popEmpty

/-- The other arm of POP (R125) with the byte loaded: free the slot, then deliver the result. -/
def popSome (b : Byte) (s : State) : State :=
  let t := s.publishTail (ringSucc s.cfg.rbN s.rb.tail)
  ({ t with rb := { t.rb with rValid := true, rData := b } } : State).raise (.popped b)

/-- The whole of POP (R125), as a request or inside DRAIN: it reads `head_c`, never `head`. -/
def popOnce (s : State) : Out :=
  if s.emptyC then .next (popNone s)
  else
    match memRead .RB s.rb.tail s with
    | none => .fault (.unwritten .RB s.rb.tail)
    | some b => .next (popSome b s)

/-- The result of the most recent POP as OBC's `Option<byte>` (10_state.md R29). -/
def State.popResult (s : State) : Option Byte := if s.rb.rValid then some s.rb.rData else none

/-- POP as a request (R125). -/
def execPop (s : State) : Out := whenTaken s (popOnce s)

/-- SYNC_H is enabled (R128): `SYNC_LAG` = free and 1 <= k <= (head - head_c) mod RB_N. -/
def syncHEnabled (k : Nat) (s : State) : Bool :=
  decide (s.cfg.syncLag = .free) && decide (1 ≤ k) && decide (k ≤ ringDist s.cfg.rbN s.rb.headC s.rb.head)

/-- SYNC_T is enabled (R129). -/
def syncTEnabled (k : Nat) (s : State) : Bool :=
  decide (s.cfg.syncLag = .free) && decide (1 ≤ k) && decide (k ≤ ringDist s.cfg.rbN s.rb.tailP s.rb.tail)

/-- SYNC_H k (R128). While it is not enabled S is held and nothing changes (00_scope.md R10, 70_reset_and_hazards.md R262; log 10). -/
def execSyncH (k : Nat) (s : State) : Out :=
  .next (if syncHEnabled k s then { s with rb := { s.rb with headC := (s.rb.headC + k) % s.cfg.rbN } } else s)

/-- SYNC_T k (R129), held as SYNC_H is. -/
def execSyncT (k : Nat) (s : State) : Out :=
  .next (if syncTEnabled k s then { s with rb := { s.rb with tailP := (s.rb.tailP + k) % s.cfg.rbN } } else s)

end Sys2Proof.Machine
end

