-- ==== Sys2Proof/Machine/Text.lean ====
section
/-! DEFINITION. Text validity and trimming of the line framer (30_encoding.md R107 to R109). -/

namespace Sys2Proof.Machine

/-- An inclusive range of byte values. -/
structure ByteRange where
  lo : Byte
  hi : Byte
deriving DecidableEq, Repr

/-- Whether a byte lies in a range. -/
def ByteRange.has (r : ByteRange) (b : Byte) : Bool := decide (r.lo ≤ b) && decide (b ≤ r.hi)

/-- The rows of the table of R108: the range of the first byte, and the ranges of the bytes that follow it. -/
def utf8Rows : List (ByteRange × List ByteRange) :=
  [(⟨0x00, 0x7F⟩, []),
   (⟨0xC2, 0xDF⟩, [⟨0x80, 0xBF⟩]),
   (⟨0xE0, 0xE0⟩, [⟨0xA0, 0xBF⟩, ⟨0x80, 0xBF⟩]),
   (⟨0xE1, 0xEC⟩, [⟨0x80, 0xBF⟩, ⟨0x80, 0xBF⟩]),
   (⟨0xED, 0xED⟩, [⟨0x80, 0x9F⟩, ⟨0x80, 0xBF⟩]),
   (⟨0xEE, 0xEF⟩, [⟨0x80, 0xBF⟩, ⟨0x80, 0xBF⟩]),
   (⟨0xF0, 0xF0⟩, [⟨0x90, 0xBF⟩, ⟨0x80, 0xBF⟩, ⟨0x80, 0xBF⟩]),
   (⟨0xF1, 0xF3⟩, [⟨0x80, 0xBF⟩, ⟨0x80, 0xBF⟩, ⟨0x80, 0xBF⟩]),
   (⟨0xF4, 0xF4⟩, [⟨0x80, 0x8F⟩, ⟨0x80, 0xBF⟩, ⟨0x80, 0xBF⟩])]

/-- The ranges that must follow a first byte, or none if it begins no pattern. -/
def utf8Follow (b : Byte) : Option (List ByteRange) := (utf8Rows.find? fun r => r.1.has b).map Prod.snd

/-- The bytes complete the pattern whose remaining ranges are `owed`, and go on with whole patterns. -/
def textValidFrom : List ByteRange → List Byte → Bool
  | [], [] => true
  | _ :: _, [] => false
  | [], b :: bs =>
    match utf8Follow b with
    | none => false
    | some owed => textValidFrom owed bs
  | r :: owed, b :: bs => r.has b && textValidFrom owed bs

/-- `TEXT_VALID` (R108): a concatenation of zero or more patterns of the table and nothing else. -/
def textValid (s : List Byte) : Bool := textValidFrom [] s

/-- `trim_end` (R109): the longest suffix of bytes of `ws` removed. -/
def trimEnd (ws : List Byte) (s : List Byte) : List Byte := (s.reverse.dropWhile fun b => ws.contains b).reverse

end Sys2Proof.Machine
end

