-- ==== Sys2Proof/Machine/LineFramer.lean ====
section
/-! DEFINITION. LF, the line framer: FEED and DRAIN (41_lineframer.md). -/

namespace Sys2Proof.Machine

/-- What a flush raises (R141): the trimmed line, or the silent drop of a line that is no valid text (R145). -/
def lineEvent (c : Config) (t : List Byte) : Event :=
  if textValid t then .lineOut (trimEnd c.ws t) else .lineDropped t

/-- The flush procedure (R141). The bytes of `line` stay; the cursor returns to 0. -/
def flush (s : State) : Out :=
  match s.lf.line.slice 0 s.lf.idx with
  | .error a => .fault (.unwritten .LB a)
  | .ok t => .next (({ s with lf := { s.lf with idx := 0 } } : State).raise (lineEvent s.cfg t))

/-- `line[idx] <- b ; idx <- idx + 1`. -/
def storeLine (b : Byte) (s : State) : State :=
  let t := memWrite .LB s.lf.idx b s
  { t with lf := { t.lf with idx := s.lf.idx + 1 } }

/-- The whole of FEED (R142), as a request or inside DRAIN: the delimiter test first, the capacity test after the store. -/
def feedOnce (b : Byte) (s : State) : Out :=
  if b = s.cfg.delim then flush s
  else if (storeLine b s).lf.idx = s.cfg.lineCap then flush (storeLine b s)
  else .next (storeLine b s)

/-- FEED b as a request (R142). -/
def execFeed (b : Byte) (s : State) : Out := whenTaken s (feedOnce b s)

/-- DRAIN as a request: step 1 of R148; the further steps are the consumer's next turns (log 8). -/
def execDrain (s : State) : Out := whenTaken s (.next (s.begin (.drain .pop)))

/-- Steps 2 to 5 of DRAIN (R148), one a turn; `r` is the operation's local variable. -/
def drainTurn (next : DrainAt) (s : State) : Out :=
  match next with
  | .pop => andThen (popOnce s) fun t => .next (t.goto (.drain (.test t.popResult)))
  | .test none => .next s.finish
  | .test (some b) => .next (s.goto (.drain (.feed b)))
  | .feed b => andThen (feedOnce b s) fun t => .next (t.goto (.drain .again))
  | .again => .next (s.goto (.drain .pop))

end Sys2Proof.Machine
end

