-- ==== Sys2Proof/Machine/Operands.lean ====
section
/-! DEFINITION. Operand assembly (30_encoding.md R103) and the transmit images of the wire frames (R100 to R102). PUSH and
FEED use their byte as is; every other operand form is here. -/

namespace Sys2Proof.Machine

/-- Byte `j` of a page address, counted from the least significant byte. -/
def pageByte (page j : Nat) : Byte := BitVec.ofNat 8 (page >>> (8 * j))

/-- The page address as `a` bytes on the wire, in the configured order (R103). -/
def addrBytes (msbFirst : Bool) (a page : Nat) : List Byte :=
  if msbFirst then (List.range a).map fun j => pageByte page (a - 1 - j)
  else (List.range a).map fun j => pageByte page j

/-- Frame N1 (R100): the Reset command byte. -/
def frameReset (c : Config) : List Byte := [c.cmdReset]

/-- Frame N6 (R101): the Read-ID command byte and zero-filled placeholders, `ID_LEN` bytes. -/
def frameReadId (c : Config) : List Byte := c.cmdReadId :: List.replicate (c.idLen - 1) c.fill

/-- Frame NP (R102): command, address, dummy and data placeholders, L bytes. -/
def frameReadPage (c : Config) (l : PageLayout) (page : Nat) : List Byte :=
  c.cmdReadPage :: (addrBytes c.pageMsbFirst l.addrBytes page ++ List.replicate (l.dummyBytes + l.dataBytes) c.fill)

/-- The exchange length `n` of an operation. -/
def NandOp.xferLen (c : Config) : NandOp → Nat
  | .reset => 1
  | .readId => c.idLen
  | .readPage l => l.frameLen

/-- Whether the received bytes replace the buffer (`keep`). -/
def NandOp.keep : NandOp → Bool
  | .reset => false
  | .readId => true
  | .readPage _ => true

end Sys2Proof.Machine
end

