-- ==== Sys2Proof/Machine/NandSequencer.lean ====
section
/-! DEFINITION. NS, the NAND protocol sequencer: NOP, NAND_RESET, NAND_READ_ID, NAND_READ_PAGE (42_nand_sequencer.md). A
request performs step 1 of its operation; the further steps are the consumer's next turns (log 8). -/

namespace Sys2Proof.Machine

/-- NOP (R160): no state element changes. -/
def execNop (s : State) : Out := whenTaken s (.next s)

/-- Step 1 of a NAND operation: `c_busy <- 1` and the transmit image into `xbuf`. -/
def startNand (op : NandOp) (image : List Byte) (s : State) : State :=
  ({ s with ns := { s.ns with xbuf := s.ns.xbuf.writeAll 0 image } } : State).begin (.nand op .t1)

/-- NAND_RESET, step 1 (R163). -/
def execNandReset (s : State) : Out := whenTaken s (.next (startNand .reset (frameReset s.cfg) s))

/-- NAND_READ_ID, step 1 (R167). -/
def execNandReadId (s : State) : Out := whenTaken s (.next (startNand .readId (frameReadId s.cfg) s))

/-- NAND_READ_PAGE p, step 1 (R171); refused in a configuration that does not supply the lengths (R170). -/
def execNandReadPage (page : Nat) (s : State) : Out :=
  whenTaken s
    (match s.cfg.page with
     | none => .refused .pageUnset
     | some l => .next (startNand (.readPage l) (frameReadPage s.cfg l page) s))

/-- Step T1 of `transact` (R162): chip-select low. -/
def assertCs (op : NandOp) (s : State) : State :=
  (({ s with ns := { s.ns with csN := false, nsState := .transacting, xlen := op.xferLen s.cfg } } : State).raise .csLow).goto
    (.nand op .t2)

/-- The end of step T2 for one outcome: the event, and what `xbuf` holds. After a failed exchange it holds no value
(10_state.md R43, R173; log 16). -/
def exchanged (op : NandOp) (tx : List Byte) (o : BusOutcome) (s : State) : State :=
  match o with
  | .ok rx =>
    let t := s.raise (.xfer tx rx)
    if op.keep then { t with ns := { t.ns with xbuf := t.ns.xbuf.writeAll 0 rx } } else t
  | .err e k =>
    let t := s.raise (.xferErr e k)
    { t with ns := { t.ns with xbuf := [] } }

/-- Step T3 of `transact` (R162), on both outcomes: chip-select high. -/
def deassertCs (op : NandOp) (o : BusOutcome) (s : State) : State :=
  (({ s with ns := { s.ns with csN := true, nsState := .idle, xlen := 0 } } : State).raise .csHigh).goto (.nand op (.check o))

/-- The successful end of an operation: `nand_status <- OK ; raise NandDone ; c_busy <- 0`. -/
def nandOk (r : NandResult) (s : State) : State :=
  (({ s with ns := { s.ns with nandStatus := .ok } } : State).raise (.nandDone r)).finish

/-- Step 4 of NAND_RESET (R163): the settle delay begins. -/
def startSettle (s : State) : State :=
  (({ s with ns := { s.ns with nsState := .settling, settleCnt := s.cfg.settleTicks } } : State).raise .settleStart).goto
    (.nand .reset .settle)

/-- Step 6 of NAND_RESET (R163): the settle delay is over. -/
def endSettle (s : State) : State :=
  nandOk .ok (({ s with ns := { s.ns with nsState := .idle } } : State).raise .settleDone)

/-- Step 4 of NAND_READ_ID (R167): the identifiers are the received bytes at `ID_MFR_IDX` and `ID_DEV_IDX`. -/
def decodeId (s : State) : Out :=
  match memRead .XB s.cfg.idMfrIdx s, memRead .XB s.cfg.idDevIdx s with
  | some m, some d => .next (nandOk (.okId m d) { s with ns := { s.ns with nandMfr := m, nandDev := d, idValid := true } })
  | none, _ => .fault (.unwritten .XB s.cfg.idMfrIdx)
  | some _, none => .fault (.unwritten .XB s.cfg.idDevIdx)

/-- Step 4 of NAND_READ_PAGE (R171): the page data are the last G bytes of the exchange. -/
def pageData (l : PageLayout) (s : State) : Out :=
  match s.ns.xbuf.slice (1 + l.addrBytes + l.dummyBytes) l.dataBytes with
  | .error a => .fault (.unwritten .XB a)
  | .ok d => .next (nandOk (.okPage d) s)

/-- Step 4 of an operation whose exchange succeeded. -/
def nandStep4 (op : NandOp) (s : State) : Out :=
  match op with
  | .reset => .next (startSettle s)
  | .readId => decodeId s
  | .readPage l => pageData l s

/-- One step of a NAND operation. T1 holds while NS is not idle (R162, 70_reset_and_hazards.md R262 (b)); the count-down is
one step an iteration, and the step that finds 0 is step 6 (R163, R164; log 29). -/
def nandTurn (op : NandOp) (next : NandAt) (s : State) : Out :=
  match next with
  | .t1 => .next (if s.ns.nsState = .idle ∧ s.ns.csN = true then assertCs op s else s)
  | .t2 =>
    match s.ns.xbuf.slice 0 (op.xferLen s.cfg) with
    | .error a => .fault (.unwritten .XB a)
    | .ok tx =>
      let o := busOutcome (op.xferLen s.cfg) s
      .next ((exchanged op tx o s.answered).goto (.nand op (.t3 o)))
  | .t3 o => .next (deassertCs op o s)
  | .check (.err e _) => .next (enterError (.busError e) s)
  | .check (.ok _) => .next (s.goto (.nand op .step4))
  | .step4 => nandStep4 op s
  | .settle =>
    .next (if 0 < s.ns.settleCnt then { s with ns := { s.ns with settleCnt := s.ns.settleCnt - 1 } } else endSettle s)

end Sys2Proof.Machine
end

