-- ==== Sys2Proof/Machine/Dispatch.lean ====
section
/-! DEFINITION. The meaning of each operation: one arm per constructor of `Instr`. -/

namespace Sys2Proof.Machine

def exec (i : Instr) (s : State) : Host.Outcome State Fault Refusal :=
  match i with
  | .push b => Sys2Proof.Machine.execPush b s
  | .pop => Sys2Proof.Machine.execPop s
  | .feed b => Sys2Proof.Machine.execFeed b s
  | .drain => Sys2Proof.Machine.execDrain s
  | .nop => Sys2Proof.Machine.execNop s
  | .nandReset => Sys2Proof.Machine.execNandReset s
  | .nandReadId => Sys2Proof.Machine.execNandReadId s
  | .nandReadPage page => Sys2Proof.Machine.execNandReadPage page s
  | .syncH k => Sys2Proof.Machine.execSyncH k s
  | .syncT k => Sys2Proof.Machine.execSyncT k s

end Sys2Proof.Machine
end

