-- ==== Sys2Proof/Machine/Ports.lean ====
section
/-! DEFINITION. The outputs of the ports (30_encoding.md R94 to R98) as functions of the state, and of the two states around
a step for the one-step strobes. -/

namespace Sys2Proof.Machine

/-- A byte of a memory as the read-out port gives it. -/
def xData (xIdx : Nat) (s : State) : Except Fault Byte :=
  if s.cfg.xbLen ≤ xIdx then .error (.outsideBuffer xIdx)
  else
    match memRead .XB xIdx s with
    | none => .error (.unwritten .XB xIdx)
    | some b => .ok b

/-- What a result output shows, placed in a byte; a result that holds no value cannot be read (10_state.md R56). Reading has
no side effect (20_memory.md R68). -/
def readPort (p : HostPort) (s : State) : Except Fault Byte :=
  match p with
  | .cBusy => .ok (BitVec.ofNat 8 s.cons.cBusy.toNat)
  | .halted => .ok (BitVec.ofNat 8 s.cons.halted.toNat)
  | .rValid => .ok (BitVec.ofNat 8 s.rb.rValid.toNat)
  | .rData => if s.rb.rValid then .ok s.rb.rData else .error (.noResult .rData)
  | .nandStatus => .ok (s.ns.nandStatus.code.setWidth 8)
  | .nandMfr => if s.ns.idValid then .ok s.ns.nandMfr else .error (.noResult .nandMfr)
  | .nandDev => if s.ns.idValid then .ok s.ns.nandDev else .error (.noResult .nandDev)
  | .xData i => xData i s

/-- The events a step appended to the history. -/
def newEvents (before after : State) : List Event := after.history.drop before.history.length

/-- The line-out port during a step (R96): the line presented, if the strobe `lo_valid` is 1. -/
def lineOutPort (before after : State) : Option (List Byte) :=
  (newEvents before after).findSome? fun e =>
    match e with
    | .lineOut s => some s
    | _ => none

/-- `lo_len`, 9 bits (R96). -/
def loLen (line : List Byte) : BitVec 9 := BitVec.ofNat 9 line.length

end Sys2Proof.Machine
end

