-- ==== Sys2Proof/Machine/Turn.lean ====
section
/-! DEFINITION. What one step of the machine is made of: the consumer's turn, the taking of a request, the other inputs, and
the idle turn. Step.lean only calls these. -/

namespace Sys2Proof.Machine

/-- The consumer's next step inside its operation (10_state.md R51). A halted consumer has no step (R49). -/
def consumerTurn (s : State) : Out :=
  if s.cons.halted then .next s
  else
    match s.cons.seq with
    | .idle => .next s
    | .drain next => drainTurn next s
    | .nand op next => nandTurn op next s

/-- C is in an operation that can go on. -/
def State.goesOn (s : State) : Bool := s.cons.cBusy && !s.cons.halted

/-- C takes the next step of its operation, if it is in one that can go on. -/
def goOn (s : State) : Out := if s.goesOn then consumerTurn s else .next s

/-- Why a request of format `f` from `who` is refused, if it is not its owner's (40_ringbuffer.md R133; log 19). -/
def foreignRequest (f : Format) (who : Agent) : Option Refusal :=
  if who = f.owner then none
  else
    match f, who with
    | .W, .secondProducer => some .secondProducer
    | .C, .secondConsumer => some .secondConsumer
    | _, _ => some .wrongContext

/-- A decoded request is executed; an idle write word is no request (30_encoding.md R91); the reserved code is refused (R99)
unless the port does not sample it (R92). -/
def execRequest (r : Request) (s : State) : Out :=
  match decode s.cfg r with
  | .ok i => exec i s
  | .error .noRequest => .next s
  | .error .reservedCode => whenTaken s (.refused .reservedCode)

/-- The command port at an edge of `clk_r`: an operation in progress takes its next step and the code on the port is
ignored; otherwise the code is taken (R92, R95; log 9). -/
def commandEdge (r : Request) (s : State) : Out :=
  if s.goesOn then consumerTurn s else execRequest r s

/-- A request port at an edge: the write port and the label are taken in every state (R94, R132). -/
def takeRequest (who : Agent) (r : Request) (s : State) : Out :=
  if decode s.cfg r = .error .noRequest then .next s
  else
    match foreignRequest r.format who with
    | some refusal => .refused refusal
    | none => if r.format = .C then commandEdge r s else execRequest r s

/-- A free choice of how far a lagging view advances: 1 to the true distance (40_ringbuffer.md R128; log 5). -/
def freeAdvance (dist : Nat) (s : State) : Nat := 1 + Config.freeSync s.env.freeCount % dist

/-- S brings `head_c` nearer, by a free distance; nothing changes while it does not lag. -/
def freeSyncH (s : State) : Out := execSyncH (freeAdvance (ringDist s.cfg.rbN s.rb.headC s.rb.head) s) (s.spend 1)

/-- S brings `tail_p` nearer, by a free distance; nothing changes while it does not lag. -/
def freeSyncT (s : State) : Out := execSyncT (freeAdvance (ringDist s.cfg.rbN s.rb.tailP s.rb.tail) s) (s.spend 1)

/-- A move whose agent and operand are drawn freely: P pushes some byte, C goes on, or S advances a view (log 5). -/
def freeTurn (s : State) : Out :=
  let t := s.spend 1
  match Config.freeMove s.env.freeCount % 4 with
  | 0 => execPush t.freeByte (t.spend 1)
  | 1 => goOn t
  | 2 => freeSyncH t
  | _ => freeSyncT t

/-- `s` with `i` as its next input. -/
def State.putBack (i : Input) (s : State) : State := { s with env := { s.env with inputs := i :: s.env.inputs } }

/-- One input, already taken from the list. `consumerRest` stays until C's operation has ended. -/
def takeInput (i : Input) (s : State) : Out :=
  match i with
  | .request who r => takeRequest who r s
  | .consumerStep => goOn s
  | .consumerRest => if s.goesOn then consumerTurn (s.putBack .consumerRest) else .next s
  | .syncHead => freeSyncH s
  | .syncTail => freeSyncT s
  | .freeMove => freeTurn s
  | .fatal => .next (enterError .fatal s)
  | .reset => .next s.resetBlock
  | .answer a => .next { s with env := { s.env with answers := s.env.answers ++ [a] } }
  | .hostRead p =>
    match readPort p s with
    | .ok _ => .next s
    | .error f => .fault f
  | .foreignMaster => .refused .foreignMaster

/-- With no input: an operation of C goes on; else S advances a lagging view; else nothing happens (weak fairness of C and
S, 00_scope.md R16; log 5). -/
def idleTurn (s : State) : Out :=
  if s.goesOn then consumerTurn s
  else if syncHEnabled 1 s then freeSyncH s
  else if syncTEnabled 1 s then freeSyncT s
  else .next s

/-- What every round of the cycle begins with: a step of a started operation of C, the settle count-down included, and a step
of S for each view that lags. So no cycle starves them (weak fairness, 00_scope.md R16; log 4). -/
def fairRound : List Input := [.consumerStep, .syncHead, .syncTail]

/-- What the world does next: the inputs, and when they are used up the rounds of the cycle, again and again (log 4). -/
def State.upcoming (s : State) : List Input :=
  if s.env.inputs ≠ [] then s.env.inputs
  else if s.env.cycle = [] then []
  else fairRound ++ s.env.cycle

/-- The state with its next input taken. -/
def State.popInput (s : State) : State := { s with env := { s.env with inputs := s.upcoming.tail } }

/-- A turn of the machine. -/
def turn (s : State) : Out :=
  match s.upcoming with
  | [] => idleTurn s
  | i :: _ => takeInput i s.popInput

end Sys2Proof.Machine
end

