-- ==== Sys2Proof/Machine/Step.lean ====
section
/-! DEFINITION. One step of the machine, and how a request is placed to be the next one. -/

namespace Sys2Proof.Machine

/-- One step: the pulse `w_ovf` of the step before ends (10_state.md R30), and one agent moves. -/
def step (s : State) : Host.Outcome State Fault Refusal := turn s.lowerPulse

/-- `s` with `r` standing first on its port. The command port samples only an idle consumer that is not halted, so for a
code on that port the consumer is made so (log 13). -/
def State.present (r : Request) (s : State) : State :=
  { s with
    env := { s.env with inputs := .request r.format.owner r :: s.env.inputs }
    cons := if r.format = .C then { cBusy := false, halted := false, seq := .idle } else s.cons }

/-- `s` with the operation of a bare table word as its next request, under `s`'s own parameters; a word that is no word of
the table changes nothing. -/
def State.withFetchWord (s : State) (nbits w : Nat) : State :=
  match tableRequest nbits w with
  | none => s
  | some r =>
    s.present (match decode {} r with
      | .ok i => encode s.cfg i
      | .error _ => r)

end Sys2Proof.Machine
end

