-- ==== Sys2Proof/Machine/Superloop.lean ====
section
/-! DEFINITION. The host's line-to-response map (43_host_pipeline.md R192 to R207): parser, dispatcher and response lines, as
functions of a line. It is no part of the block and `step` calls none of it (00_scope.md R4 (a), R190; log 24); it is here
so that the end-to-end example S8 can be checked against `LineOut` events. -/

namespace Sys2Proof.Superloop

open Sys2Proof.Machine

/-- The decoded arguments of the demo command (R196); the two floats as their bit patterns. -/
structure DemoArgs where
  argU32  : BitVec 32
  argU64  : BitVec 64
  argBool : Bool
  argF32  : BitVec 32
  argF64  : BitVec 64
  argNullableU32 : Option (BitVec 32)
deriving DecidableEq, Repr

/-- A command (R198). -/
inductive Command where
  | ping | ledOn | ledOff | helloWorld
  | demo (args : DemoArgs)
deriving DecidableEq, Repr

/-- `PING`. -/
def namePing : List Byte := [0x50, 0x49, 0x4E, 0x47]
/-- `LED ON`. -/
def nameLedOn : List Byte := [0x4C, 0x45, 0x44, 0x20, 0x4F, 0x4E]
/-- `LED OFF`. -/
def nameLedOff : List Byte := [0x4C, 0x45, 0x44, 0x20, 0x4F, 0x46, 0x46]
/-- `hello_world`. -/
def nameHello : List Byte := [0x68, 0x65, 0x6C, 0x6C, 0x6F, 0x5F, 0x77, 0x6F, 0x72, 0x6C, 0x64]
/-- `demo_command_with_arguments`. -/
def nameDemo : List Byte :=
  [0x64, 0x65, 0x6D, 0x6F, 0x5F, 0x63, 0x6F, 0x6D, 0x6D, 0x61, 0x6E, 0x64, 0x5F] ++
  [0x77, 0x69, 0x74, 0x68, 0x5F, 0x61, 0x72, 0x67, 0x75, 0x6D, 0x65, 0x6E, 0x74, 0x73]

/-- A line with its whitespace ignored at both ends (R193). -/
def trimBoth (ws : List Byte) (line : List Byte) : List Byte := trimEnd ws (line.dropWhile fun b => ws.contains b)

/-- The substring before the first `(`, or the whole (R193). -/
def nameOf (line : List Byte) : List Byte := line.takeWhile fun b => b != 0x28

/-- What follows the name: nothing, or the text between the first `(` and a final `)`; `none` where a `(` is not so closed
(R197). -/
def payloadOf (line : List Byte) : Option (Option (List Byte)) :=
  match line.dropWhile (fun b => b != 0x28) with
  | [] => some none
  | _ :: rest =>
    match rest.reverse with
    | 0x29#8 :: inner => some (some inner.reverse)
    | _ => none

/-! ## The argument payload -/

/-- A value of a field, as far as the contract tells them apart; a number keeps its text, and `other` is a string. -/
inductive Value where
  | null
  | bool (b : Bool)
  | number (text : List Byte)
  | other
deriving DecidableEq, Repr

/-- A field of the payload: its name and its value. -/
abbrev Field := List Byte × Value

/-- Whether the host's dialect admits a payload that is not in plain form: with whitespace or comments, escapes, single
quotes, bare names, a comma at the end, or a number that JSON does not have (R193, R197, U10). -/
opaque dialectAdmits : List Byte → Bool

/-- Whether the dialect reads a number text that denotes a natural number, but is not written in digits alone (`1.0`, `1e2`,
`-0`), as an unsigned number (U10). -/
opaque natTextAllowed : List Byte → Bool

/-- Which of the two floats next to a number text's value the dialect rounds to: the greater one in magnitude, or not (R197, U10). -/
opaque roundsAway : (w : Nat) → List Byte → Bool

/-- Whether the dialect reads a number text beyond the greatest finite float (U10). -/
opaque hugeAllowed : (w : Nat) → List Byte → Bool

/-- The sign and the fraction bits, not all 0, that the dialect gives a `NaN` of `w` bits (U10). -/
opaque nanBits : (w : Nat) → Bool × Nat

/-! ### Numbers -/

/-- The list cut at every `sep`. -/
def cutAt (sep : Byte) : List Byte → List (List Byte)
  | [] => [[]]
  | b :: bs =>
    match cutAt sep bs with
    | [] => [[b]]
    | part :: parts => if b = sep then [] :: part :: parts else (b :: part) :: parts

/-- A decimal digit. -/
def isDigit (b : Byte) : Bool := decide (0x30#8 ≤ b) && decide (b ≤ 0x39#8)

/-- A letter, a digit or an underscore. -/
def isNameByte (b : Byte) : Bool :=
  isDigit b || (decide (0x41#8 ≤ b) && decide (b ≤ 0x5A#8)) || (decide (0x61#8 ≤ b) && decide (b ≤ 0x7A#8)) || b == 0x5F#8

/-- Decimal digits, at least one. -/
def isDigits (t : List Byte) : Bool := !t.isEmpty && t.all isDigit

/-- Decimal digits with no leading zero but for `0` itself. -/
def isWhole (t : List Byte) : Bool := isDigits t && (t.length == 1 || t.head? != some 0x30#8)

/-- The value of a hexadecimal digit. -/
def hexDigit (b : Byte) : Option Nat :=
  if isDigit b then some (b.toNat - 0x30)
  else if 0x41#8 ≤ b ∧ b ≤ 0x46#8 then some (b.toNat - 0x37)
  else if 0x61#8 ≤ b ∧ b ≤ 0x66#8 then some (b.toNat - 0x57)
  else none

/-- The number that hexadecimal digits, at least one, denote. -/
def hexValue (t : List Byte) : Option Nat :=
  if t.isEmpty then none
  else t.foldl (fun acc b => acc.bind fun n => (hexDigit b).map (n * 16 + ·)) (some 0)

/-- A decimal number exactly: `digits * 10 ^ scale`, negated or not. -/
structure Decimal where
  neg    : Bool
  digits : Nat
  scale  : Int
deriving DecidableEq, Repr

/-- The number that decimal digits denote. -/
def digitsValue (t : List Byte) : Nat := t.foldl (fun acc b => acc * 10 + (b.toNat - 0x30)) 0

/-- A text without its leading `c`, and whether it had one. -/
def strip (c : Byte) : List Byte → Bool × List Byte
  | [] => (false, [])
  | b :: bs => if b = c then (true, bs) else (false, b :: bs)

/-- A text without its sign, and whether that was a minus. -/
def stripSign (t : List Byte) : Bool × List Byte :=
  let minus := strip 0x2D t
  if minus.1 then minus else (false, (strip 0x2B t).2)

/-- No `e` and no `E`: what stands before an exponent. -/
def notExp (b : Byte) : Bool := b != 0x65#8 && b != 0x45#8

/-- The exponent part of a number: nothing, or `e` or `E`, a sign or none, and digits. -/
def readExponent : List Byte → Option Int
  | [] => some 0
  | _ :: t =>
    let s := stripSign t
    if isDigits s.2 then some (if s.1 then -(digitsValue s.2 : Int) else digitsValue s.2) else none

/-- A number of JSON5: a sign or none, and `0x` with hexadecimal digits, or a whole part, a fraction and an exponent, where
the whole part may be missing before a fraction and the digits of a fraction after a whole part. -/
def readNumber (t : List Byte) : Option Decimal :=
  let s := stripSign t
  match s.2.take 2 with
  | [0x30#8, 0x78#8] => (hexValue (s.2.drop 2)).map (⟨s.1, ·, 0⟩)
  | [0x30#8, 0x58#8] => (hexValue (s.2.drop 2)).map (⟨s.1, ·, 0⟩)
  | _ =>
    match readExponent (s.2.dropWhile notExp) with
    | none => none
    | some e =>
      match cutAt 0x2E (s.2.takeWhile notExp) with
      | [w] => if isWhole w then some ⟨s.1, digitsValue w, e⟩ else none
      | [w, f] =>
        if (w.isEmpty || isWhole w) && f.all isDigit && isDigits (w ++ f) then some ⟨s.1, digitsValue (w ++ f), e - f.length⟩
        else none
      | _ => none

/-- Of these, a number of JSON: no plus sign, no hexadecimal digits, and no part of it missing. -/
def isJsonNumber (t : List Byte) : Bool :=
  (readNumber t).isSome &&
  match cutAt 0x2E ((strip 0x2D t).2.takeWhile notExp) with
  | [w] => isWhole w
  | [w, f] => isWhole w && isDigits f
  | _ => false

/-- `Infinity`. -/
def textInfinity : List Byte := [0x49, 0x6E, 0x66, 0x69, 0x6E, 0x69, 0x74, 0x79]
/-- `NaN`. -/
def textNaN : List Byte := [0x4E, 0x61, 0x4E]

/-! ### Tokens -/

/-- A token of a payload: a quoted text, a word, or a sign; `bracket` is `[` or `]`. -/
inductive Token where
  | openBrace | closeBrace | bracket | colon | comma
  | text (t : List Byte)
  | word (t : List Byte)
deriving DecidableEq, Repr

/-- The signs. -/
def signToken (b : Byte) : Option Token :=
  if b = 0x7B then some .openBrace
  else if b = 0x7D then some .closeBrace
  else if b = 0x5B ∨ b = 0x5D then some .bracket
  else if b = 0x3A then some .colon
  else if b = 0x2C then some .comma
  else none

/-- ASCII whitespace. That no dialect admits further white space between tokens (U+00A0, U+FEFF, U+2028, U+2029, which JSON5
has) is the model's choice, U10 leaving it open (DESIGN CHOICE, log 33). -/
def spaces : List Byte := [0x09, 0x0A, 0x0B, 0x0C, 0x0D, 0x20]

/-- A byte of a word: none of the bytes that begin or separate other tokens. The backslash is none, so no dialect admits an
escape in a bare name, which JSON5 has; and a byte beyond ASCII is one (DESIGN CHOICE, U10, log 33). -/
def isWordByte (b : Byte) : Bool :=
  (signToken b).isNone && !spaces.contains b && b != 0x22#8 && b != 0x27#8 && b != 0x2F#8 && b != 0x5C#8

/-- The bytes up to the closing quote `q`, escapes as they stand, and the rest. -/
def upToQuote (q : Byte) : List Byte → Option (List Byte × List Byte)
  | [] => none
  | b :: bs =>
    if b = q then some ([], bs)
    else if b = 0x5C then
      match bs with
      | [] => none
      | c :: cs => (upToQuote q cs).map fun r => (b :: c :: r.1, r.2)
    else (upToQuote q bs).map fun r => (b :: r.1, r.2)

/-- The byte of a one-letter escape. -/
def escaped (c : Byte) : Byte :=
  if c = 0x62 then 0x08
  else if c = 0x66 then 0x0C
  else if c = 0x6E then 0x0A
  else if c = 0x72 then 0x0D
  else if c = 0x74 then 0x09
  else if c = 0x76 then 0x0B
  else if c = 0x30 then 0x00
  else c

/-- A text with its escapes resolved, in at most `n` steps; `none` where an escape is none of JSON5. A code escape of no ASCII
character stays as it stands: no known field name has one. -/
def unescape : (n : Nat) → List Byte → Option (List Byte)
  | _, [] => some []
  | 0, _ :: _ => none
  | n + 1, b :: bs =>
    if b ≠ 0x5C then (unescape n bs).map (b :: ·)
    else
      match bs with
      | [] => none
      | c :: cs =>
        let digits := if c = 0x75 then 4 else if c = 0x78 then 2 else 0
        if digits = 0 then
          if isDigit c && c != 0x30#8 then none
          else if c = 0x0A ∨ c = 0x0D then unescape n cs
          else (unescape n cs).map (escaped c :: ·)
        else if cs.length < digits then none
        else
          match hexValue (cs.take digits) with
          | none => none
          | some v =>
            if v < 0x80 then (unescape n (cs.drop digits)).map (BitVec.ofNat 8 v :: ·)
            else (unescape n cs).map (b :: c :: ·)

/-- What follows the `*/` that ends a comment. -/
def afterComment : List Byte → Option (List Byte)
  | [] => none
  | b :: bs => if b = 0x2A ∧ bs.head? = some 0x2F then some bs.tail else afterComment bs

/-- What follows a comment, given what follows its first `/`. Of JSON5's line ends the two of ASCII alone end a line comment
(DESIGN CHOICE, U10, log 33). -/
def skipComment (t : List Byte) : Option (List Byte) :=
  if t.head? = some 0x2F then some (t.dropWhile fun b => b != 0x0A#8 && b != 0x0D#8)
  else if t.head? = some 0x2A then afterComment t.tail
  else none

/-- The tokens of a payload of at most `n` bytes, by JSON5 but for the narrowings and widenings of log 33 (DESIGN CHOICE, U10). -/
def tokens : (n : Nat) → List Byte → Option (List Token)
  | _, [] => some []
  | 0, _ :: _ => none
  | n + 1, b :: bs =>
    if spaces.contains b then tokens n bs
    else
      match signToken b with
      | some t => (tokens n bs).map (t :: ·)
      | none =>
        if b = 0x22 ∨ b = 0x27 then
          match upToQuote b bs with
          | none => none
          | some r =>
            match unescape r.1.length r.1 with
            | none => none
            | some t => (tokens n r.2).map (.text t :: ·)
        else if b = 0x2F then
          match skipComment bs with
          | none => none
          | some rest => tokens n rest
        else if isWordByte b then
          (tokens n (bs.dropWhile isWordByte)).map (.word (b :: bs.takeWhile isWordByte) :: ·)
        else none

/-! ### Fields -/

/-- `null`. -/
def textNull : List Byte := [0x6E, 0x75, 0x6C, 0x6C]
/-- `true`. -/
def textTrue : List Byte := [0x74, 0x72, 0x75, 0x65]
/-- `false`. -/
def textFalse : List Byte := [0x66, 0x61, 0x6C, 0x73, 0x65]

/-- The value that a token is. -/
def valueOf : Token → Option Value
  | .text _ => some .other
  | .word w =>
    if w = textNull then some .null
    else if w = textTrue then some (.bool true)
    else if w = textFalse then some (.bool false)
    else if (readNumber w).isSome || (stripSign w).2 == textInfinity || (stripSign w).2 == textNaN then some (.number w)
    else none
  | _ => none

/-- The field of a name token and a value token. -/
def fieldAt : Token → Token → Option Field
  | .text n, v => (valueOf v).map (n, ·)
  | .word n, v => (valueOf v).map (n, ·)
  | _, _ => none

/-- The fields after the opening brace. A nested object or array, which no field of the demo command takes (R196), fails. -/
def members : List Token → Option (List Field)
  | [.closeBrace] => some []
  | [n, .colon, v, .closeBrace] => (fieldAt n v).map ([·])
  | n :: .colon :: v :: .comma :: rest =>
    match fieldAt n v, members rest with
    | some f, some fs => some (f :: fs)
    | _, _ => none
  | _ => none

/-- The one reading of a payload, by the grammar of JSON5 but for the narrowings and widenings of log 33. That the host's dialect
admits no more is the model's choice (DESIGN CHOICE, U10, log 33). -/
def looseFields (payload : List Byte) : Option (List Field) :=
  match tokens payload.length payload with
  | some (.openBrace :: ts) => members ts
  | _ => none

/-- The names of those fields. -/
def fieldNames (payload : List Byte) : List (List Byte) := ((looseFields payload).getD []).map Prod.fst

/-- A plain value as text. -/
def valueText : Value → List Byte
  | .null => textNull
  | .bool true => textTrue
  | .bool false => textFalse
  | .number t => t
  | .other => []

/-- `"name":value`. -/
def fieldText (f : Field) : List Byte := 0x22 :: f.1 ++ [0x22, 0x3A] ++ valueText f.2

/-- A field in plain form: a name of letters, digits and underscores, and `null`, a boolean or a JSON number. -/
def isPlainField (f : Field) : Bool :=
  f.1.all isNameByte &&
  match f.2 with
  | .number t => isJsonNumber t
  | .other => false
  | _ => true

/-- The payload is the plain form of its fields: JSON, with nothing in it that R193, R197 and U10 leave to the dialect. The
payload of source example S5 is one. -/
def isPlain (payload : List Byte) (fields : List Field) : Bool :=
  fields.all isPlainField && payload == 0x7B :: List.intercalate [0x2C] (fields.map fieldText) ++ [0x7D]

/-- The fields of a payload: read in one way, if it is plain or the dialect admits it (R192, R197, U10; log 33). -/
def readFields (payload : List Byte) : Option (List Field) :=
  (looseFields payload).filter fun fields => isPlain payload fields || dialectAdmits payload

/-! ### The arguments -/

/-- The value of a field, by its exact name. -/
def fieldOf (name : List Byte) (fields : List Field) : Option Value := (fields.find? fun f => f.1 == name).map Prod.snd

/-- The natural number that a decimal denotes, if it denotes one. -/
def Decimal.nat (d : Decimal) : Option Nat :=
  let n := d.digits * 10 ^ d.scale.toNat
  let p := 10 ^ (-d.scale).toNat
  if n % p = 0 ∧ (d.neg = false ∨ n = 0) then some (n / p) else none

/-- An unsigned number of `w` bits: the text must denote a natural number, in a form the dialect takes for one, that fits. -/
def decodeUnsigned (w : Nat) : Value → Option (BitVec w)
  | .number t =>
    let n :=
      match readNumber t with
      | none => none
      | some d => if isDigits t || natTextAllowed t then d.nat else none
    match n with
    | none => none
    | some n => if n < 2 ^ w then some (BitVec.ofNat w n) else none
  | _ => none

/-- A boolean. -/
def decodeBool : Value → Option Bool
  | .bool b => some b
  | _ => none

/-- A binary float format: bits of precision, the hidden one included, and exponent bits. -/
structure FloatFormat where
  prec    : Nat
  expBits : Nat
deriving DecidableEq, Repr

/-- `f32`. -/
def f32 : FloatFormat := ⟨24, 8⟩
/-- `f64`. -/
def f64 : FloatFormat := ⟨53, 11⟩

/-- All bits of a float. -/
def FloatFormat.width (f : FloatFormat) : Nat := f.prec + f.expBits

/-- The exponent of the least positive float. -/
def FloatFormat.least (f : FloatFormat) : Int := 3 - 2 ^ (f.expBits - 1) - f.prec

/-- The bits of infinity, and so one more than those of the greatest finite float. -/
def FloatFormat.inf (f : FloatFormat) : Nat := (2 ^ f.expBits - 1) * 2 ^ (f.prec - 1)

/-- `n / d` in units of `2 ^ k`: the whole units, and what is left as a fraction of one, `rest / unit`. -/
structure Units where
  whole : Nat
  rest  : Nat
  unit  : Nat
deriving DecidableEq, Repr

/-- The units of `2 ^ k` in `n / d`. -/
def unitsOf (n d : Nat) (k : Int) : Units :=
  let a := n * 2 ^ (-k).toNat
  let b := d * 2 ^ k.toNat
  ⟨a / b, a % b, b⟩

/-- `part / unit` of `2 ^ k` is at most one machine epsilon, `2 ^ (1 - prec)`. -/
def FloatFormat.withinEps (f : FloatFormat) (part unit : Nat) (k : Int) : Bool :=
  let j := k + f.prec - 1
  decide (part * 2 ^ j.toNat ≤ unit * 2 ^ (-j).toNat)

/-- Where a positive number stands among the finite floats: the bits of the greatest float not above it, whether it is that
float, and whether this float and the next are within one machine epsilon of it. -/
structure Place where
  bits      : Nat
  exact     : Bool
  belowNear : Bool
  aboveNear : Bool
deriving DecidableEq, Repr

/-- The place of `n / d`. The bits of a positive float are its significand with the exponent above its hidden bit, so they
stand in the order of the numbers. -/
def FloatFormat.place (f : FloatFormat) (n d : Nat) : Place :=
  let e : Int := (Nat.log2 n : Int) - Nat.log2 d - f.prec
  let k := max f.least (if (unitsOf n d e).whole < 2 ^ f.prec then e else e + 1)
  let u := unitsOf n d k
  let bits := (k - f.least).toNat * 2 ^ (f.prec - 1) + u.whole
  if n = 0 then ⟨0, true, true, true⟩
  else if bits < f.inf then ⟨bits, u.rest == 0, f.withinEps u.rest u.unit k, f.withinEps (u.unit - u.rest) u.unit k⟩
  else ⟨f.inf - 1, false, false, false⟩

/-- The bits of a float with its sign. -/
def FloatFormat.signed (f : FloatFormat) (neg : Bool) (bits : Nat) : BitVec f.width :=
  BitVec.ofNat f.width ((if neg then 2 ^ (f.width - 1) else 0) + bits)

/-- A number text that is no number: an infinity, or a NaN with what the dialect puts into it. -/
def decodeSpecial (f : FloatFormat) (t : List Byte) : Option (BitVec f.width) :=
  let s := stripSign t
  if s.2 = textInfinity then some (f.signed s.1 f.inf)
  else if s.2 = textNaN then
    some (f.signed (nanBits f.width).1 (f.inf + 1 + (nanBits f.width).2 % (2 ^ (f.prec - 1) - 1)))
  else none

/-- A float: the number itself where it is a float, else one of the two floats next to it; the one within one machine epsilon
where only one is, as source example S5 asks, else as the dialect rounds. Beyond the finite floats only where the dialect
admits that (R196, R197, U10; log 33). -/
def decodeFloat (f : FloatFormat) : Value → Option (BitVec f.width)
  | .number t =>
    match readNumber t with
    | none => decodeSpecial f t
    | some d =>
      let p := f.place (d.digits * 10 ^ d.scale.toNat) (10 ^ (-d.scale).toNat)
      let up := if p.belowNear = p.aboveNear then roundsAway f.width t else p.aboveNear
      if p.exact then some (f.signed d.neg p.bits)
      else if p.bits + 1 = f.inf && !hugeAllowed f.width t then none
      else some (f.signed d.neg (if up then p.bits + 1 else p.bits))
  | _ => none

/-- An unsigned 32-bit number or an explicit null, which decodes to "absent" (R192, R196). -/
def decodeNullable : Value → Option (Option (BitVec 32))
  | .null => some none
  | v => (decodeUnsigned 32 v).map some

/-- `arg_u32`. -/
def argU32 : List Byte := [0x61, 0x72, 0x67, 0x5F, 0x75, 0x33, 0x32]
/-- `arg_u64`. -/
def argU64 : List Byte := [0x61, 0x72, 0x67, 0x5F, 0x75, 0x36, 0x34]
/-- `arg_bool`. -/
def argBool : List Byte := [0x61, 0x72, 0x67, 0x5F, 0x62, 0x6F, 0x6F, 0x6C]
/-- `arg_f32`. -/
def argF32 : List Byte := [0x61, 0x72, 0x67, 0x5F, 0x66, 0x33, 0x32]
/-- `arg_f64`. -/
def argF64 : List Byte := [0x61, 0x72, 0x67, 0x5F, 0x66, 0x36, 0x34]
/-- `arg_nullable_u32`. -/
def argNullableU32 : List Byte :=
  [0x61, 0x72, 0x67, 0x5F, 0x6E, 0x75, 0x6C, 0x6C, 0x61, 0x62, 0x6C, 0x65, 0x5F, 0x75, 0x33, 0x32]

/-- The exact field set (R196). -/
def demoNames : List (List Byte) := [argU32, argU64, argBool, argF32, argF64, argNullableU32]

/-- The arguments of the demo command from its fields (R196): the six names, each once and no other, each decoding. -/
def decodeFields (fields : List Field) : Option DemoArgs :=
  if fields.length = 6 then
    match (fieldOf argU32 fields).bind (decodeUnsigned 32), (fieldOf argU64 fields).bind (decodeUnsigned 64),
      (fieldOf argBool fields).bind decodeBool, (fieldOf argF32 fields).bind (decodeFloat f32),
      (fieldOf argF64 fields).bind (decodeFloat f64), (fieldOf argNullableU32 fields).bind decodeNullable with
    | some u32, some u64, some b, some f32, some f64, some n => some ⟨u32, u64, b, f32, f64, n⟩
    | _, _, _, _, _, _ => none
  else none

/-- The payload decoder of the demo command (R192, R195, R196). -/
def decodeDemo (payload : List Byte) : Option DemoArgs := (readFields payload).bind decodeFields

/-! ## The parser -/

/-- Whether the host accepts a payload after a name that takes no arguments: open, name by name and payload by payload
(R197, U9; log 24). -/
opaque payloadAllowed : (name payload : List Byte) → Bool

/-- A known name that takes no arguments, with or without a payload (R194, U9). -/
def plainCommand (c : Command) (name : List Byte) (payload : Option (List Byte)) : Option Command :=
  match payload with
  | none => some c
  | some p => if payloadAllowed name p then some c else none

/-- `parse(line)`: the command, or `ParseError::Unknown` as `none` (R192 to R196). The known names are the five of R194, a set
that the spec calls illustrative and extensible, a parameter of the host (U22): that there is no sixth is the model's choice
(DESIGN CHOICE, log 32). -/
def parse (ws line : List Byte) : Option Command :=
  let t := trimBoth ws line
  match payloadOf t with
  | none => none
  | some payload =>
    if nameOf t = namePing then plainCommand .ping namePing payload
    else if nameOf t = nameLedOn then plainCommand .ledOn nameLedOn payload
    else if nameOf t = nameLedOff then plainCommand .ledOff nameLedOff payload
    else if nameOf t = nameHello then plainCommand .helloWorld nameHello payload
    else if nameOf t = nameDemo then
      match payload with
      | none => none
      | some p => (decodeDemo p).map Command.demo
    else none

/-! ## The responses -/

/-- `\r\n` (R205). -/
def terminator : List Byte := [0x0D, 0x0A]

/-- Bytes from which the demo acknowledgment is made; nothing is known of them (R203, U12). -/
opaque demoAckBytes : List Byte

/-- The demo acknowledgment: a fixed ASCII line, the same whatever the arguments, whose text is open (R203, R205, U12). -/
def demoAck : List Byte := demoAckBytes.filter fun b => decide (b.toNat < 0x80) && b != 0x0D#8 && b != 0x0A#8

/-- The response line of a command (R200 to R203, R205). The demo command also logs or echoes its decoded argument values, and
the spec does not say where to (R203): the model lets none of that out on the serial link, which carries the acknowledgment
line alone (DESIGN CHOICE, log 24). That `hello_world` gets `HELLO WORLD` is the spec's own inference
(R202, 90_conflicts.md C8). -/
def response : Command → List Byte
  | .ping => [0x50, 0x4F, 0x4E, 0x47] ++ terminator
  | .ledOn => [0x4C, 0x45, 0x44, 0x20, 0x4F, 0x4E] ++ terminator
  | .ledOff => [0x4C, 0x45, 0x44, 0x20, 0x4F, 0x46, 0x46] ++ terminator
  | .helloWorld => [0x48, 0x45, 0x4C, 0x4C, 0x4F, 0x20, 0x57, 0x4F, 0x52, 0x4C, 0x44] ++ terminator
  | .demo _ => demoAck ++ terminator

/-- `ERR: unknown command` and the terminator (R195, R205). -/
def errLine : List Byte :=
  [0x45, 0x52, 0x52, 0x3A, 0x20, 0x75, 0x6E, 0x6B, 0x6E, 0x6F, 0x77, 0x6E, 0x20] ++
  [0x63, 0x6F, 0x6D, 0x6D, 0x61, 0x6E, 0x64] ++ terminator

/-- What the host sends for one line: the dispatcher's response, or the parser's error line without dispatch (R195, R199, R204). -/
def respond (ws line : List Byte) : List Byte :=
  match parse ws line with
  | none => errLine
  | some c => response c

/-- The response lines for a history, in the order of its lines (R191). -/
def responses (ws : List Byte) (h : List Event) : List (List Byte) :=
  h.filterMap fun e =>
    match e with
    | .lineOut s => some (respond ws s)
    | _ => none

end Sys2Proof.Superloop
end

