-- ==== Sys2Proof/Machine/Trace.lean ====
section
/-! DEFINITION. The trace syntax of 30_encoding.md R110 and R111 as data, and what it presents to the machine: the list of
inputs of each line, pseudo-instruction and directive. -/

namespace Sys2Proof.Machine

/-- A line of a trace (R110, R111). -/
inductive Line where
  /-- `AGENT: MNEMONIC operand`: the whole operation, all of its steps in sequence. -/
  | op (i : Instr)
  /-- `C: DRAIN.begin`, `C: NAND_RESET.begin` and their like: the request; the steps that follow are placed by the lines that follow. -/
  | opBegin (i : Instr)
  /-- A place, between `.begin` and `.end`, at which C takes one step of the operation. -/
  | opStep
  /-- `.end`: what is left of the operation, in sequence. -/
  | opEnd
  /-- `V: MISO b0 b1 ...` -/
  | miso (bytes : List Byte)
  /-- `V: BUSERR`, with the error code and the count of bytes it leaves open. -/
  | busErr (e k : Nat)
deriving DecidableEq, Repr

/-- The operation has steps after its request, between which other agents may step (00_scope.md R11). -/
def Instr.inSteps : Instr → Bool
  | .drain => true
  | .nandReset => true
  | .nandReadId => true
  | .nandReadPage _ => true
  | .push _ => false
  | .pop => false
  | .feed _ => false
  | .nop => false
  | .syncH _ => false
  | .syncT _ => false

/-- The request of an operation, from its owner. -/
def requestOf (c : Config) (i : Instr) : Input := .request i.format.owner (encode c i)

/-- What a line presents. -/
def Line.inputs (c : Config) : Line → List Input
  | .op i => if Instr.inSteps i then [requestOf c i, .consumerRest] else [requestOf c i]
  | .opBegin i => [requestOf c i]
  | .opStep => [.consumerStep]
  | .opEnd => [.consumerRest]
  | .miso bytes => [.answer (.miso bytes)]
  | .busErr e k => [.answer (.busErr e k)]

/-- What a trace presents: "The order of lines is the order of steps" (R110). -/
def traceInputs (c : Config) (lines : List Line) : List Input := lines.flatMap (Line.inputs c)

/-- `P: PUSHS "text"`. -/
def pushs (text : List Byte) : List Line := text.map fun b => .op (.push b)

/-- `C: FEEDS "text"`. -/
def feeds (text : List Byte) : List Line := text.map fun b => .op (.feed b)

/-- `C: POPN n`. -/
def popN (n : Nat) : List Line := List.replicate n (.op .pop)

/-- `P: PUSHR n, b0, step`: the bytes `(b0 + j*step) mod 256`. -/
def pushR (n b0 step : Nat) : List Line := (List.range n).map fun j => .op (.push (BitVec.ofNat 8 (b0 + j * step)))

/-- `S: SYNC` at a state: both views brought up by their full distance, each omitted when its distance is 0. -/
def syncLines (s : State) : List Line :=
  let h := ringDist s.cfg.rbN s.rb.headC s.rb.head
  let t := ringDist s.cfg.rbN s.rb.tailP s.rb.tail
  (if h = 0 then [] else [.op (.syncH h)]) ++ (if t = 0 then [] else [.op (.syncT t)])

end Sys2Proof.Machine
end

