-- ==== Sys2Proof/Machine/Gray.lean ====
section
/-! DEFINITION. The gray-coded crossing (20_memory.md R82, 30_encoding.md R104 to R106). No operation computes with the
gray values; the images are functions of the binary indices (10_state.md R24). -/

namespace Sys2Proof.Machine

/-- `gray(i) = i ^ (i >> 1)` (R104). -/
def gray (i : Nat) : Nat := i ^^^ (i >>> 1)

/-- `g ^ (g >> 1) ^ ... ^ (g >> (n - 1))`, the first `n` terms. -/
def xorShifts (g : Nat) : Nat → Nat
  | 0 => 0
  | n + 1 => xorShifts g n ^^^ (g >>> n)

/-- `ungray`, the inverse on `w`-bit values: `g ^ (g >> 1) ^ ... ^ (g >> (w - 1))` (R105). -/
def ungray (w g : Nat) : Nat := xorShifts g w

/-- `head_g`: what the producer's domain presents. -/
def State.headG (s : State) : Nat := gray s.rb.head

/-- `tail_g`: what the consumer's domain presents. -/
def State.tailG (s : State) : Nat := gray s.rb.tail

/-- `head_gs`: the synchronised copy in the consumer's domain. -/
def State.headGs (s : State) : Nat := gray s.rb.headC

/-- `tail_gs`: the synchronised copy in the producer's domain. -/
def State.tailGs (s : State) : Nat := gray s.rb.tailP

end Sys2Proof.Machine
end

