-- ==== Sys2Proof/Safety.lean ====
section
/-! DEFINITION. What a good state is: the invariants the spec states for each unit (10_state.md R28, R33, R48), with the
memories in canonical form inside their spaces (20_memory.md R61 to R63); what the history says of the queue (R130); and
when a run is over (70_reset_and_hazards.md R268). -/

namespace Sys2Proof.Machine

/-! ## Where the consumer stands, and what that says of NS -/

/-- `ns_state` at a place of the consumer's operation (R162, R163). -/
def Seq.nsState : Seq → NsState
  | .nand _ .t2 => .transacting
  | .nand _ (.t3 _) => .transacting
  | .nand _ .settle => .settling
  | _ => .idle

/-- `xlen` at a place: the exchange length while chip-select is low, else 0. -/
def Seq.xlen (c : Config) : Seq → Nat
  | .nand op .t2 => op.xferLen c
  | .nand op (.t3 _) => op.xferLen c
  | _ => 0

/-- How many bytes of `xbuf` hold a value for the steps still to come. -/
def Seq.xbufHeld (c : Config) : Seq → Nat
  | .nand op .t1 => op.xferLen c
  | .nand op .t2 => op.xferLen c
  | .nand op (.t3 (.ok _)) => op.xferLen c
  | .nand op (.check (.ok _)) => op.xferLen c
  | .nand op .step4 => op.xferLen c
  | _ => 0

/-- The place is one that some operation passes through: only NAND_RESET settles, and Read-Page runs under the configured layout. -/
def Seq.legal (c : Config) : Seq → Bool
  | .nand .readId .settle => false
  | .nand (.readPage _) .settle => false
  | .nand (.readPage l) _ => decide (c.page = some l)
  | _ => true

/-- The POP result that DRAIN holds in its local variable `r`, at the places where it still reads it (R148). -/
def Seq.drained : Seq → Option (Option Byte)
  | .drain (.test r) => some r
  | .drain (.feed b) => some (some b)
  | _ => none

/-- C is inside a NAND operation. -/
def Seq.inNand : Seq → Bool
  | .nand _ _ => true
  | _ => false

/-! ## The invariants -/

/-- RB (10_state.md R22 to R28): the indices in range and in ring order, every unread slot written, and exact views when
`SYNC_LAG` is zero (20_memory.md R83). -/
abbrev RingInv (s : State) : Prop :=
  s.rb.head < s.cfg.rbN ∧ s.rb.tail < s.cfg.rbN ∧ s.rb.headC < s.cfg.rbN ∧ s.rb.tailP < s.cfg.rbN ∧
  ringDist s.cfg.rbN s.rb.tailP s.rb.tail + ringDist s.cfg.rbN s.rb.tail s.rb.headC
    + ringDist s.cfg.rbN s.rb.headC s.rb.head ≤ s.cfg.rbN - 1 ∧
  (∀ i < s.count, (s.rb.mem.read ((s.rb.tail + i) % s.cfg.rbN)).isSome = true) ∧
  (s.cfg.syncLag = .zero → s.rb.headC = s.rb.head ∧ s.rb.tailP = s.rb.tail)

/-- LF (10_state.md R33): the cursor below the capacity, and every byte below it written and no delimiter. -/
abbrev LineInv (s : State) : Prop :=
  s.lf.idx < s.cfg.lineCap ∧
  ∀ i < s.lf.idx, (s.lf.line.read i).isSome = true ∧ s.lf.line.read i ≠ some s.cfg.delim

/-- NS and the consumer (10_state.md R48, R49): `cs_n` low exactly while transacting, the count only while settling, NS
resting outside a NAND operation, `c_busy` exactly inside an operation, and DRAIN's local variable the result of its POP. -/
abbrev NandInv (s : State) : Prop :=
  (s.ns.csN = false ↔ s.ns.nsState = .transacting) ∧
  (0 < s.ns.settleCnt → s.ns.nsState = .settling) ∧
  s.ns.nsState = s.cons.seq.nsState ∧
  s.ns.xlen = s.cons.seq.xlen s.cfg ∧
  (∀ i < s.cons.seq.xbufHeld s.cfg, (s.ns.xbuf.read i).isSome = true) ∧
  s.cons.seq.legal s.cfg = true ∧
  (s.cons.cBusy = true ↔ s.cons.seq ≠ .idle) ∧
  (s.cons.seq.drained = none ∨ s.cons.seq.drained = some s.popResult)

/-- The memories: canonical, and inside their spaces (20_memory.md R61 to R63). -/
abbrev SpaceInv (s : State) : Prop :=
  (s.rb.mem.wf ∧ ∀ c ∈ s.rb.mem, c.1 < s.cfg.rbN) ∧
  (s.lf.line.wf ∧ ∀ c ∈ s.lf.line, c.1 < s.cfg.lineCap) ∧
  (s.ns.xbuf.wf ∧ ∀ c ∈ s.ns.xbuf, c.1 < s.cfg.xbLen)

/-- The invariant of the machine. -/
abbrev State.Inv (s : State) : Prop :=
  s.cfg.wf = true ∧ RingInv s ∧ LineInv s ∧ NandInv s ∧ SpaceInv s

/-! ## What the history says -/

/-- The bytes of the accepted pushes, in step order (40_ringbuffer.md R130). -/
def pushedBytes (h : List Event) : List Byte :=
  h.filterMap fun e =>
    match e with
    | .pushed b => some b
    | _ => none

/-- The bytes of the successful pops, in step order. -/
def poppedBytes (h : List Event) : List Byte :=
  h.filterMap fun e =>
    match e with
    | .popped b => some b
    | _ => none

/-- The lines emitted, in step order (41_lineframer.md R151). -/
def emittedLines (h : List Event) : List (List Byte) :=
  h.filterMap fun e =>
    match e with
    | .lineOut s => some s
    | _ => none

/-- The FIFO property (R130): what was accepted is what was returned, followed by what is still unread. -/
abbrev State.FifoInv (s : State) : Prop :=
  (pushedBytes s.history).map some = (poppedBytes s.history).map some ++ s.content

/-! ## Runs -/

/-- Operations executed one after another, each whole (00_scope.md R11), with no other agent in between. -/
def execAll : List Instr → State → Out
  | [], s => .next s
  | i :: is, s => andThen (exec i s) (execAll is)

/-- `n` steps of the machine. -/
def stepN : Nat → State → Out
  | 0, s => .next s
  | n + 1, s => andThen (step s) (stepN n)

/-- The command port takes a request: C is in no operation and not halted (30_encoding.md R92). -/
abbrev State.ready (s : State) : Prop := s.cons.cBusy = false ∧ s.cons.halted = false

/-- Nothing but the block's own agents C and S will move: no input is pending and none comes again. -/
abbrev State.undisturbed (s : State) : Prop := s.env.inputs = [] ∧ s.env.cycle = []

/-- The bytes of `l` are visible to C, oldest first: they are what the slots from `tail` up to `head_c` hold. -/
abbrev State.visible (s : State) (l : List Byte) : Prop := s.content.take s.countC = l.map some

/-! ## Safe outcomes and the end of a run -/

/-- The step did not stop with a fault. -/
def faultFree : Out → Prop
  | .fault _ => False
  | _ => True

/-- A run is over (R268): no request is left, C is idle and not halted, NS is idle, and no SYNC step is enabled. -/
abbrev State.runOver (s : State) : Prop :=
  s.undisturbed ∧ s.cons.cBusy = false ∧ s.cons.halted = false ∧ s.ns.nsState = .idle ∧
  s.rb.headC = s.rb.head ∧ s.rb.tailP = s.rb.tail

end Sys2Proof.Machine
end

