-- ==== Sys2Proof/Certificates/Slice0/Obligations.lean ====
section
/-! DEFINITION. The statements for the provers, each the content of a numbered rule of the spec or of a consequence of some. -/

open Sys2Proof Sys2Proof.Machine

/-! ## Reset -/

/-- 10_state.md R55: every element after reset. An element whose value is unspecified holds none: no read gives one (R56). -/
def Obligations.ResetValuesAsTabled : Prop :=
  State.reset.rb.head = 0 ∧ State.reset.rb.tail = 0 ∧ State.reset.rb.headC = 0 ∧ State.reset.rb.tailP = 0 ∧
  State.reset.headG = 0 ∧ State.reset.tailG = 0 ∧ State.reset.headGs = 0 ∧ State.reset.tailGs = 0 ∧
  State.reset.rb.rValid = false ∧ State.reset.rb.wOvf = false ∧ State.reset.lf.idx = 0 ∧
  State.reset.ns.nsState = .idle ∧ State.reset.ns.csN = true ∧ State.reset.ns.xlen = 0 ∧ State.reset.ns.settleCnt = 0 ∧
  State.reset.ns.nandStatus = .none ∧ State.reset.cons.cBusy = false ∧ State.reset.cons.halted = false ∧
  State.reset.history = [] ∧
  (∀ sp a, memRead sp a State.reset = none) ∧
  readPort .rData State.reset = .error (.noResult .rData) ∧
  readPort .nandMfr State.reset = .error (.noResult .nandMfr) ∧
  readPort .nandDev State.reset = .error (.noResult .nandDev)

/-- The invariants of RB, LF and NS, and the FIFO property, hold after reset ("true after reset", R28, R48). -/
def Obligations.ResetSatisfiesInvariant : Prop := State.reset.Inv ∧ State.reset.FifoInv

/-- R250, R252: the reset input gives every element its reset value, from any state, in one step. That the parameters and
the world's plans stay is the model's choice (log 18), and so are the values 0 of `r_data`, `nand_mfr` and `nand_dev`, which
R55 leaves unspecified (log 1, log 2). -/
def Obligations.ResetInputRestoresResetState : Prop :=
  ∀ (s : State) (rest : List Input), s.env.inputs = .reset :: rest →
    step s = .next { State.reset with cfg := s.cfg, env := { s.env with inputs := rest } }

/-! ## Requests -/

/-- The decoder reads back what the encoder writes, for every operation, every operand its encoding can carry, and every
configuration (R91 to R93). -/
def Obligations.DecodeOfEncodeIsIdentity : Prop :=
  ∀ (c : Config) (i : Instr), i.wf c = true → decode c (encode c i) = .ok i

/-- The other direction: a request that decodes is the one the encoder writes, but for operand ports the operation does not
read; and its operands are well formed. A label has `1 + IDX_W` bits (R93). FEED's byte is the whole port; a page is what its
`PAGE_AW` wires carry, and the whole operand where that width is unset (log 31). -/
def Obligations.DecodedRequestIsTheEncodedOne : Prop :=
  ∀ (c : Config) (r : Request) (i : Instr), decode c r = .ok i →
    i.wf c = true ∧ r.format = i.format ∧ (encode c i).format = r.format ∧
    ((∀ label, r = .s label → label < 2 * c.rbN) → (encode c i).tableBits = r.tableBits) ∧
    (∀ (op : BitVec 3) (byte b : Byte) (page : Nat), r = .c op byte page → i = .feed b → encode c i = .c op byte 0) ∧
    (∀ (op : BitVec 3) (byte : Byte) (page p : Nat), r = .c op byte page → i = .nandReadPage p →
      (c.page = none → encode c i = .c op 0 page) ∧
      (∀ l, c.page = some l → encode c i = .c op 0 (page % 2 ^ l.pageAw)))

/-- The words of 95_test_vectors.md V-EN-1 to V-EN-7, V-EN-9 and V-EN-10 and the labels of programs P1 and P5; V-EN-8 is no
word. NAND_READ_PAGE is decoded once with the lengths of V-NS-7 and once with none, where the operand is kept whole (log 31). -/
def Obligations.SpecWordsDecode : Prop :=
  decode {} (.w 0b101000001#9) = .ok (.push 0x41#8) ∧
  decode {} (.w 0b001000001#9) = .error .noRequest ∧
  decode {} (.w 0x10A#9) = .ok (.push 0x0A#8) ∧
  decode {} (.w 0x1FF#9) = .ok (.push 0xFF#8) ∧
  [0x150#9, 0x149#9, 0x14E#9, 0x147#9, 0x10A#9].map (fun w => decode {} (.w w)) =
    [.ok (.push 0x50#8), .ok (.push 0x49#8), .ok (.push 0x4E#8), .ok (.push 0x47#8), .ok (.push 0x0A#8)] ∧
  decode { page := some ⟨3, 1, 4⟩ } (.c 0b110#3 0 0x123) = .ok (.nandReadPage 0x123) ∧
  decode {} (.c 0b000#3 0 0) = .ok .nop ∧ decode {} (.c 0b001#3 0 0) = .ok .pop ∧
  decode {} (.c 0b010#3 0x0A#8 0) = .ok (.feed 0x0A#8) ∧ decode {} (.c 0b011#3 0 0) = .ok .drain ∧
  decode {} (.c 0b100#3 0 0) = .ok .nandReset ∧ decode {} (.c 0b101#3 0 0) = .ok .nandReadId ∧
  decode {} (.c 0b110#3 0 0x123) = .ok (.nandReadPage 0x123) ∧ decode {} (.c 0b111#3 0 0) = .error .reservedCode ∧
  decode {} (.s 0b000000011) = .ok (.syncH 3) ∧ decode {} (.s 0b100000001) = .ok (.syncT 1) ∧
  decode {} (.s 0b000000101) = .ok (.syncH 5) ∧ decode {} (.s 0b100000101) = .ok (.syncT 5) ∧
  decode {} (.s 0b100000100) = .ok (.syncT 4)

/-- A step runs the decoded operation: when the request standing first decodes to `i` and comes from the operation's agent,
the step is `exec i` at the state with the request taken and the pulse `w_ovf` ended; on the command port, while an
operation of C is in progress, the step is that operation's next one instead (R92, R95). -/
def Obligations.StepRunsTheDecodedRequest : Prop :=
  ∀ (s : State) (r : Request) (rest : List Input) (i : Instr),
    s.env.inputs = .request i.format.owner r :: rest → decode s.cfg r = .ok i →
    let t : State := { s with rb := { s.rb with wOvf := false }, env := { s.env with inputs := rest } }
    (i.format ≠ .C → step s = exec i t) ∧
    (i.format = .C → s.cons.cBusy = false ∨ s.cons.halted = true → step s = exec i t) ∧
    (i.format = .C → s.cons.cBusy = true → s.cons.halted = false → step s = consumerTurn t)

/-- A bare table word placed by `withFetchWord` is decoded and executed by the very next step (log 12, log 13: a 9-bit word
with bit 8 set is read as the write port's, and a code on the command port finds C idle). -/
def Obligations.PlacedTableWordIsExecuted : Prop :=
  ∀ (s : State) (nbits w : Nat) (i : Instr), s.cfg.idxW = 8 → decodeTableWord nbits w = some i →
    step (s.withFetchWord nbits w) =
      exec i { s with
        rb := { s.rb with wOvf := false }
        cons := if i.format = .C then { cBusy := false, halted := false, seq := .idle } else s.cons }

/-- R91: a write word with `w_en` = 0 is no request: nothing of the block changes but the end of the pulse of R30. -/
def Obligations.IdleWriteWordChangesNothing : Prop :=
  ∀ (s : State) (who : Agent) (word : BitVec 9) (rest : List Input),
    word.toNat < 256 → s.env.inputs = .request who (.w word) :: rest →
    step s = .next { s with rb := { s.rb with wOvf := false }, env := { s.env with inputs := rest } }

/-- The requests a model refuses: the reserved code (R99, U8), a second producer or consumer (R133, U1), the wrong context
(R133, R152, U2), another master on the NAND bus (R176, U7). -/
def Obligations.ExcludedRequestsAreRefused : Prop :=
  ∀ (s : State) (rest : List Input),
    (∀ (b : Byte) (p : Nat), s.ready → s.env.inputs = .request .consumer (.c 0b111#3 b p) :: rest →
      step s = .refused .reservedCode) ∧
    (∀ word : BitVec 9, 256 ≤ word.toNat →
      (s.env.inputs = .request .secondProducer (.w word) :: rest → step s = .refused .secondProducer) ∧
      (∀ who, who = .consumer ∨ who = .secondConsumer ∨ who = .synchroniser →
        s.env.inputs = .request who (.w word) :: rest → step s = .refused .wrongContext)) ∧
    (∀ (op : BitVec 3) (b : Byte) (p : Nat),
      (s.env.inputs = .request .secondConsumer (.c op b p) :: rest → step s = .refused .secondConsumer) ∧
      (∀ who, who = .producer ∨ who = .secondProducer ∨ who = .synchroniser →
        s.env.inputs = .request who (.c op b p) :: rest → step s = .refused .wrongContext)) ∧
    (∀ (label : Nat) (who : Agent), who ≠ .synchroniser → s.env.inputs = .request who (.s label) :: rest →
      step s = .refused .wrongContext) ∧
    (s.env.inputs = .foreignMaster :: rest → step s = .refused .foreignMaster)

/-- R92, R95: while C is in an operation or halted, no operation of the command port is taken. -/
def Obligations.BusyOrHaltedPortIgnoresRequests : Prop :=
  ∀ (s : State) (i : Instr), i.format = .C → s.cons.cBusy = true ∨ s.cons.halted = true → exec i s = .next s

/-! ## RB -/

/-- 40_ringbuffer.md R122, with the encoding it names: both arms of PUSH, in every state. The publication of `head` to the
view `head_c` in the same step is `SYNC_LAG` = zero's (R25). -/
def Obligations.PushFollowsItsRule : Prop :=
  ∀ (b : Byte) (s : State),
    decode s.cfg (.w (1#1 ++ b)) = .ok (.push b) ∧ (Instr.push b).format.owner = .producer ∧
    ((s.rb.head + 1) % s.cfg.rbN = s.rb.tailP →
      exec (.push b) s = .next { s with rb := { s.rb with wOvf := true }, history := s.history ++ [.overflow b] }) ∧
    ((s.rb.head + 1) % s.cfg.rbN ≠ s.rb.tailP →
      exec (.push b) s = .next
        { s with
          rb := { s.rb with
            mem := s.rb.mem.write s.rb.head b
            head := (s.rb.head + 1) % s.cfg.rbN
            headC := if s.cfg.syncLag = .zero then (s.rb.head + 1) % s.cfg.rbN else s.rb.headC
            wOvf := false }
          history := s.history ++ [.pushed b] })

/-- The frame of PUSH (R124 (a), (f)): only slot `head` of `mem`, and no slot at all when the byte is dropped; of the
indices only `head`, and `head_c` only with exact views; no other element but `w_ovf` and the history. -/
def Obligations.PushChangesOnlyItsSlotAndHead : Prop :=
  ∀ (b : Byte) (s t : State), exec (.push b) s = .next t →
    t.cfg = s.cfg ∧ t.lf = s.lf ∧ t.ns = s.ns ∧ t.cons = s.cons ∧ t.env = s.env ∧
    t.rb.tail = s.rb.tail ∧ t.rb.tailP = s.rb.tailP ∧ t.rb.rValid = s.rb.rValid ∧ t.rb.rData = s.rb.rData ∧
    (s.cfg.syncLag = .free → t.rb.headC = s.rb.headC) ∧
    (∀ a, a ≠ s.rb.head → memRead .RB a t = memRead .RB a s) ∧
    (s.fullP = true → t.rb.head = s.rb.head ∧ t.rb.headC = s.rb.headC ∧ ∀ a, memRead .RB a t = memRead .RB a s) ∧
    (s.fullP = false → memRead .RB s.rb.head t = some b)

/-- R123: no unread byte is overwritten, an accepted byte joins the end of the queue, and one slot always stays unused. -/
def Obligations.PushNeverOverwritesUnread : Prop :=
  ∀ (b : Byte) (s t : State), s.Inv → exec (.push b) s = .next t →
    (∀ a, memRead .RB a t ≠ memRead .RB a s → a = s.rb.head ∧ (s.rb.head + 1) % s.cfg.rbN ≠ s.rb.tailP) ∧
    (∀ i < s.count, memRead .RB ((s.rb.tail + i) % s.cfg.rbN) t = memRead .RB ((s.rb.tail + i) % s.cfg.rbN) s) ∧
    t.content = (if s.fullP then s.content else s.content ++ [some b]) ∧
    t.count ≤ s.cfg.rbDepth

/-- R125, with the encoding it names: both arms of POP wherever the port takes the request. `r_data` after the empty arm is
any value (R29), so the statement fixes none. -/
def Obligations.PopFollowsItsRule : Prop :=
  ∀ (s : State), s.ready →
    decode s.cfg (.c 0b001#3 0 0) = .ok .pop ∧ Instr.pop.format.owner = .consumer ∧
    (s.rb.headC = s.rb.tail →
      ∃ (v : Byte) (n : Nat), exec .pop s = .next
        { s with
          rb := { s.rb with rValid := false, rData := v }
          history := s.history ++ [.popEmpty]
          env := { s.env with freeCount := n } }) ∧
    (s.rb.headC ≠ s.rb.tail → ∀ b, memRead .RB s.rb.tail s = some b →
      exec .pop s = .next
        { s with
          rb := { s.rb with
            tail := (s.rb.tail + 1) % s.cfg.rbN
            tailP := if s.cfg.syncLag = .zero then (s.rb.tail + 1) % s.cfg.rbN else s.rb.tailP
            rValid := true
            rData := b }
          history := s.history ++ [.popped b] })

/-- The frame of POP (R127 (a), (d), (e)): no byte of `mem` changes; `head` and `head_c` stay, `tail_p` stays with lagging
views, and on the empty arm `tail` and `tail_p` stay too; no LF, NS or consumer state changes. -/
def Obligations.PopChangesOnlyTailAndResult : Prop :=
  ∀ (s t : State), exec .pop s = .next t →
    t.cfg = s.cfg ∧ t.lf = s.lf ∧ t.ns = s.ns ∧ t.cons = s.cons ∧
    t.env.inputs = s.env.inputs ∧ t.env.cycle = s.env.cycle ∧ t.env.answers = s.env.answers ∧
    (∀ a, memRead .RB a t = memRead .RB a s) ∧
    t.rb.head = s.rb.head ∧ t.rb.headC = s.rb.headC ∧ t.rb.wOvf = s.rb.wOvf ∧
    (s.cfg.syncLag = .free → t.rb.tailP = s.rb.tailP) ∧
    (s.emptyC = true → t.rb.tail = s.rb.tail ∧ t.rb.tailP = s.rb.tailP)

/-- R126: where POP reads `mem[tail]`, that slot holds a pushed and not yet popped byte, the oldest; so POP always completes. -/
def Obligations.PopReadsTheOldestUnreadByte : Prop :=
  ∀ s : State, s.Inv → s.FifoInv → s.ready →
    (∃ t, exec .pop s = .next t) ∧
    (s.rb.headC ≠ s.rb.tail →
      ∃ b rest, memRead .RB s.rb.tail s = some b ∧ pushedBytes s.history = poppedBytes s.history ++ b :: rest)

/-- R128, with the encoding it names: what an enabled SYNC_H does, and that it is enabled only as the rule says: one that
changes anything had `SYNC_LAG` = free, a view behind `head`, and a `k` within the distance. -/
def Obligations.SyncHFollowsItsRule : Prop :=
  ∀ (s : State) (k : Nat),
    (s.cfg.syncLag = .free → 1 ≤ k → k ≤ ringDist s.cfg.rbN s.rb.headC s.rb.head →
      decode s.cfg (.s k) = .ok (.syncH k) ∧ (Instr.syncH k).format.owner = .synchroniser ∧
      exec (.syncH k) s = .next { s with rb := { s.rb with headC := (s.rb.headC + k) % s.cfg.rbN } } ∧
      State.headGs { s with rb := { s.rb with headC := (s.rb.headC + k) % s.cfg.rbN } } = gray ((s.rb.headC + k) % s.cfg.rbN)) ∧
    (exec (.syncH k) s ≠ .next s →
      s.cfg.syncLag = .free ∧ s.rb.headC ≠ s.rb.head ∧ 1 ≤ k ∧ k ≤ ringDist s.cfg.rbN s.rb.headC s.rb.head)

/-- R129, with the encoding it names: SYNC_T likewise. -/
def Obligations.SyncTFollowsItsRule : Prop :=
  ∀ (s : State) (k : Nat),
    (s.cfg.syncLag = .free → 1 ≤ k → k ≤ ringDist s.cfg.rbN s.rb.tailP s.rb.tail →
      decode s.cfg (.s (s.cfg.rbN + k)) = .ok (.syncT k) ∧ (Instr.syncT k).format.owner = .synchroniser ∧
      exec (.syncT k) s = .next { s with rb := { s.rb with tailP := (s.rb.tailP + k) % s.cfg.rbN } } ∧
      State.tailGs { s with rb := { s.rb with tailP := (s.rb.tailP + k) % s.cfg.rbN } } = gray ((s.rb.tailP + k) % s.cfg.rbN)) ∧
    (exec (.syncT k) s ≠ .next s →
      s.cfg.syncLag = .free ∧ s.rb.tailP ≠ s.rb.tail ∧ 1 ≤ k ∧ k ≤ ringDist s.cfg.rbN s.rb.tailP s.rb.tail)

/-- R99, R262 (c): a SYNC step that is not enabled is no step: the state stays (the model's choice of form, log 10). -/
def Obligations.DisabledSyncChangesNothing : Prop :=
  ∀ (s : State) (k : Nat),
    ((s.cfg.syncLag = .zero ∨ k = 0 ∨ ringDist s.cfg.rbN s.rb.headC s.rb.head < k) → exec (.syncH k) s = .next s) ∧
    ((s.cfg.syncLag = .zero ∨ k = 0 ∨ ringDist s.cfg.rbN s.rb.tailP s.rb.tail < k) → exec (.syncT k) s = .next s)

/-- SYNC_H k makes exactly `k` more bytes visible and never leads `head`; SYNC_T k makes `k` freed slots visible and never
leads `tail` (R25, R26, R27). -/
def Obligations.SyncAdvancesTheViewAndNeverLeads : Prop :=
  ∀ (s : State) (k : Nat), s.Inv →
    (∀ t, syncHEnabled k s = true → exec (.syncH k) s = .next t →
      t.countC = s.countC + k ∧ t.countC ≤ t.count ∧ t.count = s.count ∧ t.countP = s.countP) ∧
    (∀ t, syncTEnabled k s = true → exec (.syncT k) s = .next t →
      t.countP + k = s.countP ∧ t.count ≤ t.countP ∧ t.count = s.count ∧ t.countC = s.countC)

/-- R130, the FIFO property: it holds after reset, every step from a good state keeps it, and it says that the popped bytes
are a prefix of the accepted ones, byte for byte. -/
def Obligations.FifoOrderIsKept : Prop :=
  State.reset.FifoInv ∧
  (∀ s t : State, s.Inv → s.FifoInv → step s = .next t → t.FifoInv) ∧
  (∀ s : State, s.FifoInv →
    (∀ (j : Nat) (b : Byte), (poppedBytes s.history)[j]? = some b → (pushedBytes s.history)[j]? = some b) ∧
    (poppedBytes s.history).length ≤ (pushedBytes s.history).length)

/-- R131, the capacity property: from an empty ring whose `tail_p` is up to date, with no POP, the first `RB_DEPTH` pushes are
accepted and every further one is dropped with its own `Overflow`, changing neither the content nor the indices. -/
def Obligations.CapacityProperty : Prop :=
  ∀ (s : State) (bs extra : List Byte), s.Inv → s.rb.tailP = s.rb.head → bs.length = s.cfg.rbDepth →
    ∃ t u, execAll (bs.map .push) s = .next t ∧ execAll (extra.map .push) t = .next u ∧
      t.content = bs.map some ∧ t.history = s.history ++ bs.map .pushed ∧ t.rb.tail = s.rb.tail ∧
      u.history = t.history ++ extra.map .overflow ∧
      u.rb = { t.rb with wOvf := if extra = [] then t.rb.wOvf else true }

/-- R127 (f), R75 (c): with lagging views a PUSH and a POP commute: the two orders give the same state, up to the order of
their two events. -/
def Obligations.PushAndPopCommute : Prop :=
  ∀ (b : Byte) (s : State), s.Inv → s.ready → s.cfg.syncLag = .free →
    ∃ (t u : State) (e f : Event),
      execAll [.push b, .pop] s = .next t ∧ execAll [.pop, .push b] s = .next u ∧
      t.history = s.history ++ [e, f] ∧ u.history = s.history ++ [f, e] ∧
      { t with history := [] } = { u with history := [] }

/-- R83: a step of the zero-lag block is a step of the lagging one followed by a full SYNC step. -/
def Obligations.ZeroLagStepsAreLaggingStepsThenSync : Prop :=
  ∀ (b : Byte) (s : State), s.Inv → s.cfg.syncLag = .zero →
    let lag : State := { s with cfg := { s.cfg with syncLag := .free } }
    (∀ t, exec (.push b) s = .next t →
      ∃ u v, exec (.push b) lag = .next u ∧
        execAll (if u.rb.headC = u.rb.head then [] else [.syncH (ringDist u.cfg.rbN u.rb.headC u.rb.head)]) u = .next v ∧
        t = { v with cfg := s.cfg }) ∧
    (∀ t, exec .pop s = .next t →
      ∃ u v, exec .pop lag = .next u ∧
        execAll (if u.rb.tailP = u.rb.tail then [] else [.syncT (ringDist u.cfg.rbN u.rb.tailP u.rb.tail)]) u = .next v ∧
        t = { v with cfg := s.cfg })

/-! ## The gray code -/

/-- 30_encoding.md R104: the formula bit by bit, and its sample values. -/
def Obligations.GrayCodeBitByBit : Prop :=
  (∀ i : Nat, gray i = i ^^^ (i >>> 1)) ∧
  (∀ (w i : Nat), i < 2 ^ (w + 1) → (gray i).testBit w = i.testBit w ∧ gray i < 2 ^ (w + 1)) ∧
  (∀ i b : Nat, (gray i).testBit b = (i.testBit (b + 1) ^^ i.testBit b)) ∧
  [0, 1, 2, 3, 4, 5, 6, 7, 8, 127, 128, 254, 255].map gray =
    [0x00, 0x01, 0x03, 0x02, 0x06, 0x07, 0x05, 0x04, 0x0C, 0x40, 0xC0, 0x81, 0x80]

/-- R105: `ungray` bit by bit and as the exclusive or of all its shifts, and that it inverts `gray` on values of any width,
from both sides. -/
def Obligations.UngrayInvertsGray : Prop :=
  ∀ w : Nat,
    (∀ g, g < 2 ^ (w + 1) → (ungray (w + 1) g).testBit w = g.testBit w) ∧
    (∀ g b, b < w → g < 2 ^ (w + 1) →
      (ungray (w + 1) g).testBit b = ((ungray (w + 1) g).testBit (b + 1) ^^ g.testBit b)) ∧
    (∀ g, g < 2 ^ w → ungray w g = ((List.range w).map fun j => g >>> j).foldl (· ^^^ ·) 0) ∧
    (∀ i, i < 2 ^ w → ungray w (gray i) = i) ∧
    (∀ g, g < 2 ^ w → gray (ungray w g) = g)

/-- R106: neighbours on the ring, the wrap included, differ in exactly one bit of their gray code. -/
def Obligations.GrayNeighboursDifferInOneBit : Prop :=
  (∀ (c : Config) (i : Nat), c.wf = true → i < c.rbN → ∃ b < c.idxW, gray i ^^^ gray ((i + 1) % c.rbN) = 2 ^ b) ∧
  gray 255 = 0x80 ∧ gray 0 = 0x00 ∧ (255 + 1) % ({} : Config).rbN = 0

/-! ## LF -/

/-- 30_encoding.md R108: a sequence is valid exactly when it is a concatenation of patterns of the table; the bytes 0xC0,
0xC1 and 0xF5 to 0xFF never occur in one; pure ASCII is valid. -/
def Obligations.TextValidIsConcatenationOfPatterns : Prop :=
  (utf8Rows.map (fun row => (row.1.lo.toNat, row.1.hi.toNat, row.2.map fun r => (r.lo.toNat, r.hi.toNat))) =
    [(0x00, 0x7F, []),
     (0xC2, 0xDF, [(0x80, 0xBF)]),
     (0xE0, 0xE0, [(0xA0, 0xBF), (0x80, 0xBF)]),
     (0xE1, 0xEC, [(0x80, 0xBF), (0x80, 0xBF)]),
     (0xED, 0xED, [(0x80, 0x9F), (0x80, 0xBF)]),
     (0xEE, 0xEF, [(0x80, 0xBF), (0x80, 0xBF)]),
     (0xF0, 0xF0, [(0x90, 0xBF), (0x80, 0xBF), (0x80, 0xBF)]),
     (0xF1, 0xF3, [(0x80, 0xBF), (0x80, 0xBF), (0x80, 0xBF)]),
     (0xF4, 0xF4, [(0x80, 0x8F), (0x80, 0xBF), (0x80, 0xBF)])]) ∧
  (∀ s : List Byte, textValid s = true ↔
    ∃ ps : List (List Byte), s = ps.flatten ∧
      ∀ p ∈ ps, ∃ row ∈ utf8Rows, ∃ b rest, p = b :: rest ∧ row.1.has b = true ∧
        List.Forall₂ (fun r x => ByteRange.has r x = true) row.2 rest) ∧
  (∀ s : List Byte, textValid s = true → 0xC0#8 ∉ s ∧ 0xC1#8 ∉ s ∧ ∀ b ∈ s, b.toNat < 0xF5) ∧
  (∀ s : List Byte, (∀ b ∈ s, b.toNat < 0x80) → textValid s = true)

/-- R109: `trim_end` removes the longest suffix of whitespace bytes, and does not change whether the bytes are valid text. -/
def Obligations.TrimmingKeepsValidity : Prop :=
  ∀ (ws s : List Byte),
    (∃ suffix, s = trimEnd ws s ++ suffix ∧ (∀ b ∈ suffix, b ∈ ws)) ∧
    (∀ b, (trimEnd ws s).getLast? = some b → b ∉ ws) ∧
    ((∀ b ∈ ws, b.toNat < 0x80) → textValid (trimEnd ws s) = textValid s)

/-- 41_lineframer.md R141 and R142, with the encoding R142 names: the delimiter, a byte that does not fill the line buffer,
and the byte that fills it. -/
def Obligations.FeedFollowsItsRule : Prop :=
  ∀ (b : Byte) (s : State), s.ready →
    decode s.cfg (.c 0b010#3 b 0) = .ok (.feed b) ∧ (Instr.feed b).format.owner = .consumer ∧
    (b = s.cfg.delim → ∀ text, s.lf.line.slice 0 s.lf.idx = .ok text →
      exec (.feed b) s = .next
        { s with
          lf := { s.lf with idx := 0 }
          history := s.history ++ [if textValid text then .lineOut (trimEnd s.cfg.ws text) else .lineDropped text] }) ∧
    (b ≠ s.cfg.delim → s.lf.idx + 1 ≠ s.cfg.lineCap →
      exec (.feed b) s = .next { s with lf := { line := s.lf.line.write s.lf.idx b, idx := s.lf.idx + 1 } }) ∧
    (b ≠ s.cfg.delim → s.lf.idx + 1 = s.cfg.lineCap → ∀ text,
      (s.lf.line.write s.lf.idx b).slice 0 s.cfg.lineCap = .ok text →
      exec (.feed b) s = .next
        { s with
          lf := { line := s.lf.line.write s.lf.idx b, idx := 0 }
          history := s.history ++ [if textValid text then .lineOut (trimEnd s.cfg.ws text) else .lineDropped text] })

/-- FEED completes in every good state, with its frame (R62, R153 (g)): no RB, NS or consumer state; of `line` only the byte
at `idx`, and none when the byte is the delimiter. -/
def Obligations.FeedCompletesAndTouchesOnlyTheLine : Prop :=
  ∀ (b : Byte) (s : State), s.Inv → s.ready →
    ∃ t, exec (.feed b) s = .next t ∧
      t.cfg = s.cfg ∧ t.rb = s.rb ∧ t.ns = s.ns ∧ t.cons = s.cons ∧ t.env = s.env ∧
      (∀ a, a ≠ s.lf.idx → memRead .LB a t = memRead .LB a s) ∧
      (b = s.cfg.delim → t.lf = { s.lf with idx := 0 }) ∧
      (b ≠ s.cfg.delim → memRead .LB s.lf.idx t = some b)

/-- R143, R96, R146: whatever a step emits as a line holds no delimiter, is no longer than `LINE_CAP`, does not end in
whitespace, and is valid text when the whitespace set is below 0x80. -/
def Obligations.EmittedLinesAreCleanText : Prop :=
  ∀ (s t : State) (l : List Byte), s.Inv → step s = .next t → .lineOut l ∈ newEvents s t →
    s.cfg.delim ∉ l ∧ l.length ≤ s.cfg.lineCap ∧ (∀ b, l.getLast? = some b → b ∉ s.cfg.ws) ∧
    ((∀ b ∈ s.cfg.ws, b.toNat < 0x80) → textValid l = true)

/-- R144: bytes that are no delimiter are accumulated silently up to `LINE_CAP` - 1 of them, the `LINE_CAP`-th flushes all of
them at once, and a delimiter straight after flushes an empty line. -/
def Obligations.CapacityFlushCutsTheLine : Prop :=
  ∀ (s : State) (bs : List Byte), s.Inv → s.ready → s.lf.idx = 0 → (∀ b ∈ bs, b ≠ s.cfg.delim) →
    (bs.length < s.cfg.lineCap →
      ∃ t, execAll (bs.map .feed) s = .next t ∧ t.lf.idx = bs.length ∧ t.history = s.history) ∧
    (bs.length = s.cfg.lineCap →
      ∃ t u, execAll (bs.map .feed) s = .next t ∧ t.lf.idx = 0 ∧ t.history = s.history ++ [lineEvent s.cfg bs] ∧
        exec (.feed s.cfg.delim) t = .next u ∧ u.history = t.history ++ [.lineOut []])

/-- R150, idempotence: a complete line fed twice gives the same event twice, and leaves the framer empty. -/
def Obligations.SameLineTwiceGivesTwoEqualLines : Prop :=
  ∀ (s : State) (bs : List Byte), s.Inv → s.ready → s.lf.idx = 0 → (∀ b ∈ bs, b ≠ s.cfg.delim) →
    bs.length < s.cfg.lineCap →
    ∃ t, execAll (((bs ++ [s.cfg.delim]) ++ (bs ++ [s.cfg.delim])).map .feed) s = .next t ∧
      t.lf.idx = 0 ∧ t.history = s.history ++ [lineEvent s.cfg bs, lineEvent s.cfg bs]

/-- R148: the numbered steps of DRAIN, with the encoding it names. POP and FEED inside it are the whole of R125 and R142; the
local variable `r` is the POP's result in `r_valid` and `r_data`. -/
def Obligations.DrainFollowsItsSteps : Prop :=
  (∀ s : State, s.ready →
    decode s.cfg (.c 0b011#3 0 0) = .ok .drain ∧ Instr.drain.format.owner = .consumer ∧
    exec .drain s = .next { s with cons := { s.cons with cBusy := true, seq := .drain .pop } }) ∧
  ∀ s : State, s.cons.halted = false →
    (∀ t, s.cons.seq = .drain .pop → popOnce s = .next t →
      consumerTurn s = .next
        { t with cons := { t.cons with seq := .drain (.test (if t.rb.rValid then some t.rb.rData else none)) } }) ∧
    (s.cons.seq = .drain (.test none) →
      consumerTurn s = .next { s with cons := { s.cons with cBusy := false, seq := .idle } }) ∧
    (∀ b, s.cons.seq = .drain (.test (some b)) →
      consumerTurn s = .next { s with cons := { s.cons with seq := .drain (.feed b) } }) ∧
    (∀ t b, s.cons.seq = .drain (.feed b) → feedOnce b s = .next t →
      consumerTurn s = .next { t with cons := { t.cons with seq := .drain .again } }) ∧
    (s.cons.seq = .drain .again → consumerTurn s = .next { s with cons := { s.cons with seq := .drain .pop } })

/-- R148, R149: a DRAIN that no other agent interrupts ends, and pops exactly the bytes C could see, in order, and leaves LF,
and emits lines, as feeding those bytes one by one does; NS stays. That the steps are four a byte and two more is the model's
count (log 29), and that S does not step before C when nothing is pending is the model's choice (log 5). -/
def Obligations.DrainFeedsEveryVisibleByte : Prop :=
  ∀ (s : State) (bs : List Byte), s.Inv → s.ready → s.undisturbed → s.visible bs →
    ∃ t₀ t u, exec .drain s = .next t₀ ∧ stepN (4 * bs.length + 2) t₀ = .next t ∧ execAll (bs.map .feed) s = .next u ∧
      t.cons = s.cons ∧ t.ns = s.ns ∧ t.lf = u.lf ∧
      emittedLines t.history = emittedLines u.history ∧
      poppedBytes t.history = poppedBytes s.history ++ bs ∧ pushedBytes t.history = pushedBytes s.history ∧
      t.rb.tail = s.rb.headC ∧ t.rb.head = s.rb.head ∧ t.rb.mem = s.rb.mem ∧ t.rb.rValid = false

/-! ## NS -/

/-- 42_nand_sequencer.md R160: NOP changes nothing, in any state. -/
def Obligations.NopChangesNothing : Prop :=
  ∀ s : State, decode s.cfg (.c 0b000#3 0 0) = .ok .nop ∧ Instr.nop.format.owner = .consumer ∧ exec .nop s = .next s

/-- R162: the three steps of a transaction. T2 reads the image, takes V's answer and records it; after a failure `xbuf` holds
no value; T3 is executed on both outcomes. -/
def Obligations.TransactFollowsItsSteps : Prop :=
  ∀ (op : NandOp) (s : State), s.cons.halted = false →
    (s.cons.seq = .nand op .t1 → s.ns.nsState = .idle → s.ns.csN = true →
      consumerTurn s = .next
        { s with
          ns := { s.ns with csN := false, nsState := .transacting, xlen := op.xferLen s.cfg }
          history := s.history ++ [.csLow]
          cons := { s.cons with seq := .nand op .t2 } }) ∧
    (s.cons.seq = .nand op .t1 → s.ns.nsState ≠ .idle ∨ s.ns.csN = false → consumerTurn s = .next s) ∧
    (∀ tx rx, s.cons.seq = .nand op .t2 → s.ns.xbuf.slice 0 (op.xferLen s.cfg) = .ok tx →
      busOutcome (op.xferLen s.cfg) s = .ok rx →
      rx.length = op.xferLen s.cfg ∧
      ∃ env, consumerTurn s = .next
        { s with
          ns := { s.ns with xbuf := if op.keep then s.ns.xbuf.writeAll 0 rx else s.ns.xbuf }
          history := s.history ++ [.xfer tx rx]
          cons := { s.cons with seq := .nand op (.t3 (.ok rx)) }
          env := env }) ∧
    (∀ tx e k, s.cons.seq = .nand op .t2 → s.ns.xbuf.slice 0 (op.xferLen s.cfg) = .ok tx →
      busOutcome (op.xferLen s.cfg) s = .err e k →
      k ≤ op.xferLen s.cfg ∧
      ∃ env, consumerTurn s = .next
        { s with
          ns := { s.ns with xbuf := [] }
          history := s.history ++ [.xferErr e k]
          cons := { s.cons with seq := .nand op (.t3 (.err e k)) }
          env := env }) ∧
    (∀ o, s.cons.seq = .nand op (.t3 o) →
      consumerTurn s = .next
        { s with
          ns := { s.ns with csN := true, nsState := .idle, xlen := 0 }
          history := s.history ++ [.csHigh]
          cons := { s.cons with seq := .nand op (.check o) } })

/-- R163: NAND_RESET from request to `NandDone(Ok)` where V answers: chip-select frames the one byte 0xFF, then exactly
`T_SETTLE` count-down steps; RB, LF and the identifiers stay. The number of steps is the model's count (log 29), and the views
of RB stay because C goes before S when nothing is pending, the model's choice (log 5). -/
def Obligations.NandResetRunsToOk : Prop :=
  ∀ (s : State) (rx : List Byte), s.Inv → s.ready → s.undisturbed → busOutcome 1 s = .ok rx →
    ∃ t₀ t, exec .nandReset s = .next t₀ ∧
      t₀ = { s with
        ns := { s.ns with xbuf := s.ns.xbuf.write 0 s.cfg.cmdReset }
        cons := { s.cons with cBusy := true, seq := .nand .reset .t1 } } ∧
      stepN (6 + s.cfg.settleTicks) t₀ = .next t ∧
      t.cons = s.cons ∧ t.lf = s.lf ∧ t.rb = { s.rb with wOvf := false } ∧
      t.ns = { s.ns with xbuf := s.ns.xbuf.write 0 s.cfg.cmdReset, nandStatus := .ok } ∧
      t.history = s.history ++ [.csLow, .xfer [s.cfg.cmdReset] rx, .csHigh, .settleStart, .settleDone, .nandDone .ok]

/-- R163, R164, R167, R171: the numbered steps around the transaction, one turn of C each, so that P and S may step in between;
and while NS settles, whatever stands on the command port, C only counts down, with chip-select high. Step 1 is the request's.
Step 3 ends a failed operation with the identifiers at any value and not valid, which for NAND_RESET and NAND_READ_PAGE is
R173's (log 15). That the error test is a step of its own, and that the step which finds the count 0 is step 6, is the model's
count (log 29); that a code on a busy port is the edge of C's next step is log 9. -/
def Obligations.NandOperationsFollowTheirSteps : Prop :=
  (∀ s : State, s.ready →
    decode s.cfg (.c 0b100#3 0 0) = .ok .nandReset ∧ decode s.cfg (.c 0b101#3 0 0) = .ok .nandReadId ∧
    (∀ page l, s.cfg.page = some l → page < 2 ^ l.pageAw → decode s.cfg (.c 0b110#3 0 page) = .ok (.nandReadPage page)) ∧
    (exec .nandReset s = .next
      { s with
        ns := { s.ns with xbuf := s.ns.xbuf.write 0 s.cfg.cmdReset }
        cons := { s.cons with cBusy := true, seq := .nand .reset .t1 } }) ∧
    (exec .nandReadId s = .next
      { s with
        ns := { s.ns with xbuf := s.ns.xbuf.writeAll 0 (s.cfg.cmdReadId :: List.replicate (s.cfg.idLen - 1) s.cfg.fill) }
        cons := { s.cons with cBusy := true, seq := .nand .readId .t1 } }) ∧
    (∀ page l, s.cfg.page = some l → exec (.nandReadPage page) s = .next
      { s with
        ns := { s.ns with
          xbuf := s.ns.xbuf.writeAll 0
            (s.cfg.cmdReadPage :: (addrBytes s.cfg.pageMsbFirst l.addrBytes page ++
              List.replicate (l.dummyBytes + l.dataBytes) s.cfg.fill)) }
        cons := { s.cons with cBusy := true, seq := .nand (.readPage l) .t1 } })) ∧
  (∀ (op : NandOp) (s : State), s.cons.halted = false →
    (∀ e k, s.cons.seq = .nand op (.check (.err e k)) →
      ∃ (m d : Byte) (n : Nat), consumerTurn s = .next
        { s with
          ns := { s.ns with nandStatus := .err, idValid := false, nandMfr := m, nandDev := d }
          history := s.history ++ [.nandDone (.busError e)]
          cons := { s.cons with cBusy := false, seq := .idle }
          env := { s.env with freeCount := n } }) ∧
    (∀ rx, s.cons.seq = .nand op (.check (.ok rx)) →
      consumerTurn s = .next { s with cons := { s.cons with seq := .nand op .step4 } }) ∧
    (s.cons.seq = .nand .reset .step4 →
      consumerTurn s = .next
        { s with
          ns := { s.ns with nsState := .settling, settleCnt := s.cfg.settleTicks }
          history := s.history ++ [.settleStart]
          cons := { s.cons with seq := .nand .reset .settle } }) ∧
    (s.cons.seq = .nand .reset .settle → 0 < s.ns.settleCnt →
      consumerTurn s = .next { s with ns := { s.ns with settleCnt := s.ns.settleCnt - 1 } }) ∧
    (s.cons.seq = .nand .reset .settle → s.ns.settleCnt = 0 →
      consumerTurn s = .next
        { s with
          ns := { s.ns with nsState := .idle, nandStatus := .ok }
          history := s.history ++ [.settleDone, .nandDone .ok]
          cons := { s.cons with cBusy := false, seq := .idle } }) ∧
    (∀ m d, s.cons.seq = .nand .readId .step4 → memRead .XB s.cfg.idMfrIdx s = some m →
      memRead .XB s.cfg.idDevIdx s = some d →
      consumerTurn s = .next
        { s with
          ns := { s.ns with nandMfr := m, nandDev := d, idValid := true, nandStatus := .ok }
          history := s.history ++ [.nandDone (.okId m d)]
          cons := { s.cons with cBusy := false, seq := .idle } }) ∧
    (∀ l data, s.cons.seq = .nand (.readPage l) .step4 →
      s.ns.xbuf.slice (1 + l.addrBytes + l.dummyBytes) l.dataBytes = .ok data →
      consumerTurn s = .next
        { s with
          ns := { s.ns with nandStatus := .ok }
          history := s.history ++ [.nandDone (.okPage data)]
          cons := { s.cons with cBusy := false, seq := .idle } })) ∧
  (∀ (s : State) (r : Request) (rest : List Input), s.Inv → s.cons.halted = false → s.ns.nsState = .settling →
    0 < s.ns.settleCnt → r.format = .C → s.env.inputs = .request .consumer r :: rest →
    s.ns.csN = true ∧ s.cons.cBusy = true ∧
    step s = .next
      { s with
        rb := { s.rb with wOvf := false }
        ns := { s.ns with settleCnt := s.ns.settleCnt - 1 }
        env := { s.env with inputs := rest } })

/-- R167, R168: NAND_READ_ID from request to `NandDone(Ok(mfr, dev))`: the identifiers are the received bytes at the two
configured positions of the whole exchanged buffer, whatever the other bytes are. The number of steps is the model's count
(log 29), and the views of RB stay because C goes before S when nothing is pending, the model's choice (log 5). -/
def Obligations.NandReadIdReportsIdentifiers : Prop :=
  ∀ (s : State) (rx : List Byte), s.Inv → s.ready → s.undisturbed → busOutcome s.cfg.idLen s = .ok rx →
    ∃ (t₀ t : State) (m d : Byte), exec .nandReadId s = .next t₀ ∧
      t₀ = { s with
        ns := { s.ns with
          xbuf := s.ns.xbuf.writeAll 0 (s.cfg.cmdReadId :: List.replicate (s.cfg.idLen - 1) s.cfg.fill) }
        cons := { s.cons with cBusy := true, seq := .nand .readId .t1 } } ∧
      stepN 5 t₀ = .next t ∧
      rx[s.cfg.idMfrIdx]? = some m ∧ rx[s.cfg.idDevIdx]? = some d ∧
      t.cons = s.cons ∧ t.lf = s.lf ∧ t.rb = { s.rb with wOvf := false } ∧
      t.ns = { s.ns with xbuf := t.ns.xbuf, nandStatus := .ok, nandMfr := m, nandDev := d, idValid := true } ∧
      (∀ a < s.cfg.idLen, memRead .XB a t = rx[a]?) ∧
      (∀ a, s.cfg.idLen ≤ a → memRead .XB a t = memRead .XB a s) ∧
      t.history = s.history ++
        [.csLow, .xfer (s.cfg.cmdReadId :: List.replicate (s.cfg.idLen - 1) s.cfg.fill) rx, .csHigh, .nandDone (.okId m d)]

/-- R171: NAND_READ_PAGE from request to `NandDone(Ok(data))` in a configuration that supplies the lengths: the frame is
command, address, dummy and data placeholders, the data are its last G received bytes. The number of steps is the model's
count (log 29), and the views of RB stay because C goes before S when nothing is pending, the model's choice (log 5). -/
def Obligations.NandReadPageReturnsData : Prop :=
  ∀ (s : State) (page : Nat) (l : PageLayout) (rx : List Byte), s.Inv → s.ready → s.undisturbed →
    s.cfg.page = some l → page < 2 ^ l.pageAw → busOutcome l.frameLen s = .ok rx →
    ∃ t₀ t, exec (.nandReadPage page) s = .next t₀ ∧
      t₀ = { s with
        ns := { s.ns with
          xbuf := s.ns.xbuf.writeAll 0
            (s.cfg.cmdReadPage :: (addrBytes s.cfg.pageMsbFirst l.addrBytes page ++
              List.replicate (l.dummyBytes + l.dataBytes) s.cfg.fill)) }
        cons := { s.cons with cBusy := true, seq := .nand (.readPage l) .t1 } } ∧
      stepN 5 t₀ = .next t ∧
      t.cons = s.cons ∧ t.lf = s.lf ∧ t.rb = { s.rb with wOvf := false } ∧
      t.ns = { s.ns with xbuf := t.ns.xbuf, nandStatus := .ok } ∧
      (∀ a < l.frameLen, memRead .XB a t = rx[a]?) ∧
      (∀ a, l.frameLen ≤ a → memRead .XB a t = memRead .XB a s) ∧
      t.history = s.history ++
        [.csLow,
         .xfer (s.cfg.cmdReadPage :: (addrBytes s.cfg.pageMsbFirst l.addrBytes page ++
           List.replicate (l.dummyBytes + l.dataBytes) s.cfg.fill)) rx,
         .csHigh, .nandDone (.okPage (rx.drop (1 + l.addrBytes + l.dummyBytes)))]

/-- R170, U5: without its lengths NAND_READ_PAGE is refused. -/
def Obligations.ReadPageWithoutLengthsIsRefused : Prop :=
  ∀ (s : State) (page : Nat), s.ready → s.cfg.page = none → exec (.nandReadPage page) s = .refused .pageUnset

/-- R103: the address bytes on the wire carry the page address whole, most significant byte first or last as configured. -/
def Obligations.AddressBytesCarryThePageAddress : Prop :=
  ∀ (a page : Nat), page < 2 ^ (8 * a) →
    (addrBytes true a page).length = a ∧
    (addrBytes true a page).foldl (fun acc b => acc * 256 + b.toNat) 0 = page ∧
    addrBytes false a page = (addrBytes true a page).reverse

/-- R173, R165, R224: a failed exchange ends any NAND operation: chip-select is high again, `ERR` is reported, `xbuf` and the
identifiers hold no value, RB and LF are untouched, there is no settle delay and nothing is fatal. The model's own parts: four
steps (log 29), the views of RB untouched (log 5), no identifiers after a failed NAND_RESET or NAND_READ_PAGE (log 15), no
value in any byte of `xbuf` (log 16). -/
def Obligations.BusFailureEndsTheOperation : Prop :=
  ∀ (s : State) (i : Instr) (n e k : Nat), s.Inv → s.ready → s.undisturbed →
    ((i = .nandReset ∧ n = 1) ∨ (i = .nandReadId ∧ n = s.cfg.idLen) ∨
      (∃ page l, i = .nandReadPage page ∧ s.cfg.page = some l ∧ n = l.frameLen)) →
    busOutcome n s = .err e k →
    ∃ t₀ t, exec i s = .next t₀ ∧ stepN 4 t₀ = .next t ∧ k ≤ n ∧
      t.ns.csN = true ∧ t.ns.nsState = .idle ∧ t.ns.nandStatus = .err ∧ t.cons = s.cons ∧
      t.ns.xlen = 0 ∧ t.ns.settleCnt = 0 ∧ t.ns.idValid = false ∧
      (∀ a, memRead .XB a t = none) ∧ t.lf = s.lf ∧ t.rb = { s.rb with wOvf := false } ∧
      t.history = s.history ++ [.csLow, .xferErr e k, .csHigh, .nandDone (.busError e)]

/-- R161, R153 (g): no step of a NAND operation changes RB or LF state, and no step of DRAIN changes NS state. -/
def Obligations.NandAndPipelineStayApart : Prop :=
  ∀ s t : State, consumerTurn s = .next t →
    (s.cons.seq.inNand = true → t.rb = s.rb ∧ t.lf = s.lf) ∧
    (s.cons.seq.inNand = false → t.ns = s.ns)

/-! ## The invariants -/

/-- 10_state.md R28: the ring's invariants (a) to (d) hold after reset, and every step from a good state keeps them. -/
def Obligations.StepKeepsRingInvariant : Prop :=
  let good (t : State) : Prop :=
    t.count ≤ t.cfg.rbN - 1 ∧ (t.rb.head = t.rb.tail ↔ t.content = []) ∧
    ringDist t.cfg.rbN t.rb.tailP t.rb.tail + ringDist t.cfg.rbN t.rb.tail t.rb.headC
      + ringDist t.cfg.rbN t.rb.headC t.rb.head ≤ t.cfg.rbN - 1 ∧
    ringDist t.cfg.rbN t.rb.tailP t.rb.tail + ringDist t.cfg.rbN t.rb.tail t.rb.headC
      + ringDist t.cfg.rbN t.rb.headC t.rb.head = t.countP ∧
    t.FifoInv
  good State.reset ∧ ∀ s t : State, s.Inv → s.FifoInv → step s = .next t → RingInv t ∧ good t

/-- R33: every step from a good state keeps the line framer's invariant. -/
def Obligations.StepKeepsLineInvariant : Prop :=
  ∀ s t : State, s.Inv → step s = .next t →
    0 ≤ t.lf.idx ∧ t.lf.idx ≤ t.cfg.lineCap - 1 ∧
    ∀ i < t.lf.idx, ∃ b, memRead .LB i t = some b ∧ b ≠ t.cfg.delim

/-- R48: the sequencer's invariants (a) to (c) hold after reset, and every step from a good state keeps them. -/
def Obligations.StepKeepsNandInvariant : Prop :=
  let good (t : State) : Prop :=
    (t.ns.csN = false ↔ t.ns.nsState = .transacting) ∧
    (t.cons.seq.inNand = false → t.ns.nsState = .idle ∧ t.ns.csN = true) ∧
    (0 < t.ns.settleCnt → t.ns.nsState = .settling)
  good State.reset ∧ ∀ s t : State, s.Inv → step s = .next t → good t

/-- Every step from a good state gives a good state. -/
def Obligations.StepKeepsInvariant : Prop := ∀ s t : State, s.Inv → step s = .next t → t.Inv

/-! ## Whole-machine rules -/

/-- 60_exceptions.md R234: what each agent's step leaves alone. P's leaves everything C owns and S's two views; C's, as a
request and as the next step of its operation, leaves what P owns and S's two views; S's leaves everything but the two views;
no other agent has a step. With exact views (`SYNC_LAG` = zero) `head_c` moves with `head` and `tail_p` with `tail` (R25, R26). -/
def Obligations.AgentsWriteOnlyTheirOwnState : Prop :=
  (∀ (s t : State) (who : Agent) (r : Request) (rest : List Input),
    s.env.inputs = .request who r :: rest → step s = .next t →
    (who = .producer →
      t.rb.tail = s.rb.tail ∧ t.rb.tailP = s.rb.tailP ∧ t.rb.rValid = s.rb.rValid ∧ t.rb.rData = s.rb.rData ∧
      (s.cfg.syncLag = .free → t.rb.headC = s.rb.headC) ∧
      t.lf = s.lf ∧ t.ns = s.ns ∧ t.cons = s.cons) ∧
    (who = .consumer →
      t.rb.head = s.rb.head ∧ t.rb.mem = s.rb.mem ∧ t.rb.headC = s.rb.headC ∧
      (s.cfg.syncLag = .free → t.rb.tailP = s.rb.tailP)) ∧
    (who = .synchroniser →
      t.rb = { s.rb with headC := t.rb.headC, tailP := t.rb.tailP, wOvf := false } ∧
      t.lf = s.lf ∧ t.ns = s.ns ∧ t.cons = s.cons ∧ t.history = s.history) ∧
    (who = .secondProducer ∨ who = .secondConsumer →
      t = { s with rb := { s.rb with wOvf := false }, env := { s.env with inputs := rest } })) ∧
  (∀ s t : State, consumerTurn s = .next t →
    t.rb.head = s.rb.head ∧ t.rb.mem = s.rb.mem ∧ t.rb.headC = s.rb.headC ∧ t.rb.wOvf = s.rb.wOvf ∧
    (s.cfg.syncLag = .free → t.rb.tailP = s.rb.tailP))

/-- R226, R232: `fatal` sets `halted` and is recorded, once; from then on C has no step and keeps all it owns, chip-select
included; only reset clears `halted`; P and S still step; a halted state is no end of a run. -/
def Obligations.FatalStopsTheConsumerForGood : Prop :=
  (∀ (s : State) (rest : List Input), s.env.inputs = .fatal :: rest →
    step s = .next
      { s with
        rb := { s.rb with wOvf := false }
        cons := { s.cons with halted := true }
        history := if s.cons.halted then s.history else s.history ++ [.fatal]
        env := { s.env with inputs := rest } }) ∧
  (∀ s t : State, s.cons.halted = true → s.upcoming.head? ≠ some .reset → step s = .next t →
    t.cons = s.cons ∧ t.ns = s.ns ∧ t.lf = s.lf ∧ t.rb.tail = s.rb.tail ∧
    t.rb.rValid = s.rb.rValid ∧ t.rb.rData = s.rb.rData) ∧
  (∀ (s : State) (b : Byte), ∃ t, exec (.push b) s = .next t) ∧
  (∀ (s : State) (k : Nat), (∃ t, exec (.syncH k) s = .next t) ∧ ∃ t, exec (.syncT k) s = .next t) ∧
  (∀ s : State, s.cons.halted = true → ¬ s.runOver)

/-- R56, U3, U15: from a good state nothing the block does reads an element that holds no value; a fault is the host's read
of a result that holds none, or of a byte of `xbuf` that holds none or does not exist. -/
def Obligations.OnlyHostReadsCanFault : Prop :=
  ∀ (s : State) (f : Fault), s.Inv → step s = .fault f →
    ∃ p rest, s.upcoming = .hostRead p :: rest ∧
      ((p = .rData ∧ s.rb.rValid = false) ∨ ((p = .nandMfr ∨ p = .nandDev) ∧ s.ns.idValid = false) ∨
        ∃ i, p = .xData i ∧ (memRead .XB i s = none ∨ s.cfg.xbLen ≤ i))

/-- R68, R95: a read of a result port has no side effect; a read of one that holds no value faults (R56). -/
def Obligations.HostReadsHaveNoSideEffect : Prop :=
  ∀ (s : State) (p : HostPort) (rest : List Input), s.env.inputs = .hostRead p :: rest →
    (∀ v, readPort p s = .ok v →
      step s = .next { s with rb := { s.rb with wOvf := false }, env := { s.env with inputs := rest } }) ∧
    (∀ f, readPort p s = .error f → step s = .fault f) ∧
    (s.rb.rValid = true → readPort .rData s = .ok s.rb.rData) ∧
    (s.ns.idValid = true → readPort .nandMfr s = .ok s.ns.nandMfr ∧ readPort .nandDev s = .ok s.ns.nandDev)

/-- R30: after a step `w_ovf` is 1 exactly if that step was a PUSH that found the buffer full. -/
def Obligations.OverflowPulseIsOneStepLong : Prop :=
  ∀ s t : State, step s = .next t → (t.rb.wOvf = true ↔ ∃ b, newEvents s t = [.overflow b])

/-- R12: the history only grows, except at reset, which empties it. -/
def Obligations.HistoryOnlyGrows : Prop :=
  ∀ s t : State, step s = .next t →
    (s.upcoming.head? ≠ some .reset → s.history <+: t.history) ∧
    (s.upcoming.head? = some .reset → t.history = [])

/-- R7: no step changes a parameter. -/
def Obligations.ParametersAreFixed : Prop := ∀ s t : State, step s = .next t → t.cfg = s.cfg

/-- R16, weak fairness of S as the model gives it (log 5): with nothing pending and C at rest, the views reach their indices in
boundedly many steps, and nothing else of the block moves but the pulse `w_ovf`, which may end. -/
def Obligations.IdleStepsBringTheViewsUpToDate : Prop :=
  ∀ s : State, s.Inv → s.undisturbed → s.cons.cBusy = false ∨ s.cons.halted = true →
    ∃ n t, n ≤ 2 * s.cfg.rbN ∧ stepN n s = .next t ∧
      t = { s with
        rb := { s.rb with headC := s.rb.head, tailP := s.rb.tail, wOvf := t.rb.wOvf }
        env := { s.env with freeCount := t.env.freeCount } } ∧
      (t.rb.wOvf = true → s.rb.wOvf = true)

/-- 43_host_pipeline.md R192 to R203 and R205, with the inputs of source examples S4 and S8: the response lines as bytes, a
demo command with an unknown field, or without one of the six, as a parse error (one with fewer than six colons in it among
these), and the demo acknowledgment as one fixed ASCII line whatever the arguments. That the fields of a payload are those
that JSON5 reads in it is the model's choice (log 33). The host is no part of the block (log 24); that
`hello_world` gets `HELLO WORLD` is the spec's own inference (R202, 90_conflicts.md C8, U12). -/
def Obligations.KnownNamesGetTheirResponses : Prop :=
  let ws := ({} : Config).ws
  Superloop.respond ws Superloop.namePing = [0x50, 0x4F, 0x4E, 0x47, 0x0D, 0x0A] ∧
  Superloop.respond ws (0x20 :: Superloop.namePing ++ [0x20]) = [0x50, 0x4F, 0x4E, 0x47, 0x0D, 0x0A] ∧
  Superloop.respond ws Superloop.nameLedOn = [0x4C, 0x45, 0x44, 0x20, 0x4F, 0x4E, 0x0D, 0x0A] ∧
  Superloop.respond ws Superloop.nameLedOff = [0x4C, 0x45, 0x44, 0x20, 0x4F, 0x46, 0x46, 0x0D, 0x0A] ∧
  Superloop.respond ws Superloop.nameHello =
    [0x48, 0x45, 0x4C, 0x4C, 0x4F, 0x20, 0x57, 0x4F, 0x52, 0x4C, 0x44, 0x0D, 0x0A] ∧
  Superloop.respond ws [] = Superloop.errLine ∧
  Superloop.respond ws (Superloop.namePing ++ [0x58]) = Superloop.errLine ∧
  Superloop.respond ws [0x4C, 0x45, 0x44, 0x4F, 0x4E] = Superloop.errLine ∧
  Superloop.respond ws Superloop.nameDemo = Superloop.errLine ∧
  (∀ payload, payload.count 0x3A#8 < 6 →
    Superloop.respond ws (Superloop.nameDemo ++ 0x28 :: payload ++ [0x29]) = Superloop.errLine) ∧
  (∀ payload, (∃ name ∈ Superloop.fieldNames payload, name ∉ Superloop.demoNames) ∨
      (∃ name ∈ Superloop.demoNames, name ∉ Superloop.fieldNames payload) →
    Superloop.respond ws (Superloop.nameDemo ++ 0x28 :: payload ++ [0x29]) = Superloop.errLine) ∧
  (∀ a b, Superloop.response (.demo a) = Superloop.response (.demo b)) ∧
  (∀ a, ∃ ack, Superloop.response (.demo a) = ack ++ [0x0D, 0x0A] ∧ ∀ x ∈ ack, x.toNat < 0x80 ∧ x ≠ 0x0D ∧ x ≠ 0x0A)
end

