-- ==== Sys2Proof/Laws/Memory.lean ====
section
/-! SUPPORT. The laws of a memory: a read after a write, what a write keeps (the canonical form and the bounds of its space),
and what a slice is. -/

namespace Sys2Proof.Machine

variable {m : Memory} {a b n : Nat} {v : Byte}

@[simp] theorem read_nil (a : Nat) : Memory.read [] a = none := rfl

/-- A read where the write was gives the byte written. -/
@[simp] theorem read_write_same (m : Memory) (a : Nat) (v : Byte) : (m.write a v).read a = some v := by
  induction m with
  | nil => simp [Memory.write, Memory.read]
  | cons c rest ih =>
    obtain ⟨k, w⟩ := c
    simp only [Memory.write]
    split
    · simp [Memory.read]
    · split
      · simp [Memory.read]
      · next h1 h2 => simp [Memory.read, ih, Ne.symm h2]

/-- A write leaves every other address alone. -/
theorem read_write_other (m : Memory) (v : Byte) (h : b ≠ a) : (m.write a v).read b = m.read b := by
  induction m with
  | nil => simp [Memory.write, Memory.read, Ne.symm h]
  | cons c rest ih =>
    obtain ⟨k, w⟩ := c
    simp only [Memory.write]
    split
    · simp [Memory.read, Ne.symm h]
    · split
      · next _ h2 => subst h2; simp [Memory.read, Ne.symm h]
      · simp [Memory.read, ih]

/-- Both at once. -/
theorem read_write (m : Memory) (a b : Nat) (v : Byte) :
    (m.write a v).read b = if b = a then some v else m.read b := by
  split
  · next h => subst h; simp
  · next h => exact read_write_other m v h

/-- The addresses listed after a write. -/
theorem mem_addr_write (m : Memory) (a : Nat) (v : Byte) (k : Nat) :
    k ∈ (m.write a v).map Prod.fst ↔ k = a ∨ k ∈ m.map Prod.fst := by
  induction m with
  | nil => simp [Memory.write]
  | cons c rest ih =>
    obtain ⟨j, w⟩ := c
    simp only [Memory.write]
    split
    · simp
    · split
      · next _ h => subst h; simp
      · simp only [List.map_cons, List.mem_cons, ih]; tauto

/-- A write keeps the canonical form. -/
theorem write_wf (h : m.wf) (a : Nat) (v : Byte) : (m.write a v).wf := by
  induction m with
  | nil => simp [Memory.write, Memory.wf]
  | cons c rest ih =>
    obtain ⟨k, w⟩ := c
    simp only [Memory.wf, List.map_cons, List.pairwise_cons] at h
    simp only [Memory.write]
    split
    · next hlt =>
      simp only [Memory.wf, List.map_cons, List.pairwise_cons, List.mem_cons]
      refine ⟨?_, h.1, h.2⟩
      rintro x (rfl | hx)
      · exact hlt
      · exact lt_trans hlt (h.1 x hx)
    · split
      · next _ he =>
        subst he
        simpa only [Memory.wf, List.map_cons, List.pairwise_cons] using h
      · next h1 h2 =>
        simp only [Memory.wf, List.map_cons, List.pairwise_cons]
        refine ⟨?_, ih h.2⟩
        intro x hx
        rcases (mem_addr_write rest a v x).1 hx with rfl | hx
        · omega
        · exact h.1 x hx

/-- A write below the bound keeps every listed address below it. -/
theorem write_bound (h : ∀ c ∈ m, c.1 < n) (ha : a < n) (v : Byte) : ∀ c ∈ m.write a v, c.1 < n := by
  intro c hc
  have : c.1 ∈ (m.write a v).map Prod.fst := List.mem_map_of_mem hc
  rcases (mem_addr_write m a v c.1).1 this with h1 | h1
  · omega
  · obtain ⟨d, hd, he⟩ := List.mem_map.1 h1
    exact he ▸ h d hd

/-- What stands after a sequence has been written from `a` on. -/
theorem read_writeAll (bs : List Byte) (m : Memory) (a b : Nat) :
    (m.writeAll a bs).read b = if a ≤ b ∧ b < a + bs.length then bs[b - a]? else m.read b := by
  induction bs generalizing m a with
  | nil => simp [Memory.writeAll]
  | cons x xs ih =>
    rw [Memory.writeAll, ih, read_write]
    rcases lt_trichotomy b a with h | rfl | h
    · simp only [List.length_cons]
      rw [if_neg (by omega), if_neg (by omega), if_neg (by omega)]
    · simp
    · have e : b - a = (b - (a + 1)) + 1 := by omega
      simp only [List.length_cons]
      by_cases h2 : b < a + 1 + xs.length
      · rw [if_pos ⟨by omega, h2⟩, if_pos ⟨by omega, by omega⟩, e]; simp
      · rw [if_neg (by omega), if_neg (by omega), if_neg (by omega)]

theorem writeAll_wf (bs : List Byte) (h : m.wf) (a : Nat) : (m.writeAll a bs).wf := by
  induction bs generalizing m a with
  | nil => exact h
  | cons x xs ih => exact ih (write_wf h a x) (a + 1)

theorem writeAll_bound (bs : List Byte) (h : ∀ c ∈ m, c.1 < n) (ha : a + bs.length ≤ n) :
    ∀ c ∈ m.writeAll a bs, c.1 < n := by
  induction bs generalizing m a with
  | nil => exact h
  | cons x xs ih =>
    simp only [List.length_cons] at ha
    exact ih (write_bound h (by omega) x) (by omega)

/-- A slice succeeds exactly when each of its bytes holds a value, and then lists them. -/
theorem slice_ok_iff {l : List Byte} :
    m.slice a n = .ok l ↔ l.length = n ∧ ∀ i < n, m.read (a + i) = l[i]? := by
  induction n generalizing a l with
  | zero =>
    simp only [Memory.slice, Except.ok.injEq]
    constructor
    · rintro rfl; simp
    · rintro ⟨h, -⟩; simp_all
  | succ n ih =>
    rw [Memory.slice]
    cases hr : m.read a with
    | none =>
      simp only [reduceCtorEq, false_iff, not_and, not_forall]
      intro hl
      refine ⟨0, by omega, ?_⟩
      cases l with
      | nil => simp at hl
      | cons x xs => simp [hr]
    | some x =>
      cases hs : m.slice (a + 1) n with
      | error e =>
        simp only [reduceCtorEq, false_iff, not_and]
        intro hl hall
        cases l with
        | nil => simp at hl
        | cons y ys =>
          have : m.slice (a + 1) n = .ok ys := by
            rw [ih]
            refine ⟨by simpa using hl, fun i hi => ?_⟩
            have := hall (i + 1) (by omega)
            rw [show a + 1 + i = a + (i + 1) by omega]
            simpa using this
          simp [hs] at this
      | ok ys =>
        have hys := ih.1 hs
        simp only [Except.ok.injEq]
        constructor
        · rintro rfl
          refine ⟨by simp [hys.1], fun i hi => ?_⟩
          cases i with
          | zero => simp [hr]
          | succ i => rw [show a + (i + 1) = a + 1 + i by omega]; simpa using hys.2 i (by omega)
        · rintro ⟨hl, hall⟩
          apply List.ext_getElem?
          intro i
          by_cases hi : i < n + 1
          · rw [← hall i hi]
            cases i with
            | zero => simp [hr]
            | succ i => rw [show a + (i + 1) = a + 1 + i by omega]; simpa using (hys.2 i (by omega)).symm
          · rw [List.getElem?_eq_none (by simp [hys.1]; omega), List.getElem?_eq_none (by omega)]

/-- A slice whose bytes all hold a value succeeds. -/
theorem slice_exists (h : ∀ i < n, (m.read (a + i)).isSome = true) : ∃ l, m.slice a n = .ok l := by
  induction n generalizing a with
  | zero => exact ⟨[], rfl⟩
  | succ n ih =>
    obtain ⟨x, hx⟩ := Option.isSome_iff_exists.1 (h 0 (by omega))
    obtain ⟨l, hl⟩ := ih (a := a + 1) fun i hi => by
      rw [show a + 1 + i = a + (i + 1) by omega]
      exact h (i + 1) (by omega)
    exact ⟨x :: l, by simp [Memory.slice, by simpa using hx, hl]⟩

/-! ## The transmit images -/

@[simp] theorem addrBytes_length (f : Bool) (a page : Nat) : (addrBytes f a page).length = a := by
  cases f <;> simp [addrBytes]

@[simp] theorem frameReset_length (c : Config) : (frameReset c).length = 1 := rfl

theorem frameReadId_length (c : Config) (h : 1 ≤ c.idLen) : (frameReadId c).length = c.idLen := by
  simp [frameReadId]; omega

theorem frameReadPage_length (c : Config) (l : PageLayout) (page : Nat) :
    (frameReadPage c l page).length = l.frameLen := by
  simp [frameReadPage, PageLayout.frameLen]; omega

@[simp] theorem misoBytes_length (n c : Nat) (bytes : List Byte) : (misoBytes n c bytes).length = n := by
  simp [misoBytes]

end Sys2Proof.Machine
end

