-- ==== Sys2Proof/Laws/Ring.lean ====
section
/-! SUPPORT. The arithmetic of the ring, put into forms that linear arithmetic reads: an index below the number of slots has
its successor and its distances given by a case distinction with no division in it. -/

namespace Sys2Proof.Machine

variable {n a b c i k : Nat}

theorem rbN_pos (c : Config) : 0 < c.rbN := Nat.two_pow_pos _

theorem two_le_rbN (c : Config) (h : c.wf = true) : 2 ≤ c.rbN := by
  have h1 : 1 ≤ c.idxW := by
    simp only [Config.wf, Config.ringOk, Bool.and_eq_true, decide_eq_true_eq] at h
    exact h.1.1
  calc 2 = 2 ^ 1 := rfl
    _ ≤ 2 ^ c.idxW := Nat.pow_le_pow_right (by omega) h1

theorem ringSucc_lt (h : 0 < n) : ringSucc n i < n := Nat.mod_lt _ h

theorem ringSucc_eq (h : i < n) : ringSucc n i = if i + 1 = n then 0 else i + 1 := by
  rw [ringSucc]
  split
  · next e => rw [e, Nat.mod_self]
  · exact Nat.mod_eq_of_lt (by omega)

theorem ringDist_lt (h : 0 < n) : ringDist n a b < n := Nat.mod_lt _ h

theorem ringDist_eq (ha : a < n) (hb : b < n) : ringDist n a b = if a ≤ b then b - a else b + n - a := by
  rw [ringDist, Nat.mod_eq_of_lt ha]
  split
  · next h =>
    have e : b + (n - a) = (b - a) + n := by omega
    rw [e, Nat.add_mod_right, Nat.mod_eq_of_lt (by omega)]
  · rw [Nat.mod_eq_of_lt (by omega)]; omega

theorem ringDist_self (h : 0 < n) (a : Nat) : ringDist n a a = 0 := by
  have hm := Nat.mod_lt a h
  have e : a + (n - a % n) = n * (a / n) + n := by
    have := Nat.div_add_mod a n
    omega
  rw [ringDist, e, Nat.add_mod_right, Nat.mul_mod_right]

@[simp] theorem ringDist_rbN_self (c : Config) (a : Nat) : ringDist c.rbN a a = 0 := ringDist_self (rbN_pos c) a

theorem ringDist_eq_zero (ha : a < n) (hb : b < n) : ringDist n a b = 0 ↔ a = b := by
  rw [ringDist_eq ha hb]; split <;> omega

/-- An index advanced by at most `n` steps. -/
theorem add_mod_eq (ha : a < n) (hk : k ≤ n) : (a + k) % n = if a + k < n then a + k else a + k - n := by
  split
  · next h => exact Nat.mod_eq_of_lt h
  · have e : a + k = (a + k - n) + n := by omega
    rw [e, Nat.add_mod_right]
    rcases Nat.lt_or_ge (a + k - n) n with h | h
    · rw [Nat.mod_eq_of_lt h]; omega
    · omega

/-- The distance to an index `k` steps on. -/
theorem ringDist_add (ha : a < n) (hk : k < n) : ringDist n a ((a + k) % n) = k := by
  have hb : (a + k) % n < n := Nat.mod_lt _ (by omega)
  rw [ringDist_eq ha hb, add_mod_eq ha (by omega)]
  split <;> split <;> omega

end Sys2Proof.Machine
end

