-- ==== Sys2Proof/Laws/State.lean ====
section
/-! SUPPORT. One lemma for each field of each named update of the state, so that no proof unfolds a record update. A group of
fields an update does not touch has one lemma for the group. -/

namespace Sys2Proof.Machine

/-! ### raise -/

@[simp] theorem raise_cfg (e : Event) (s : State) : (s.raise e).cfg = s.cfg := rfl
@[simp] theorem raise_rb (e : Event) (s : State) : (s.raise e).rb = s.rb := rfl
@[simp] theorem raise_lf (e : Event) (s : State) : (s.raise e).lf = s.lf := rfl
@[simp] theorem raise_ns (e : Event) (s : State) : (s.raise e).ns = s.ns := rfl
@[simp] theorem raise_cons (e : Event) (s : State) : (s.raise e).cons = s.cons := rfl
@[simp] theorem raise_env (e : Event) (s : State) : (s.raise e).env = s.env := rfl
@[simp] theorem raise_history (e : Event) (s : State) : (s.raise e).history = s.history ++ [e] := rfl

/-! ### the consumer's place -/

@[simp] theorem begin_cfg (q : Seq) (s : State) : (s.begin q).cfg = s.cfg := rfl
@[simp] theorem begin_rb (q : Seq) (s : State) : (s.begin q).rb = s.rb := rfl
@[simp] theorem begin_lf (q : Seq) (s : State) : (s.begin q).lf = s.lf := rfl
@[simp] theorem begin_ns (q : Seq) (s : State) : (s.begin q).ns = s.ns := rfl
@[simp] theorem begin_history (q : Seq) (s : State) : (s.begin q).history = s.history := rfl
@[simp] theorem begin_env (q : Seq) (s : State) : (s.begin q).env = s.env := rfl
@[simp] theorem begin_cBusy (q : Seq) (s : State) : (s.begin q).cons.cBusy = true := rfl
@[simp] theorem begin_halted (q : Seq) (s : State) : (s.begin q).cons.halted = s.cons.halted := rfl
@[simp] theorem begin_seq (q : Seq) (s : State) : (s.begin q).cons.seq = q := rfl

@[simp] theorem goto_cfg (q : Seq) (s : State) : (s.goto q).cfg = s.cfg := rfl
@[simp] theorem goto_rb (q : Seq) (s : State) : (s.goto q).rb = s.rb := rfl
@[simp] theorem goto_lf (q : Seq) (s : State) : (s.goto q).lf = s.lf := rfl
@[simp] theorem goto_ns (q : Seq) (s : State) : (s.goto q).ns = s.ns := rfl
@[simp] theorem goto_history (q : Seq) (s : State) : (s.goto q).history = s.history := rfl
@[simp] theorem goto_env (q : Seq) (s : State) : (s.goto q).env = s.env := rfl
@[simp] theorem goto_cBusy (q : Seq) (s : State) : (s.goto q).cons.cBusy = s.cons.cBusy := rfl
@[simp] theorem goto_halted (q : Seq) (s : State) : (s.goto q).cons.halted = s.cons.halted := rfl
@[simp] theorem goto_seq (q : Seq) (s : State) : (s.goto q).cons.seq = q := rfl

@[simp] theorem finish_cfg (s : State) : (s.finish).cfg = s.cfg := rfl
@[simp] theorem finish_rb (s : State) : (s.finish).rb = s.rb := rfl
@[simp] theorem finish_lf (s : State) : (s.finish).lf = s.lf := rfl
@[simp] theorem finish_ns (s : State) : (s.finish).ns = s.ns := rfl
@[simp] theorem finish_history (s : State) : (s.finish).history = s.history := rfl
@[simp] theorem finish_env (s : State) : (s.finish).env = s.env := rfl
@[simp] theorem finish_cBusy (s : State) : (s.finish).cons.cBusy = false := rfl
@[simp] theorem finish_halted (s : State) : (s.finish).cons.halted = s.cons.halted := rfl
@[simp] theorem finish_seq (s : State) : (s.finish).cons.seq = .idle := rfl

/-! ### publication of an index -/

@[simp] theorem publishHead_cfg (h : Nat) (s : State) : (s.publishHead h).cfg = s.cfg := rfl
@[simp] theorem publishHead_lf (h : Nat) (s : State) : (s.publishHead h).lf = s.lf := rfl
@[simp] theorem publishHead_ns (h : Nat) (s : State) : (s.publishHead h).ns = s.ns := rfl
@[simp] theorem publishHead_cons (h : Nat) (s : State) : (s.publishHead h).cons = s.cons := rfl
@[simp] theorem publishHead_history (h : Nat) (s : State) : (s.publishHead h).history = s.history := rfl
@[simp] theorem publishHead_env (h : Nat) (s : State) : (s.publishHead h).env = s.env := rfl
@[simp] theorem publishHead_mem (h : Nat) (s : State) : (s.publishHead h).rb.mem = s.rb.mem := rfl
@[simp] theorem publishHead_head (h : Nat) (s : State) : (s.publishHead h).rb.head = h := rfl
@[simp] theorem publishHead_tail (h : Nat) (s : State) : (s.publishHead h).rb.tail = s.rb.tail := rfl
@[simp] theorem publishHead_headC (h : Nat) (s : State) : (s.publishHead h).rb.headC = if s.cfg.syncLag = .zero then h else s.rb.headC := rfl
@[simp] theorem publishHead_tailP (h : Nat) (s : State) : (s.publishHead h).rb.tailP = s.rb.tailP := rfl
@[simp] theorem publishHead_rValid (h : Nat) (s : State) : (s.publishHead h).rb.rValid = s.rb.rValid := rfl
@[simp] theorem publishHead_rData (h : Nat) (s : State) : (s.publishHead h).rb.rData = s.rb.rData := rfl
@[simp] theorem publishHead_wOvf (h : Nat) (s : State) : (s.publishHead h).rb.wOvf = s.rb.wOvf := rfl

@[simp] theorem publishTail_cfg (t : Nat) (s : State) : (s.publishTail t).cfg = s.cfg := rfl
@[simp] theorem publishTail_lf (t : Nat) (s : State) : (s.publishTail t).lf = s.lf := rfl
@[simp] theorem publishTail_ns (t : Nat) (s : State) : (s.publishTail t).ns = s.ns := rfl
@[simp] theorem publishTail_cons (t : Nat) (s : State) : (s.publishTail t).cons = s.cons := rfl
@[simp] theorem publishTail_history (t : Nat) (s : State) : (s.publishTail t).history = s.history := rfl
@[simp] theorem publishTail_env (t : Nat) (s : State) : (s.publishTail t).env = s.env := rfl
@[simp] theorem publishTail_mem (t : Nat) (s : State) : (s.publishTail t).rb.mem = s.rb.mem := rfl
@[simp] theorem publishTail_head (t : Nat) (s : State) : (s.publishTail t).rb.head = s.rb.head := rfl
@[simp] theorem publishTail_tail (t : Nat) (s : State) : (s.publishTail t).rb.tail = t := rfl
@[simp] theorem publishTail_headC (t : Nat) (s : State) : (s.publishTail t).rb.headC = s.rb.headC := rfl
@[simp] theorem publishTail_tailP (t : Nat) (s : State) : (s.publishTail t).rb.tailP = if s.cfg.syncLag = .zero then t else s.rb.tailP := rfl
@[simp] theorem publishTail_rValid (t : Nat) (s : State) : (s.publishTail t).rb.rValid = s.rb.rValid := rfl
@[simp] theorem publishTail_rData (t : Nat) (s : State) : (s.publishTail t).rb.rData = s.rb.rData := rfl
@[simp] theorem publishTail_wOvf (t : Nat) (s : State) : (s.publishTail t).rb.wOvf = s.rb.wOvf := rfl

/-! ### the pulse -/

@[simp] theorem lowerPulse_cfg (s : State) : (s.lowerPulse).cfg = s.cfg := rfl
@[simp] theorem lowerPulse_lf (s : State) : (s.lowerPulse).lf = s.lf := rfl
@[simp] theorem lowerPulse_ns (s : State) : (s.lowerPulse).ns = s.ns := rfl
@[simp] theorem lowerPulse_cons (s : State) : (s.lowerPulse).cons = s.cons := rfl
@[simp] theorem lowerPulse_history (s : State) : (s.lowerPulse).history = s.history := rfl
@[simp] theorem lowerPulse_env (s : State) : (s.lowerPulse).env = s.env := rfl
@[simp] theorem lowerPulse_mem (s : State) : (s.lowerPulse).rb.mem = s.rb.mem := rfl
@[simp] theorem lowerPulse_head (s : State) : (s.lowerPulse).rb.head = s.rb.head := rfl
@[simp] theorem lowerPulse_tail (s : State) : (s.lowerPulse).rb.tail = s.rb.tail := rfl
@[simp] theorem lowerPulse_headC (s : State) : (s.lowerPulse).rb.headC = s.rb.headC := rfl
@[simp] theorem lowerPulse_tailP (s : State) : (s.lowerPulse).rb.tailP = s.rb.tailP := rfl
@[simp] theorem lowerPulse_rValid (s : State) : (s.lowerPulse).rb.rValid = s.rb.rValid := rfl
@[simp] theorem lowerPulse_rData (s : State) : (s.lowerPulse).rb.rData = s.rb.rData := rfl
@[simp] theorem lowerPulse_wOvf (s : State) : (s.lowerPulse).rb.wOvf = false := rfl

/-! ### the model's own fields -/

@[simp] theorem spend_cfg (n : Nat) (s : State) : (s.spend n).cfg = s.cfg := rfl
@[simp] theorem spend_rb (n : Nat) (s : State) : (s.spend n).rb = s.rb := rfl
@[simp] theorem spend_lf (n : Nat) (s : State) : (s.spend n).lf = s.lf := rfl
@[simp] theorem spend_ns (n : Nat) (s : State) : (s.spend n).ns = s.ns := rfl
@[simp] theorem spend_cons (n : Nat) (s : State) : (s.spend n).cons = s.cons := rfl
@[simp] theorem spend_history (n : Nat) (s : State) : (s.spend n).history = s.history := rfl
@[simp] theorem spend_inputs (n : Nat) (s : State) : (s.spend n).env.inputs = s.env.inputs := rfl
@[simp] theorem spend_cycle (n : Nat) (s : State) : (s.spend n).env.cycle = s.env.cycle := rfl
@[simp] theorem spend_answers (n : Nat) (s : State) : (s.spend n).env.answers = s.env.answers := rfl
@[simp] theorem spend_freeCount (n : Nat) (s : State) : (s.spend n).env.freeCount = s.env.freeCount + n := rfl

@[simp] theorem answered_cfg (s : State) : (s.answered).cfg = s.cfg := rfl
@[simp] theorem answered_rb (s : State) : (s.answered).rb = s.rb := rfl
@[simp] theorem answered_lf (s : State) : (s.answered).lf = s.lf := rfl
@[simp] theorem answered_ns (s : State) : (s.answered).ns = s.ns := rfl
@[simp] theorem answered_cons (s : State) : (s.answered).cons = s.cons := rfl
@[simp] theorem answered_history (s : State) : (s.answered).history = s.history := rfl
@[simp] theorem answered_inputs (s : State) : (s.answered).env.inputs = s.env.inputs := rfl
@[simp] theorem answered_cycle (s : State) : (s.answered).env.cycle = s.env.cycle := rfl
@[simp] theorem answered_answers (s : State) : (s.answered).env.answers = s.env.answers.tail := rfl
@[simp] theorem answered_freeCount (s : State) : (s.answered).env.freeCount = s.env.freeCount + 1 := rfl

@[simp] theorem popInput_cfg (s : State) : (s.popInput).cfg = s.cfg := rfl
@[simp] theorem popInput_rb (s : State) : (s.popInput).rb = s.rb := rfl
@[simp] theorem popInput_lf (s : State) : (s.popInput).lf = s.lf := rfl
@[simp] theorem popInput_ns (s : State) : (s.popInput).ns = s.ns := rfl
@[simp] theorem popInput_cons (s : State) : (s.popInput).cons = s.cons := rfl
@[simp] theorem popInput_history (s : State) : (s.popInput).history = s.history := rfl
@[simp] theorem popInput_inputs (s : State) : (s.popInput).env.inputs = s.upcoming.tail := rfl
@[simp] theorem popInput_cycle (s : State) : (s.popInput).env.cycle = s.env.cycle := rfl
@[simp] theorem popInput_answers (s : State) : (s.popInput).env.answers = s.env.answers := rfl
@[simp] theorem popInput_freeCount (s : State) : (s.popInput).env.freeCount = s.env.freeCount := rfl

@[simp] theorem putBack_cfg (i : Input) (s : State) : (s.putBack i).cfg = s.cfg := rfl
@[simp] theorem putBack_rb (i : Input) (s : State) : (s.putBack i).rb = s.rb := rfl
@[simp] theorem putBack_lf (i : Input) (s : State) : (s.putBack i).lf = s.lf := rfl
@[simp] theorem putBack_ns (i : Input) (s : State) : (s.putBack i).ns = s.ns := rfl
@[simp] theorem putBack_cons (i : Input) (s : State) : (s.putBack i).cons = s.cons := rfl
@[simp] theorem putBack_history (i : Input) (s : State) : (s.putBack i).history = s.history := rfl
@[simp] theorem putBack_inputs (i : Input) (s : State) : (s.putBack i).env.inputs = i :: s.env.inputs := rfl
@[simp] theorem putBack_cycle (i : Input) (s : State) : (s.putBack i).env.cycle = s.env.cycle := rfl
@[simp] theorem putBack_answers (i : Input) (s : State) : (s.putBack i).env.answers = s.env.answers := rfl
@[simp] theorem putBack_freeCount (i : Input) (s : State) : (s.putBack i).env.freeCount = s.env.freeCount := rfl

/-! ### reset -/

@[simp] theorem resetBlock_cfg (s : State) : s.resetBlock.cfg = s.cfg := rfl
@[simp] theorem resetBlock_rb (s : State) : s.resetBlock.rb = State.reset.rb := rfl
@[simp] theorem resetBlock_lf (s : State) : s.resetBlock.lf = State.reset.lf := rfl
@[simp] theorem resetBlock_ns (s : State) : s.resetBlock.ns = State.reset.ns := rfl
@[simp] theorem resetBlock_cons (s : State) : s.resetBlock.cons = State.reset.cons := rfl
@[simp] theorem resetBlock_history (s : State) : s.resetBlock.history = State.reset.history := rfl
@[simp] theorem resetBlock_env (s : State) : s.resetBlock.env = s.env := rfl

/-! ### one byte of a memory -/

@[simp] theorem memWrite_RB_cfg (a : Nat) (v : Byte) (s : State) : (memWrite .RB a v s).cfg = s.cfg := rfl
@[simp] theorem memWrite_RB_lf (a : Nat) (v : Byte) (s : State) : (memWrite .RB a v s).lf = s.lf := rfl
@[simp] theorem memWrite_RB_ns (a : Nat) (v : Byte) (s : State) : (memWrite .RB a v s).ns = s.ns := rfl
@[simp] theorem memWrite_RB_cons (a : Nat) (v : Byte) (s : State) : (memWrite .RB a v s).cons = s.cons := rfl
@[simp] theorem memWrite_RB_history (a : Nat) (v : Byte) (s : State) : (memWrite .RB a v s).history = s.history := rfl
@[simp] theorem memWrite_RB_env (a : Nat) (v : Byte) (s : State) : (memWrite .RB a v s).env = s.env := rfl
@[simp] theorem memWrite_RB_mem (a : Nat) (v : Byte) (s : State) : (memWrite .RB a v s).rb.mem = s.rb.mem.write a v := rfl
@[simp] theorem memWrite_RB_head (a : Nat) (v : Byte) (s : State) : (memWrite .RB a v s).rb.head = s.rb.head := rfl
@[simp] theorem memWrite_RB_tail (a : Nat) (v : Byte) (s : State) : (memWrite .RB a v s).rb.tail = s.rb.tail := rfl
@[simp] theorem memWrite_RB_headC (a : Nat) (v : Byte) (s : State) : (memWrite .RB a v s).rb.headC = s.rb.headC := rfl
@[simp] theorem memWrite_RB_tailP (a : Nat) (v : Byte) (s : State) : (memWrite .RB a v s).rb.tailP = s.rb.tailP := rfl
@[simp] theorem memWrite_RB_rValid (a : Nat) (v : Byte) (s : State) : (memWrite .RB a v s).rb.rValid = s.rb.rValid := rfl
@[simp] theorem memWrite_RB_rData (a : Nat) (v : Byte) (s : State) : (memWrite .RB a v s).rb.rData = s.rb.rData := rfl
@[simp] theorem memWrite_RB_wOvf (a : Nat) (v : Byte) (s : State) : (memWrite .RB a v s).rb.wOvf = s.rb.wOvf := rfl

@[simp] theorem memWrite_LB_cfg (a : Nat) (v : Byte) (s : State) : (memWrite .LB a v s).cfg = s.cfg := rfl
@[simp] theorem memWrite_LB_rb (a : Nat) (v : Byte) (s : State) : (memWrite .LB a v s).rb = s.rb := rfl
@[simp] theorem memWrite_LB_ns (a : Nat) (v : Byte) (s : State) : (memWrite .LB a v s).ns = s.ns := rfl
@[simp] theorem memWrite_LB_cons (a : Nat) (v : Byte) (s : State) : (memWrite .LB a v s).cons = s.cons := rfl
@[simp] theorem memWrite_LB_history (a : Nat) (v : Byte) (s : State) : (memWrite .LB a v s).history = s.history := rfl
@[simp] theorem memWrite_LB_env (a : Nat) (v : Byte) (s : State) : (memWrite .LB a v s).env = s.env := rfl
@[simp] theorem memWrite_LB_line (a : Nat) (v : Byte) (s : State) : (memWrite .LB a v s).lf.line = s.lf.line.write a v := rfl
@[simp] theorem memWrite_LB_idx (a : Nat) (v : Byte) (s : State) : (memWrite .LB a v s).lf.idx = s.lf.idx := rfl

@[simp] theorem memWrite_XB_cfg (a : Nat) (v : Byte) (s : State) : (memWrite .XB a v s).cfg = s.cfg := rfl
@[simp] theorem memWrite_XB_rb (a : Nat) (v : Byte) (s : State) : (memWrite .XB a v s).rb = s.rb := rfl
@[simp] theorem memWrite_XB_lf (a : Nat) (v : Byte) (s : State) : (memWrite .XB a v s).lf = s.lf := rfl
@[simp] theorem memWrite_XB_cons (a : Nat) (v : Byte) (s : State) : (memWrite .XB a v s).cons = s.cons := rfl
@[simp] theorem memWrite_XB_history (a : Nat) (v : Byte) (s : State) : (memWrite .XB a v s).history = s.history := rfl
@[simp] theorem memWrite_XB_env (a : Nat) (v : Byte) (s : State) : (memWrite .XB a v s).env = s.env := rfl
@[simp] theorem memWrite_XB_nsState (a : Nat) (v : Byte) (s : State) : (memWrite .XB a v s).ns.nsState = s.ns.nsState := rfl
@[simp] theorem memWrite_XB_csN (a : Nat) (v : Byte) (s : State) : (memWrite .XB a v s).ns.csN = s.ns.csN := rfl
@[simp] theorem memWrite_XB_xbuf (a : Nat) (v : Byte) (s : State) : (memWrite .XB a v s).ns.xbuf = s.ns.xbuf.write a v := rfl
@[simp] theorem memWrite_XB_xlen (a : Nat) (v : Byte) (s : State) : (memWrite .XB a v s).ns.xlen = s.ns.xlen := rfl
@[simp] theorem memWrite_XB_settleCnt (a : Nat) (v : Byte) (s : State) : (memWrite .XB a v s).ns.settleCnt = s.ns.settleCnt := rfl
@[simp] theorem memWrite_XB_nandStatus (a : Nat) (v : Byte) (s : State) : (memWrite .XB a v s).ns.nandStatus = s.ns.nandStatus := rfl
@[simp] theorem memWrite_XB_nandMfr (a : Nat) (v : Byte) (s : State) : (memWrite .XB a v s).ns.nandMfr = s.ns.nandMfr := rfl
@[simp] theorem memWrite_XB_nandDev (a : Nat) (v : Byte) (s : State) : (memWrite .XB a v s).ns.nandDev = s.ns.nandDev := rfl
@[simp] theorem memWrite_XB_idValid (a : Nat) (v : Byte) (s : State) : (memWrite .XB a v s).ns.idValid = s.ns.idValid := rfl

/-! ### PUSH and POP -/

@[simp] theorem acceptPush_cfg (b : Byte) (s : State) : (acceptPush b s).cfg = s.cfg := rfl
@[simp] theorem acceptPush_lf (b : Byte) (s : State) : (acceptPush b s).lf = s.lf := rfl
@[simp] theorem acceptPush_ns (b : Byte) (s : State) : (acceptPush b s).ns = s.ns := rfl
@[simp] theorem acceptPush_cons (b : Byte) (s : State) : (acceptPush b s).cons = s.cons := rfl
@[simp] theorem acceptPush_env (b : Byte) (s : State) : (acceptPush b s).env = s.env := rfl
@[simp] theorem acceptPush_mem (b : Byte) (s : State) : (acceptPush b s).rb.mem = s.rb.mem.write s.rb.head b := rfl
@[simp] theorem acceptPush_head (b : Byte) (s : State) : (acceptPush b s).rb.head = ringSucc s.cfg.rbN s.rb.head := rfl
@[simp] theorem acceptPush_tail (b : Byte) (s : State) : (acceptPush b s).rb.tail = s.rb.tail := rfl
@[simp] theorem acceptPush_headC (b : Byte) (s : State) : (acceptPush b s).rb.headC = if s.cfg.syncLag = .zero then ringSucc s.cfg.rbN s.rb.head else s.rb.headC := rfl
@[simp] theorem acceptPush_tailP (b : Byte) (s : State) : (acceptPush b s).rb.tailP = s.rb.tailP := rfl
@[simp] theorem acceptPush_rValid (b : Byte) (s : State) : (acceptPush b s).rb.rValid = s.rb.rValid := rfl
@[simp] theorem acceptPush_rData (b : Byte) (s : State) : (acceptPush b s).rb.rData = s.rb.rData := rfl
@[simp] theorem acceptPush_wOvf (b : Byte) (s : State) : (acceptPush b s).rb.wOvf = false := rfl
@[simp] theorem acceptPush_history (b : Byte) (s : State) : (acceptPush b s).history = s.history ++ [.pushed b] := rfl

@[simp] theorem popNone_cfg (s : State) : (popNone s).cfg = s.cfg := rfl
@[simp] theorem popNone_lf (s : State) : (popNone s).lf = s.lf := rfl
@[simp] theorem popNone_ns (s : State) : (popNone s).ns = s.ns := rfl
@[simp] theorem popNone_cons (s : State) : (popNone s).cons = s.cons := rfl
@[simp] theorem popNone_mem (s : State) : (popNone s).rb.mem = s.rb.mem := rfl
@[simp] theorem popNone_head (s : State) : (popNone s).rb.head = s.rb.head := rfl
@[simp] theorem popNone_tail (s : State) : (popNone s).rb.tail = s.rb.tail := rfl
@[simp] theorem popNone_headC (s : State) : (popNone s).rb.headC = s.rb.headC := rfl
@[simp] theorem popNone_tailP (s : State) : (popNone s).rb.tailP = s.rb.tailP := rfl
@[simp] theorem popNone_rValid (s : State) : (popNone s).rb.rValid = false := rfl
@[simp] theorem popNone_rData (s : State) : (popNone s).rb.rData = s.freeByte := rfl
@[simp] theorem popNone_wOvf (s : State) : (popNone s).rb.wOvf = s.rb.wOvf := rfl
@[simp] theorem popNone_history (s : State) : (popNone s).history = s.history ++ [.popEmpty] := rfl
@[simp] theorem popNone_inputs (s : State) : (popNone s).env.inputs = s.env.inputs := rfl
@[simp] theorem popNone_cycle (s : State) : (popNone s).env.cycle = s.env.cycle := rfl
@[simp] theorem popNone_answers (s : State) : (popNone s).env.answers = s.env.answers := rfl
@[simp] theorem popNone_freeCount (s : State) : (popNone s).env.freeCount = s.env.freeCount + 1 := rfl

@[simp] theorem popSome_cfg (b : Byte) (s : State) : (popSome b s).cfg = s.cfg := rfl
@[simp] theorem popSome_lf (b : Byte) (s : State) : (popSome b s).lf = s.lf := rfl
@[simp] theorem popSome_ns (b : Byte) (s : State) : (popSome b s).ns = s.ns := rfl
@[simp] theorem popSome_cons (b : Byte) (s : State) : (popSome b s).cons = s.cons := rfl
@[simp] theorem popSome_env (b : Byte) (s : State) : (popSome b s).env = s.env := rfl
@[simp] theorem popSome_mem (b : Byte) (s : State) : (popSome b s).rb.mem = s.rb.mem := rfl
@[simp] theorem popSome_head (b : Byte) (s : State) : (popSome b s).rb.head = s.rb.head := rfl
@[simp] theorem popSome_tail (b : Byte) (s : State) : (popSome b s).rb.tail = ringSucc s.cfg.rbN s.rb.tail := rfl
@[simp] theorem popSome_headC (b : Byte) (s : State) : (popSome b s).rb.headC = s.rb.headC := rfl
@[simp] theorem popSome_tailP (b : Byte) (s : State) : (popSome b s).rb.tailP = if s.cfg.syncLag = .zero then ringSucc s.cfg.rbN s.rb.tail else s.rb.tailP := rfl
@[simp] theorem popSome_rValid (b : Byte) (s : State) : (popSome b s).rb.rValid = true := rfl
@[simp] theorem popSome_rData (b : Byte) (s : State) : (popSome b s).rb.rData = b := rfl
@[simp] theorem popSome_wOvf (b : Byte) (s : State) : (popSome b s).rb.wOvf = s.rb.wOvf := rfl
@[simp] theorem popSome_history (b : Byte) (s : State) : (popSome b s).history = s.history ++ [.popped b] := rfl

/-! ### errors -/

@[simp] theorem overflow_cfg (b : Byte) (s : State) : (enterError (.overflow b) s).cfg = s.cfg := rfl
@[simp] theorem overflow_lf (b : Byte) (s : State) : (enterError (.overflow b) s).lf = s.lf := rfl
@[simp] theorem overflow_ns (b : Byte) (s : State) : (enterError (.overflow b) s).ns = s.ns := rfl
@[simp] theorem overflow_cons (b : Byte) (s : State) : (enterError (.overflow b) s).cons = s.cons := rfl
@[simp] theorem overflow_env (b : Byte) (s : State) : (enterError (.overflow b) s).env = s.env := rfl
@[simp] theorem overflow_mem (b : Byte) (s : State) : (enterError (.overflow b) s).rb.mem = s.rb.mem := rfl
@[simp] theorem overflow_head (b : Byte) (s : State) : (enterError (.overflow b) s).rb.head = s.rb.head := rfl
@[simp] theorem overflow_tail (b : Byte) (s : State) : (enterError (.overflow b) s).rb.tail = s.rb.tail := rfl
@[simp] theorem overflow_headC (b : Byte) (s : State) : (enterError (.overflow b) s).rb.headC = s.rb.headC := rfl
@[simp] theorem overflow_tailP (b : Byte) (s : State) : (enterError (.overflow b) s).rb.tailP = s.rb.tailP := rfl
@[simp] theorem overflow_rValid (b : Byte) (s : State) : (enterError (.overflow b) s).rb.rValid = s.rb.rValid := rfl
@[simp] theorem overflow_rData (b : Byte) (s : State) : (enterError (.overflow b) s).rb.rData = s.rb.rData := rfl
@[simp] theorem overflow_wOvf (b : Byte) (s : State) : (enterError (.overflow b) s).rb.wOvf = true := rfl
@[simp] theorem overflow_history (b : Byte) (s : State) : (enterError (.overflow b) s).history = s.history ++ [.overflow b] := rfl

@[simp] theorem busError_cfg (e : Nat) (s : State) : (enterError (.busError e) s).cfg = s.cfg := rfl
@[simp] theorem busError_rb (e : Nat) (s : State) : (enterError (.busError e) s).rb = s.rb := rfl
@[simp] theorem busError_lf (e : Nat) (s : State) : (enterError (.busError e) s).lf = s.lf := rfl
@[simp] theorem busError_nsState (e : Nat) (s : State) : (enterError (.busError e) s).ns.nsState = s.ns.nsState := rfl
@[simp] theorem busError_csN (e : Nat) (s : State) : (enterError (.busError e) s).ns.csN = s.ns.csN := rfl
@[simp] theorem busError_xbuf (e : Nat) (s : State) : (enterError (.busError e) s).ns.xbuf = s.ns.xbuf := rfl
@[simp] theorem busError_xlen (e : Nat) (s : State) : (enterError (.busError e) s).ns.xlen = s.ns.xlen := rfl
@[simp] theorem busError_settleCnt (e : Nat) (s : State) : (enterError (.busError e) s).ns.settleCnt = s.ns.settleCnt := rfl
@[simp] theorem busError_nandStatus (e : Nat) (s : State) : (enterError (.busError e) s).ns.nandStatus = .err := rfl
@[simp] theorem busError_nandMfr (e : Nat) (s : State) : (enterError (.busError e) s).ns.nandMfr = s.freeByte := rfl
@[simp] theorem busError_nandDev (e : Nat) (s : State) : (enterError (.busError e) s).ns.nandDev = (s.spend 1).freeByte := rfl
@[simp] theorem busError_idValid (e : Nat) (s : State) : (enterError (.busError e) s).ns.idValid = false := rfl
@[simp] theorem busError_cBusy (e : Nat) (s : State) : (enterError (.busError e) s).cons.cBusy = false := rfl
@[simp] theorem busError_halted (e : Nat) (s : State) : (enterError (.busError e) s).cons.halted = s.cons.halted := rfl
@[simp] theorem busError_seq (e : Nat) (s : State) : (enterError (.busError e) s).cons.seq = .idle := rfl
@[simp] theorem busError_history (e : Nat) (s : State) : (enterError (.busError e) s).history = s.history ++ [.nandDone (.busError e)] := rfl
@[simp] theorem busError_inputs (e : Nat) (s : State) : (enterError (.busError e) s).env.inputs = s.env.inputs := rfl
@[simp] theorem busError_cycle (e : Nat) (s : State) : (enterError (.busError e) s).env.cycle = s.env.cycle := rfl
@[simp] theorem busError_answers (e : Nat) (s : State) : (enterError (.busError e) s).env.answers = s.env.answers := rfl
@[simp] theorem busError_freeCount (e : Nat) (s : State) : (enterError (.busError e) s).env.freeCount = s.env.freeCount + 2 := rfl

/-! ### LF -/

@[simp] theorem storeLine_cfg (b : Byte) (s : State) : (storeLine b s).cfg = s.cfg := rfl
@[simp] theorem storeLine_rb (b : Byte) (s : State) : (storeLine b s).rb = s.rb := rfl
@[simp] theorem storeLine_ns (b : Byte) (s : State) : (storeLine b s).ns = s.ns := rfl
@[simp] theorem storeLine_cons (b : Byte) (s : State) : (storeLine b s).cons = s.cons := rfl
@[simp] theorem storeLine_history (b : Byte) (s : State) : (storeLine b s).history = s.history := rfl
@[simp] theorem storeLine_env (b : Byte) (s : State) : (storeLine b s).env = s.env := rfl
@[simp] theorem storeLine_line (b : Byte) (s : State) : (storeLine b s).lf.line = s.lf.line.write s.lf.idx b := rfl
@[simp] theorem storeLine_idx (b : Byte) (s : State) : (storeLine b s).lf.idx = s.lf.idx + 1 := rfl

/-! ### NS -/

@[simp] theorem startNand_cfg (op : NandOp) (image : List Byte) (s : State) : (startNand op image s).cfg = s.cfg := rfl
@[simp] theorem startNand_rb (op : NandOp) (image : List Byte) (s : State) : (startNand op image s).rb = s.rb := rfl
@[simp] theorem startNand_lf (op : NandOp) (image : List Byte) (s : State) : (startNand op image s).lf = s.lf := rfl
@[simp] theorem startNand_history (op : NandOp) (image : List Byte) (s : State) : (startNand op image s).history = s.history := rfl
@[simp] theorem startNand_env (op : NandOp) (image : List Byte) (s : State) : (startNand op image s).env = s.env := rfl
@[simp] theorem startNand_nsState (op : NandOp) (image : List Byte) (s : State) : (startNand op image s).ns.nsState = s.ns.nsState := rfl
@[simp] theorem startNand_csN (op : NandOp) (image : List Byte) (s : State) : (startNand op image s).ns.csN = s.ns.csN := rfl
@[simp] theorem startNand_xbuf (op : NandOp) (image : List Byte) (s : State) : (startNand op image s).ns.xbuf = s.ns.xbuf.writeAll 0 image := rfl
@[simp] theorem startNand_xlen (op : NandOp) (image : List Byte) (s : State) : (startNand op image s).ns.xlen = s.ns.xlen := rfl
@[simp] theorem startNand_settleCnt (op : NandOp) (image : List Byte) (s : State) : (startNand op image s).ns.settleCnt = s.ns.settleCnt := rfl
@[simp] theorem startNand_nandStatus (op : NandOp) (image : List Byte) (s : State) : (startNand op image s).ns.nandStatus = s.ns.nandStatus := rfl
@[simp] theorem startNand_nandMfr (op : NandOp) (image : List Byte) (s : State) : (startNand op image s).ns.nandMfr = s.ns.nandMfr := rfl
@[simp] theorem startNand_nandDev (op : NandOp) (image : List Byte) (s : State) : (startNand op image s).ns.nandDev = s.ns.nandDev := rfl
@[simp] theorem startNand_idValid (op : NandOp) (image : List Byte) (s : State) : (startNand op image s).ns.idValid = s.ns.idValid := rfl
@[simp] theorem startNand_cBusy (op : NandOp) (image : List Byte) (s : State) : (startNand op image s).cons.cBusy = true := rfl
@[simp] theorem startNand_halted (op : NandOp) (image : List Byte) (s : State) : (startNand op image s).cons.halted = s.cons.halted := rfl
@[simp] theorem startNand_seq (op : NandOp) (image : List Byte) (s : State) : (startNand op image s).cons.seq = .nand op .t1 := rfl

@[simp] theorem assertCs_cfg (op : NandOp) (s : State) : (assertCs op s).cfg = s.cfg := rfl
@[simp] theorem assertCs_rb (op : NandOp) (s : State) : (assertCs op s).rb = s.rb := rfl
@[simp] theorem assertCs_lf (op : NandOp) (s : State) : (assertCs op s).lf = s.lf := rfl
@[simp] theorem assertCs_env (op : NandOp) (s : State) : (assertCs op s).env = s.env := rfl
@[simp] theorem assertCs_nsState (op : NandOp) (s : State) : (assertCs op s).ns.nsState = .transacting := rfl
@[simp] theorem assertCs_csN (op : NandOp) (s : State) : (assertCs op s).ns.csN = false := rfl
@[simp] theorem assertCs_xbuf (op : NandOp) (s : State) : (assertCs op s).ns.xbuf = s.ns.xbuf := rfl
@[simp] theorem assertCs_xlen (op : NandOp) (s : State) : (assertCs op s).ns.xlen = op.xferLen s.cfg := rfl
@[simp] theorem assertCs_settleCnt (op : NandOp) (s : State) : (assertCs op s).ns.settleCnt = s.ns.settleCnt := rfl
@[simp] theorem assertCs_nandStatus (op : NandOp) (s : State) : (assertCs op s).ns.nandStatus = s.ns.nandStatus := rfl
@[simp] theorem assertCs_nandMfr (op : NandOp) (s : State) : (assertCs op s).ns.nandMfr = s.ns.nandMfr := rfl
@[simp] theorem assertCs_nandDev (op : NandOp) (s : State) : (assertCs op s).ns.nandDev = s.ns.nandDev := rfl
@[simp] theorem assertCs_idValid (op : NandOp) (s : State) : (assertCs op s).ns.idValid = s.ns.idValid := rfl
@[simp] theorem assertCs_cBusy (op : NandOp) (s : State) : (assertCs op s).cons.cBusy = s.cons.cBusy := rfl
@[simp] theorem assertCs_halted (op : NandOp) (s : State) : (assertCs op s).cons.halted = s.cons.halted := rfl
@[simp] theorem assertCs_seq (op : NandOp) (s : State) : (assertCs op s).cons.seq = .nand op .t2 := rfl
@[simp] theorem assertCs_history (op : NandOp) (s : State) : (assertCs op s).history = s.history ++ [.csLow] := rfl

@[simp] theorem deassertCs_cfg (op : NandOp) (o : BusOutcome) (s : State) : (deassertCs op o s).cfg = s.cfg := rfl
@[simp] theorem deassertCs_rb (op : NandOp) (o : BusOutcome) (s : State) : (deassertCs op o s).rb = s.rb := rfl
@[simp] theorem deassertCs_lf (op : NandOp) (o : BusOutcome) (s : State) : (deassertCs op o s).lf = s.lf := rfl
@[simp] theorem deassertCs_env (op : NandOp) (o : BusOutcome) (s : State) : (deassertCs op o s).env = s.env := rfl
@[simp] theorem deassertCs_nsState (op : NandOp) (o : BusOutcome) (s : State) : (deassertCs op o s).ns.nsState = .idle := rfl
@[simp] theorem deassertCs_csN (op : NandOp) (o : BusOutcome) (s : State) : (deassertCs op o s).ns.csN = true := rfl
@[simp] theorem deassertCs_xbuf (op : NandOp) (o : BusOutcome) (s : State) : (deassertCs op o s).ns.xbuf = s.ns.xbuf := rfl
@[simp] theorem deassertCs_xlen (op : NandOp) (o : BusOutcome) (s : State) : (deassertCs op o s).ns.xlen = 0 := rfl
@[simp] theorem deassertCs_settleCnt (op : NandOp) (o : BusOutcome) (s : State) : (deassertCs op o s).ns.settleCnt = s.ns.settleCnt := rfl
@[simp] theorem deassertCs_nandStatus (op : NandOp) (o : BusOutcome) (s : State) : (deassertCs op o s).ns.nandStatus = s.ns.nandStatus := rfl
@[simp] theorem deassertCs_nandMfr (op : NandOp) (o : BusOutcome) (s : State) : (deassertCs op o s).ns.nandMfr = s.ns.nandMfr := rfl
@[simp] theorem deassertCs_nandDev (op : NandOp) (o : BusOutcome) (s : State) : (deassertCs op o s).ns.nandDev = s.ns.nandDev := rfl
@[simp] theorem deassertCs_idValid (op : NandOp) (o : BusOutcome) (s : State) : (deassertCs op o s).ns.idValid = s.ns.idValid := rfl
@[simp] theorem deassertCs_cBusy (op : NandOp) (o : BusOutcome) (s : State) : (deassertCs op o s).cons.cBusy = s.cons.cBusy := rfl
@[simp] theorem deassertCs_halted (op : NandOp) (o : BusOutcome) (s : State) : (deassertCs op o s).cons.halted = s.cons.halted := rfl
@[simp] theorem deassertCs_seq (op : NandOp) (o : BusOutcome) (s : State) : (deassertCs op o s).cons.seq = .nand op (.check o) := rfl
@[simp] theorem deassertCs_history (op : NandOp) (o : BusOutcome) (s : State) : (deassertCs op o s).history = s.history ++ [.csHigh] := rfl

@[simp] theorem nandOk_cfg (r : NandResult) (s : State) : (nandOk r s).cfg = s.cfg := rfl
@[simp] theorem nandOk_rb (r : NandResult) (s : State) : (nandOk r s).rb = s.rb := rfl
@[simp] theorem nandOk_lf (r : NandResult) (s : State) : (nandOk r s).lf = s.lf := rfl
@[simp] theorem nandOk_env (r : NandResult) (s : State) : (nandOk r s).env = s.env := rfl
@[simp] theorem nandOk_nsState (r : NandResult) (s : State) : (nandOk r s).ns.nsState = s.ns.nsState := rfl
@[simp] theorem nandOk_csN (r : NandResult) (s : State) : (nandOk r s).ns.csN = s.ns.csN := rfl
@[simp] theorem nandOk_xbuf (r : NandResult) (s : State) : (nandOk r s).ns.xbuf = s.ns.xbuf := rfl
@[simp] theorem nandOk_xlen (r : NandResult) (s : State) : (nandOk r s).ns.xlen = s.ns.xlen := rfl
@[simp] theorem nandOk_settleCnt (r : NandResult) (s : State) : (nandOk r s).ns.settleCnt = s.ns.settleCnt := rfl
@[simp] theorem nandOk_nandStatus (r : NandResult) (s : State) : (nandOk r s).ns.nandStatus = .ok := rfl
@[simp] theorem nandOk_nandMfr (r : NandResult) (s : State) : (nandOk r s).ns.nandMfr = s.ns.nandMfr := rfl
@[simp] theorem nandOk_nandDev (r : NandResult) (s : State) : (nandOk r s).ns.nandDev = s.ns.nandDev := rfl
@[simp] theorem nandOk_idValid (r : NandResult) (s : State) : (nandOk r s).ns.idValid = s.ns.idValid := rfl
@[simp] theorem nandOk_cBusy (r : NandResult) (s : State) : (nandOk r s).cons.cBusy = false := rfl
@[simp] theorem nandOk_halted (r : NandResult) (s : State) : (nandOk r s).cons.halted = s.cons.halted := rfl
@[simp] theorem nandOk_seq (r : NandResult) (s : State) : (nandOk r s).cons.seq = .idle := rfl
@[simp] theorem nandOk_history (r : NandResult) (s : State) : (nandOk r s).history = s.history ++ [.nandDone r] := rfl

@[simp] theorem startSettle_cfg (s : State) : (startSettle s).cfg = s.cfg := rfl
@[simp] theorem startSettle_rb (s : State) : (startSettle s).rb = s.rb := rfl
@[simp] theorem startSettle_lf (s : State) : (startSettle s).lf = s.lf := rfl
@[simp] theorem startSettle_env (s : State) : (startSettle s).env = s.env := rfl
@[simp] theorem startSettle_nsState (s : State) : (startSettle s).ns.nsState = .settling := rfl
@[simp] theorem startSettle_csN (s : State) : (startSettle s).ns.csN = s.ns.csN := rfl
@[simp] theorem startSettle_xbuf (s : State) : (startSettle s).ns.xbuf = s.ns.xbuf := rfl
@[simp] theorem startSettle_xlen (s : State) : (startSettle s).ns.xlen = s.ns.xlen := rfl
@[simp] theorem startSettle_settleCnt (s : State) : (startSettle s).ns.settleCnt = s.cfg.settleTicks := rfl
@[simp] theorem startSettle_nandStatus (s : State) : (startSettle s).ns.nandStatus = s.ns.nandStatus := rfl
@[simp] theorem startSettle_nandMfr (s : State) : (startSettle s).ns.nandMfr = s.ns.nandMfr := rfl
@[simp] theorem startSettle_nandDev (s : State) : (startSettle s).ns.nandDev = s.ns.nandDev := rfl
@[simp] theorem startSettle_idValid (s : State) : (startSettle s).ns.idValid = s.ns.idValid := rfl
@[simp] theorem startSettle_cBusy (s : State) : (startSettle s).cons.cBusy = s.cons.cBusy := rfl
@[simp] theorem startSettle_halted (s : State) : (startSettle s).cons.halted = s.cons.halted := rfl
@[simp] theorem startSettle_seq (s : State) : (startSettle s).cons.seq = .nand .reset .settle := rfl
@[simp] theorem startSettle_history (s : State) : (startSettle s).history = s.history ++ [.settleStart] := rfl

@[simp] theorem endSettle_cfg (s : State) : (endSettle s).cfg = s.cfg := rfl
@[simp] theorem endSettle_rb (s : State) : (endSettle s).rb = s.rb := rfl
@[simp] theorem endSettle_lf (s : State) : (endSettle s).lf = s.lf := rfl
@[simp] theorem endSettle_env (s : State) : (endSettle s).env = s.env := rfl
@[simp] theorem endSettle_nsState (s : State) : (endSettle s).ns.nsState = .idle := rfl
@[simp] theorem endSettle_csN (s : State) : (endSettle s).ns.csN = s.ns.csN := rfl
@[simp] theorem endSettle_xbuf (s : State) : (endSettle s).ns.xbuf = s.ns.xbuf := rfl
@[simp] theorem endSettle_xlen (s : State) : (endSettle s).ns.xlen = s.ns.xlen := rfl
@[simp] theorem endSettle_settleCnt (s : State) : (endSettle s).ns.settleCnt = s.ns.settleCnt := rfl
@[simp] theorem endSettle_nandStatus (s : State) : (endSettle s).ns.nandStatus = .ok := rfl
@[simp] theorem endSettle_nandMfr (s : State) : (endSettle s).ns.nandMfr = s.ns.nandMfr := rfl
@[simp] theorem endSettle_nandDev (s : State) : (endSettle s).ns.nandDev = s.ns.nandDev := rfl
@[simp] theorem endSettle_idValid (s : State) : (endSettle s).ns.idValid = s.ns.idValid := rfl
@[simp] theorem endSettle_cBusy (s : State) : (endSettle s).cons.cBusy = false := rfl
@[simp] theorem endSettle_halted (s : State) : (endSettle s).cons.halted = s.cons.halted := rfl
@[simp] theorem endSettle_seq (s : State) : (endSettle s).cons.seq = .idle := rfl
@[simp] theorem endSettle_history (s : State) : (endSettle s).history = s.history ++ [.settleDone] ++ [.nandDone .ok] := rfl

@[simp] theorem exchanged_cfg (op : NandOp) (tx : List Byte) (o : BusOutcome) (s : State) : (exchanged op tx o s).cfg = s.cfg := by
  cases o <;> cases op <;> rfl
@[simp] theorem exchanged_rb (op : NandOp) (tx : List Byte) (o : BusOutcome) (s : State) : (exchanged op tx o s).rb = s.rb := by
  cases o <;> cases op <;> rfl
@[simp] theorem exchanged_lf (op : NandOp) (tx : List Byte) (o : BusOutcome) (s : State) : (exchanged op tx o s).lf = s.lf := by
  cases o <;> cases op <;> rfl
@[simp] theorem exchanged_cons (op : NandOp) (tx : List Byte) (o : BusOutcome) (s : State) : (exchanged op tx o s).cons = s.cons := by
  cases o <;> cases op <;> rfl
@[simp] theorem exchanged_env (op : NandOp) (tx : List Byte) (o : BusOutcome) (s : State) : (exchanged op tx o s).env = s.env := by
  cases o <;> cases op <;> rfl
@[simp] theorem exchanged_ok_ns (op : NandOp) (tx rx : List Byte) (s : State) :
    (exchanged op tx (.ok rx) s).ns = { s.ns with xbuf := if op.keep then s.ns.xbuf.writeAll 0 rx else s.ns.xbuf } := by
  cases op <;> rfl
@[simp] theorem exchanged_err_ns (op : NandOp) (tx : List Byte) (e k : Nat) (s : State) :
    (exchanged op tx (.err e k) s).ns = { s.ns with xbuf := [] } := rfl
@[simp] theorem exchanged_ok_history (op : NandOp) (tx rx : List Byte) (s : State) :
    (exchanged op tx (.ok rx) s).history = s.history ++ [.xfer tx rx] := by
  cases op <;> rfl
@[simp] theorem exchanged_err_history (op : NandOp) (tx : List Byte) (e k : Nat) (s : State) :
    (exchanged op tx (.err e k) s).history = s.history ++ [.xferErr e k] := rfl

end Sys2Proof.Machine
end

