-- ==== Sys2Proof/Laws/Ops.lean ====
section
/-! SUPPORT. One lemma for each shared operation that says everything it can do, so that a proof cites it and does not unfold
the operation. -/

namespace Sys2Proof.Machine

variable {s t : State}

/-! ## Sequencing -/

@[simp] theorem andThen_next (s : State) (f : State → Out) : andThen (.next s) f = f s := rfl
@[simp] theorem andThen_fault (r : Fault) (f : State → Out) : andThen (.fault r) f = .fault r := rfl
@[simp] theorem andThen_refused (r : Refusal) (f : State → Out) : andThen (.refused r) f = .refused r := rfl

theorem andThen_eq_next {o : Out} {f : State → Out} : andThen o f = .next t ↔ ∃ u, o = .next u ∧ f u = .next t := by
  cases o <;> simp [andThen]

theorem andThen_eq_fault {o : Out} {f : State → Out} {r : Fault} :
    andThen o f = .fault r ↔ o = .fault r ∨ ∃ u, o = .next u ∧ f u = .fault r := by
  cases o <;> simp [andThen]

/-- A ready port takes the request. -/
theorem whenTaken_ready (h : s.ready) (o : Out) : whenTaken s o = o := by simp [whenTaken, h.1, h.2]

/-- A port that is not ready ignores it. -/
theorem whenTaken_ignored (h : s.cons.cBusy = true ∨ s.cons.halted = true) (o : Out) : whenTaken s o = .next s := by
  rcases h with h | h <;> simp [whenTaken, h]

theorem whenTaken_cases (s : State) (o : Out) :
    (s.ready ∧ whenTaken s o = o) ∨ ((s.cons.cBusy = true ∨ s.cons.halted = true) ∧ whenTaken s o = .next s) := by
  by_cases h : s.cons.cBusy = true ∨ s.cons.halted = true
  · exact .inr ⟨h, whenTaken_ignored h o⟩
  · simp only [not_or, Bool.not_eq_true] at h
    exact .inl ⟨h, whenTaken_ready h o⟩

/-! ## Flags -/

theorem emptyC_iff : s.emptyC = true ↔ s.rb.headC = s.rb.tail := by simp [State.emptyC]
theorem fullP_iff : s.fullP = true ↔ ringSucc s.cfg.rbN s.rb.head = s.rb.tailP := by simp [State.fullP]

theorem syncHEnabled_iff {k : Nat} : syncHEnabled k s = true ↔
    s.cfg.syncLag = .free ∧ 1 ≤ k ∧ k ≤ ringDist s.cfg.rbN s.rb.headC s.rb.head := by
  simp [syncHEnabled, and_assoc]

theorem syncTEnabled_iff {k : Nat} : syncTEnabled k s = true ↔
    s.cfg.syncLag = .free ∧ 1 ≤ k ∧ k ≤ ringDist s.cfg.rbN s.rb.tailP s.rb.tail := by
  simp [syncTEnabled, and_assoc]

/-! ## RB -/

/-- Everything POP can do. -/
theorem popOnce_cases (s : State) :
    (s.rb.headC = s.rb.tail ∧ popOnce s = .next (popNone s)) ∨
    (s.rb.headC ≠ s.rb.tail ∧ ∃ b, s.rb.mem.read s.rb.tail = some b ∧ popOnce s = .next (popSome b s)) ∨
    (s.rb.headC ≠ s.rb.tail ∧ s.rb.mem.read s.rb.tail = none ∧ popOnce s = .fault (.unwritten .RB s.rb.tail)) := by
  by_cases h : s.rb.headC = s.rb.tail
  · exact .inl ⟨h, by simp [popOnce, emptyC_iff.2 h]⟩
  · have he : s.emptyC = false := by simpa [State.emptyC] using h
    cases hr : s.rb.mem.read s.rb.tail with
    | none => exact .inr (.inr ⟨h, rfl, by simp [popOnce, he, memRead, State.bank, hr]⟩)
    | some b => exact .inr (.inl ⟨h, b, rfl, by simp [popOnce, he, memRead, State.bank, hr]⟩)

@[simp] theorem popResult_popNone (s : State) : (popNone s).popResult = none := rfl
@[simp] theorem popResult_popSome (b : Byte) (s : State) : (popSome b s).popResult = some b := rfl

/-- A POP that answers a next state took one of its two arms. -/
theorem popOnce_next (h : popOnce s = .next t) :
    (s.rb.headC = s.rb.tail ∧ t = popNone s) ∨
    (s.rb.headC ≠ s.rb.tail ∧ ∃ b, s.rb.mem.read s.rb.tail = some b ∧ t = popSome b s) := by
  rcases popOnce_cases s with ⟨h1, h2⟩ | ⟨h1, b, h2, h3⟩ | ⟨_, _, h3⟩
  · rw [h] at h2; exact .inl ⟨h1, by injection h2⟩
  · rw [h] at h3; exact .inr ⟨h1, b, h2, by injection h3⟩
  · rw [h] at h3; cases h3

/-! ## LF -/

/-- The state a flush of `text` leaves. -/
def flushed (text : List Byte) (s : State) : State :=
  ({ s with lf := { s.lf with idx := 0 } } : State).raise (lineEvent s.cfg text)

@[simp] theorem flushed_cfg (x : List Byte) (s : State) : (flushed x s).cfg = s.cfg := rfl
@[simp] theorem flushed_rb (x : List Byte) (s : State) : (flushed x s).rb = s.rb := rfl
@[simp] theorem flushed_line (x : List Byte) (s : State) : (flushed x s).lf.line = s.lf.line := rfl
@[simp] theorem flushed_idx (x : List Byte) (s : State) : (flushed x s).lf.idx = 0 := rfl
@[simp] theorem flushed_ns (x : List Byte) (s : State) : (flushed x s).ns = s.ns := rfl
@[simp] theorem flushed_cons (x : List Byte) (s : State) : (flushed x s).cons = s.cons := rfl
@[simp] theorem flushed_env (x : List Byte) (s : State) : (flushed x s).env = s.env := rfl
@[simp] theorem flushed_history (x : List Byte) (s : State) :
    (flushed x s).history = s.history ++ [lineEvent s.cfg x] := rfl

/-- A flush of readable bytes. -/
theorem flush_ok {x : List Byte} (h : s.lf.line.slice 0 s.lf.idx = .ok x) : flush s = .next (flushed x s) := by
  simp [flush, h, flushed]

theorem flush_next (h : flush s = .next t) : ∃ x, s.lf.line.slice 0 s.lf.idx = .ok x ∧ t = flushed x s := by
  cases hs : s.lf.line.slice 0 s.lf.idx with
  | error a => simp [flush, hs] at h
  | ok x => rw [flush_ok hs] at h; exact ⟨x, rfl, by injection h with h; exact h.symm⟩

/-- A FEED that answers a next state: the delimiter, a byte stored, or the byte that fills the line buffer. -/
theorem feedOnce_next {b : Byte} (h : feedOnce b s = .next t) :
    (b = s.cfg.delim ∧ ∃ x, s.lf.line.slice 0 s.lf.idx = .ok x ∧ t = flushed x s) ∨
    (b ≠ s.cfg.delim ∧ s.lf.idx + 1 ≠ s.cfg.lineCap ∧ t = storeLine b s) ∨
    (b ≠ s.cfg.delim ∧ s.lf.idx + 1 = s.cfg.lineCap ∧
      ∃ x, (s.lf.line.write s.lf.idx b).slice 0 (s.lf.idx + 1) = .ok x ∧ t = flushed x (storeLine b s)) := by
  rw [feedOnce] at h
  split at h
  · next hb => exact .inl ⟨hb, flush_next h⟩
  · next hb =>
    split at h
    · next hc => exact .inr (.inr ⟨hb, by simpa using hc, by simpa using flush_next h⟩)
    · next hc => exact .inr (.inl ⟨hb, by simpa using hc, by injection h with h; exact h.symm⟩)

/-! ## V's answer -/

/-- The outcome of an exchange of `n` bytes has `n` received bytes, or a count of at most `n`. -/
theorem busOutcome_bounds (n : Nat) (s : State) :
    (∃ rx, busOutcome n s = .ok rx ∧ rx.length = n) ∨ (∃ e k, busOutcome n s = .err e k ∧ k ≤ n) := by
  unfold busOutcome
  split
  · exact .inl ⟨_, rfl, by simp⟩
  · exact .inr ⟨_, _, rfl, Nat.min_le_right ..⟩
  · split
    · exact .inr ⟨_, _, rfl, Nat.lt_succ_iff.1 (Nat.mod_lt _ (Nat.succ_pos n))⟩
    · exact .inl ⟨_, rfl, by simp⟩

/-- An answer depends on the model's own fields only. -/
theorem busOutcome_congr (n : Nat) (h : t.env.answers = s.env.answers) (hf : t.env.freeCount = s.env.freeCount) :
    busOutcome n t = busOutcome n s := by
  simp only [busOutcome, h, hf]

/-! ## NS -/

/-- Step T2 with a readable image. -/
theorem nandTurn_t2 {op : NandOp} {tx : List Byte} (h : s.ns.xbuf.slice 0 (op.xferLen s.cfg) = .ok tx) :
    nandTurn op .t2 s = .next ((exchanged op tx (busOutcome (op.xferLen s.cfg) s) s.answered).goto
      (.nand op (.t3 (busOutcome (op.xferLen s.cfg) s)))) := by
  simp [nandTurn, h]

/-- Step 4 of NAND_READ_ID with both identifiers readable. -/
theorem decodeId_ok {m d : Byte} (hm : s.ns.xbuf.read s.cfg.idMfrIdx = some m)
    (hd : s.ns.xbuf.read s.cfg.idDevIdx = some d) :
    decodeId s = .next (nandOk (.okId m d) { s with ns := { s.ns with nandMfr := m, nandDev := d, idValid := true } }) := by
  simp [decodeId, memRead, State.bank, hm, hd]

/-- Step 4 of NAND_READ_PAGE with the data readable. -/
theorem pageData_ok {l : PageLayout} {d : List Byte}
    (h : s.ns.xbuf.slice (1 + l.addrBytes + l.dummyBytes) l.dataBytes = .ok d) :
    pageData l s = .next (nandOk (.okPage d) s) := by
  simp [pageData, h]

/-- Everything a step of a NAND operation that answers a next state can do. -/
theorem nandTurn_next {op : NandOp} {a : NandAt} (h : nandTurn op a s = .next t) :
    (a = .t1 ∧ s.ns.nsState = .idle ∧ s.ns.csN = true ∧ t = assertCs op s) ∨
    (a = .t1 ∧ ¬ (s.ns.nsState = .idle ∧ s.ns.csN = true) ∧ t = s) ∨
    (a = .t2 ∧ ∃ tx o, s.ns.xbuf.slice 0 (op.xferLen s.cfg) = .ok tx ∧ o = busOutcome (op.xferLen s.cfg) s ∧
      t = (exchanged op tx o s.answered).goto (.nand op (.t3 o))) ∨
    (∃ o, a = .t3 o ∧ t = deassertCs op o s) ∨
    (∃ e k, a = .check (.err e k) ∧ t = enterError (.busError e) s) ∨
    (∃ rx, a = .check (.ok rx) ∧ t = s.goto (.nand op .step4)) ∨
    (a = .step4 ∧ op = .reset ∧ t = startSettle s) ∨
    (a = .step4 ∧ op = .readId ∧ ∃ m d, s.ns.xbuf.read s.cfg.idMfrIdx = some m ∧ s.ns.xbuf.read s.cfg.idDevIdx = some d ∧
      t = nandOk (.okId m d) { s with ns := { s.ns with nandMfr := m, nandDev := d, idValid := true } }) ∨
    (a = .step4 ∧ ∃ l d, op = .readPage l ∧ s.ns.xbuf.slice (1 + l.addrBytes + l.dummyBytes) l.dataBytes = .ok d ∧
      t = nandOk (.okPage d) s) ∨
    (a = .settle ∧ 0 < s.ns.settleCnt ∧ t = { s with ns := { s.ns with settleCnt := s.ns.settleCnt - 1 } }) ∨
    (a = .settle ∧ s.ns.settleCnt = 0 ∧ t = endSettle s) := by
  cases a with
  | t1 =>
    simp only [nandTurn, Host.Outcome.next.injEq] at h
    split at h
    · next hc => exact .inl ⟨rfl, hc.1, hc.2, h.symm⟩
    · next hc => exact .inr (.inl ⟨rfl, hc, h.symm⟩)
  | t2 =>
    simp only [nandTurn] at h
    split at h
    · cases h
    · next tx hs =>
      injection h with h
      exact .inr (.inr (.inl ⟨rfl, tx, _, hs, rfl, h.symm⟩))
  | t3 o =>
    simp only [nandTurn, Host.Outcome.next.injEq] at h
    exact .inr (.inr (.inr (.inl ⟨o, rfl, h.symm⟩)))
  | check o =>
    cases o with
    | ok rx =>
      simp only [nandTurn, Host.Outcome.next.injEq] at h
      exact .inr (.inr (.inr (.inr (.inr (.inl ⟨rx, rfl, h.symm⟩)))))
    | err e k =>
      simp only [nandTurn, Host.Outcome.next.injEq] at h
      exact .inr (.inr (.inr (.inr (.inl ⟨e, k, rfl, h.symm⟩))))
  | step4 =>
    cases op with
    | reset =>
      simp only [nandTurn, nandStep4, Host.Outcome.next.injEq] at h
      exact .inr (.inr (.inr (.inr (.inr (.inr (.inl ⟨rfl, rfl, h.symm⟩))))))
    | readId =>
      simp only [nandTurn, nandStep4, decodeId] at h
      split at h
      · next m d hm hd =>
        injection h with h
        exact .inr (.inr (.inr (.inr (.inr (.inr (.inr (.inl ⟨rfl, rfl, m, d, hm, hd, h.symm⟩)))))))
      · cases h
      · cases h
    | readPage l =>
      simp only [nandTurn, nandStep4, pageData] at h
      split at h
      · cases h
      · next d hd =>
        injection h with h
        exact .inr (.inr (.inr (.inr (.inr (.inr (.inr (.inr (.inl ⟨rfl, l, d, rfl, hd, h.symm⟩))))))))
  | settle =>
    simp only [nandTurn, Host.Outcome.next.injEq] at h
    split at h
    · next hc => exact .inr (.inr (.inr (.inr (.inr (.inr (.inr (.inr (.inr (.inl ⟨rfl, hc, h.symm⟩)))))))))
    · next hc => exact .inr (.inr (.inr (.inr (.inr (.inr (.inr (.inr (.inr (.inr ⟨rfl, by omega, h.symm⟩)))))))))

/-! ## DRAIN -/

/-- Everything a step of DRAIN that answers a next state can do. -/
theorem drainTurn_next {a : DrainAt} (h : drainTurn a s = .next t) :
    (a = .pop ∧ ∃ u, popOnce s = .next u ∧ t = u.goto (.drain (.test u.popResult))) ∨
    (∃ b, a = .test (some b) ∧ t = s.goto (.drain (.feed b))) ∨
    (a = .test none ∧ t = s.finish) ∨
    (∃ b, a = .feed b ∧ ∃ u, feedOnce b s = .next u ∧ t = u.goto (.drain .again)) ∨
    (a = .again ∧ t = s.goto (.drain .pop)) := by
  cases a with
  | pop =>
    obtain ⟨u, hu, ht⟩ := andThen_eq_next.1 h
    injection ht with ht
    exact .inl ⟨rfl, u, hu, ht.symm⟩
  | test r =>
    cases r with
    | none => injection h with h; exact .inr (.inr (.inl ⟨rfl, h.symm⟩))
    | some b => injection h with h; exact .inr (.inl ⟨b, rfl, h.symm⟩)
  | feed b =>
    obtain ⟨u, hu, ht⟩ := andThen_eq_next.1 h
    injection ht with ht
    exact .inr (.inr (.inr (.inl ⟨b, rfl, u, hu, ht.symm⟩)))
  | again =>
    injection h with h
    exact .inr (.inr (.inr (.inr ⟨rfl, h.symm⟩)))

end Sys2Proof.Machine
end

