-- ==== Sys2Proof/Laws/Moves.lean ====
section
/-! SUPPORT. What a step can do, said once: after the pulse has ended and the model's own fields have changed, one of the moves
below. A claim about every step is then a claim about every move. -/

namespace Sys2Proof.Machine

/-- One move of the block, from `s` (the pulse ended, the input taken) to `t`. -/
inductive Move (s t : State) : Prop where
  /-- Nothing of the block changes. -/
  | still (h : t = s)
  | push (b : Byte) (h : t = if s.fullP then enterError (.overflow b) s else acceptPush b s)
  | pop (hr : s.ready) (h : popOnce s = .next t)
  | feed (b : Byte) (hr : s.ready) (h : feedOnce b s = .next t)
  | beginDrain (hr : s.ready) (h : t = s.begin (.drain .pop))
  | beginReset (hr : s.ready) (h : t = startNand .reset (frameReset s.cfg) s)
  | beginReadId (hr : s.ready) (h : t = startNand .readId (frameReadId s.cfg) s)
  | beginReadPage (page : Nat) (l : PageLayout) (hr : s.ready) (hl : s.cfg.page = some l)
      (h : t = startNand (.readPage l) (frameReadPage s.cfg l page) s)
  | drain (a : DrainAt) (hh : s.cons.halted = false) (hb : s.cons.cBusy = true) (hs : s.cons.seq = .drain a)
      (h : drainTurn a s = .next t)
  | nand (op : NandOp) (a : NandAt) (hh : s.cons.halted = false) (hb : s.cons.cBusy = true) (hs : s.cons.seq = .nand op a)
      (h : nandTurn op a s = .next t)
  | syncH (k : Nat) (he : syncHEnabled k s = true)
      (h : t = { s with rb := { s.rb with headC := (s.rb.headC + k) % s.cfg.rbN } })
  | syncT (k : Nat) (he : syncTEnabled k s = true)
      (h : t = { s with rb := { s.rb with tailP := (s.rb.tailP + k) % s.cfg.rbN } })
  | fatal (h : t = enterError .fatal s)
  | reset (h : t = s.resetBlock)

variable {s t : State}

/-- An operation that answers a next state made one of the moves. -/
theorem exec_move {i : Instr} (h : exec i s = .next t) : Move s t := by
  cases i with
  | push b => exact .push b (by simpa [exec, execPush] using h.symm)
  | pop =>
    rcases whenTaken_cases s (popOnce s) with ⟨hr, e⟩ | ⟨_, e⟩
    · exact .pop hr (by simpa [exec, execPop, e] using h)
    · exact .still (by simpa [exec, execPop, e] using h.symm)
  | feed b =>
    rcases whenTaken_cases s (feedOnce b s) with ⟨hr, e⟩ | ⟨_, e⟩
    · exact .feed b hr (by simpa [exec, execFeed, e] using h)
    · exact .still (by simpa [exec, execFeed, e] using h.symm)
  | drain =>
    rcases whenTaken_cases s (.next (s.begin (.drain .pop))) with ⟨hr, e⟩ | ⟨_, e⟩
    · exact .beginDrain hr (by simpa [exec, execDrain, e] using h.symm)
    · exact .still (by simpa [exec, execDrain, e] using h.symm)
  | nop =>
    rcases whenTaken_cases s (.next s) with ⟨_, e⟩ | ⟨_, e⟩ <;>
      exact .still (by simpa [exec, execNop, e] using h.symm)
  | nandReset =>
    rcases whenTaken_cases s (.next (startNand .reset (frameReset s.cfg) s)) with ⟨hr, e⟩ | ⟨_, e⟩
    · exact .beginReset hr (by simpa [exec, execNandReset, e] using h.symm)
    · exact .still (by simpa [exec, execNandReset, e] using h.symm)
  | nandReadId =>
    rcases whenTaken_cases s (.next (startNand .readId (frameReadId s.cfg) s)) with ⟨hr, e⟩ | ⟨_, e⟩
    · exact .beginReadId hr (by simpa [exec, execNandReadId, e] using h.symm)
    · exact .still (by simpa [exec, execNandReadId, e] using h.symm)
  | nandReadPage page =>
    simp only [exec, execNandReadPage] at h
    cases hl : s.cfg.page with
    | none =>
      simp only [hl] at h
      rcases whenTaken_cases s (.refused .pageUnset) with ⟨_, e⟩ | ⟨_, e⟩ <;> rw [e] at h
      · cases h
      · exact .still (by injection h with h; exact h.symm)
    | some l =>
      simp only [hl] at h
      rcases whenTaken_cases s (.next (startNand (.readPage l) (frameReadPage s.cfg l page) s)) with ⟨hr, e⟩ | ⟨_, e⟩ <;>
        rw [e] at h <;> injection h with h
      · exact .beginReadPage page l hr hl h.symm
      · exact .still h.symm
  | syncH k =>
    simp only [exec, execSyncH, Host.Outcome.next.injEq] at h
    split at h
    · next he => exact .syncH k he h.symm
    · exact .still h.symm
  | syncT k =>
    simp only [exec, execSyncT, Host.Outcome.next.injEq] at h
    split at h
    · next he => exact .syncT k he h.symm
    · exact .still h.symm

/-- A turn of C that answers a next state. -/
theorem consumerTurn_move (hb : s.cons.cBusy = true) (h : consumerTurn s = .next t) : Move s t := by
  rw [consumerTurn] at h
  split at h
  · exact .still (by injection h with h; exact h.symm)
  · next hh =>
    simp only [Bool.not_eq_true] at hh
    split at h
    · exact .still (by injection h with h; exact h.symm)
    · next a hs => exact .drain a hh hb hs h
    · next op a hs => exact .nand op a hh hb hs h

/-- A request that is taken. -/
theorem execRequest_move {r : Request} (h : execRequest r s = .next t) : Move s t := by
  rw [execRequest] at h
  split at h
  · exact exec_move h
  · exact .still (by injection h with h; exact h.symm)
  · rcases whenTaken_cases s (.refused .reservedCode) with ⟨_, e⟩ | ⟨_, e⟩ <;> rw [e] at h
    · cases h
    · exact .still (by injection h with h; exact h.symm)

theorem commandEdge_move {r : Request} (h : commandEdge r s = .next t) : Move s t := by
  rw [commandEdge] at h
  split at h
  · next hb => exact consumerTurn_move (by simp only [State.goesOn, Bool.and_eq_true] at hb; exact hb.1) h
  · exact execRequest_move h

theorem takeRequest_move {who : Agent} {r : Request} (h : takeRequest who r s = .next t) : Move s t := by
  rw [takeRequest] at h
  split at h
  · exact .still (by injection h with h; exact h.symm)
  · split at h
    · cases h
    · split at h
      · exact commandEdge_move h
      · exact execRequest_move h

/-- Going on is the next step of C's operation, or nothing. -/
theorem goOn_move (h : goOn s = .next t) : Move s t := by
  rw [goOn] at h
  split at h
  · next hb => exact consumerTurn_move (by simp only [State.goesOn, Bool.and_eq_true] at hb; exact hb.1) h
  · exact .still (by injection h with h; exact h.symm)

/-- A free move: after its draws, a PUSH, a step of C or a step of S. -/
theorem freeTurn_move (h : freeTurn s = .next t) : ∃ e : Env, Move { s with env := e } t := by
  simp only [freeTurn] at h
  split at h
  · exact ⟨((s.spend 1).spend 1).env, exec_move (i := .push _) h⟩
  · exact ⟨(s.spend 1).env, goOn_move h⟩
  · exact ⟨((s.spend 1).spend 1).env, exec_move (i := .syncH _) h⟩
  · exact ⟨((s.spend 1).spend 1).env, exec_move (i := .syncT _) h⟩

/-- An input that answers a next state: a move, after a change of the model's own fields alone. -/
theorem takeInput_move {i : Input} (h : takeInput i s = .next t) : ∃ e : Env, Move { s with env := e } t := by
  cases i with
  | request who r => exact ⟨s.env, takeRequest_move h⟩
  | consumerStep => exact ⟨s.env, goOn_move h⟩
  | consumerRest =>
    simp only [takeInput] at h
    split at h
    · next hb =>
      exact ⟨(s.putBack .consumerRest).env,
        consumerTurn_move (by simp only [State.goesOn, Bool.and_eq_true] at hb; exact hb.1) h⟩
    · exact ⟨s.env, .still (by injection h with h; exact h.symm)⟩
  | syncHead => exact ⟨(s.spend 1).env, exec_move (i := .syncH _) h⟩
  | syncTail => exact ⟨(s.spend 1).env, exec_move (i := .syncT _) h⟩
  | freeMove => exact freeTurn_move h
  | fatal => exact ⟨s.env, .fatal (by injection h with h; exact h.symm)⟩
  | reset => exact ⟨s.env, .reset (by injection h with h; exact h.symm)⟩
  | answer a => exact ⟨_, .still (by injection h with h; exact h.symm)⟩
  | hostRead p =>
    simp only [takeInput] at h
    split at h
    · exact ⟨s.env, .still (by injection h with h; exact h.symm)⟩
    · cases h
  | foreignMaster => cases h

theorem idleTurn_move (h : idleTurn s = .next t) : ∃ e : Env, Move { s with env := e } t := by
  rw [idleTurn] at h
  split at h
  · next hb =>
    exact ⟨s.env, consumerTurn_move (by simp only [State.goesOn, Bool.and_eq_true] at hb; exact hb.1) h⟩
  · split at h
    · exact ⟨(s.spend 1).env, exec_move (i := .syncH _) h⟩
    · split at h
      · exact ⟨(s.spend 1).env, exec_move (i := .syncT _) h⟩
      · exact ⟨s.env, .still (by injection h with h; exact h.symm)⟩

/-- Every step that answers a next state ends the pulse, changes the model's own fields, and makes one move. -/
theorem step_move (h : step s = .next t) : ∃ e : Env, Move { s.lowerPulse with env := e } t := by
  rw [step, turn] at h
  split at h
  · exact idleTurn_move h
  · obtain ⟨e, m⟩ := takeInput_move h
    exact ⟨e, m⟩

end Sys2Proof.Machine
end

