-- ==== Sys2Proof/Laws/Endless.lean ====
section
/-! SUPPORT. The model does not build in that DRAIN ends (41_lineframer.md R149): when P pushes a byte for every byte C pops,
without end, DRAIN goes on for ever. -/

namespace Sys2Proof.Machine

/-- P pushes a delimiter, then C takes three steps; with the step of C that begins the next round these drain it. -/
def fastProducer : List Input :=
  [.request .producer (.w 0x10A#9), .consumerStep, .consumerStep, .consumerStep]

/-- C is inside DRAIN at `q` with an empty line, under the fast producer with `todo` left of its round, and exact views. -/
structure DrainingAt (q : DrainAt) (todo : List Input) (s : State) : Prop where
  cfg : s.cfg = { syncLag := .zero }
  cons : s.cons = { cBusy := true, halted := false, seq := .drain q }
  idx : s.lf.idx = 0
  inputs : s.env.inputs = todo
  cycle : s.env.cycle = fastProducer

/-- The ring is empty. -/
structure RingEmptyAt (h : Nat) (s : State) : Prop where
  lt : h < 256
  head : s.rb.head = h
  tail : s.rb.tail = h
  headC : s.rb.headC = h
  tailP : s.rb.tailP = h

variable {s t : State} {h : Nat} {q : DrainAt} {i : Input} {todo : List Input}

/-- The ring as a step that leaves it alone leaves it. -/
theorem RingEmptyAt.keep (r : RingEmptyAt h s) (e : t.rb = { s.rb with wOvf := false }) : RingEmptyAt h t :=
  ⟨r.lt, by rw [e]; exact r.head, by rw [e]; exact r.tail, by rw [e]; exact r.headC, by rw [e]; exact r.tailP⟩

/-- Inside the round a step takes the input that is next. -/
theorem DrainingAt.step (d : DrainingAt q (i :: todo) s) : step s = takeInput i s.lowerPulse.popInput := by
  simp [Machine.step, turn, State.upcoming, d.inputs]

/-- What C's step begins from: the input is taken. -/
theorem DrainingAt.taken (d : DrainingAt q (i :: todo) s) : s.lowerPulse.popInput.env.inputs = todo := by
  simp [State.upcoming, d.inputs]

/-- A step of C in the round. -/
theorem DrainingAt.consumer (d : DrainingAt q (.consumerStep :: todo) s) : Machine.step s = drainTurn q s.lowerPulse.popInput := by
  rw [d.step]
  simp [takeInput, goOn, State.goesOn, consumerTurn, d.cons]

/-- The round begins with C's step from `again` to `pop`. -/
theorem again_round (d : DrainingAt .again [] s) (r : RingEmptyAt h s) :
    ∃ t, step s = .next t ∧ DrainingAt .pop (.syncHead :: .syncTail :: fastProducer) t ∧ RingEmptyAt h t :=
  ⟨s.lowerPulse.popInput.goto (.drain .pop),
    by simp [step, turn, State.upcoming, d.inputs, d.cycle, fastProducer, fairRound, takeInput, goOn, State.goesOn,
      consumerTurn, d.cons, drainTurn],
    ⟨d.cfg, by simp [State.goto, d.cons], d.idx, by simp [State.upcoming, d.inputs, d.cycle, fastProducer, fairRound], d.cycle⟩,
    r.keep rfl⟩

/-- S has nothing to advance while the views are exact. -/
theorem sync_round (hi : i = .syncHead ∨ i = .syncTail) (d : DrainingAt q (i :: todo) s) (r : RingEmptyAt h s) :
    ∃ t, step s = .next t ∧ DrainingAt q todo t ∧ RingEmptyAt h t := by
  refine ⟨s.lowerPulse.popInput.spend 1, ?_, ⟨d.cfg, d.cons, d.idx, d.taken, d.cycle⟩, r.keep rfl⟩
  rw [d.step]
  rcases hi with rfl | rfl <;>
    simp [takeInput, freeSyncH, freeSyncT, execSyncH, execSyncT, syncHEnabled, syncTEnabled, d.cfg]

theorem push_round (d : DrainingAt .pop fastProducer s) (r : RingEmptyAt h s) :
    ∃ t, step s = .next t ∧ DrainingAt .pop (fastProducer.drop 1) t ∧ t.rb.tail = h ∧
      t.rb.head = (h + 1) % 256 ∧ t.rb.headC = (h + 1) % 256 ∧ t.rb.mem.read h = some 0x0A#8 := by
  have hf : State.fullP s.lowerPulse.popInput = false := by
    have := r.lt
    simp [State.fullP, State.popInput, State.lowerPulse, r.head, r.tailP, d.cfg, Config.rbN, ringSucc]
    omega
  refine ⟨acceptPush 0x0A#8 s.lowerPulse.popInput, ?_, ⟨d.cfg, d.cons, d.idx, ?_, d.cycle⟩, ?_, ?_, ?_, ?_⟩
  · simp [step, turn, State.upcoming, d.inputs, fastProducer, takeInput, takeRequest, decode, decodeW, foreignRequest,
      Request.format, Format.owner, execRequest, exec, execPush, hf]
  · simp [State.upcoming, d.inputs, fastProducer]
  · simp [r.tail]
  · simp [r.head, d.cfg, Config.rbN, ringSucc]
  · simp [r.head, d.cfg, Config.rbN, ringSucc]
  · simp [r.head]

/-- The POP of the round takes the byte, and leaves the ring empty again. -/
theorem pop_round (d : DrainingAt .pop (fastProducer.drop 1) s) (ht : s.rb.tail = h) (_hlt : h < 256)
    (hh : s.rb.head = (h + 1) % 256) (hc : s.rb.headC = (h + 1) % 256) (hm : s.rb.mem.read h = some 0x0A#8) :
    ∃ t, step s = .next t ∧ DrainingAt (.test (some 0x0A#8)) (fastProducer.drop 2) t ∧ RingEmptyAt ((h + 1) % 256) t := by
  have he : State.emptyC s.lowerPulse.popInput = false := by simp [State.emptyC, ht, hc]; omega
  have z : s.cfg.syncLag = .zero := by rw [d.cfg]
  have n : s.cfg.rbN = 256 := by rw [d.cfg]; rfl
  refine ⟨(popSome 0x0A#8 s.lowerPulse.popInput).goto (.drain (.test (some 0x0A#8))), ?_, ⟨d.cfg, ?_, d.idx, ?_, d.cycle⟩,
    ⟨by omega, by simpa using hh, ?_, by simpa using hc, ?_⟩⟩
  · rw [d.consumer]
    simp [drainTurn, popOnce, he, memRead, State.bank, ht, hm]
  · simp [State.goto, d.cons]
  · simp [State.upcoming, d.inputs, fastProducer]
  · simp [ringSucc, ht, n]
  · simp [ringSucc, ht, n, z]

theorem test_round (d : DrainingAt (.test (some 0x0A#8)) (fastProducer.drop 2) s) (r : RingEmptyAt h s) :
    ∃ t, step s = .next t ∧ DrainingAt (.feed 0x0A#8) (fastProducer.drop 3) t ∧ RingEmptyAt h t :=
  ⟨s.lowerPulse.popInput.goto (.drain (.feed 0x0A#8)), d.consumer,
    ⟨d.cfg, by simp [State.goto, d.cons], d.idx, by simp [State.upcoming, d.inputs, fastProducer], d.cycle⟩, r.keep rfl⟩

theorem feed_round (d : DrainingAt (.feed 0x0A#8) (fastProducer.drop 3) s) (r : RingEmptyAt h s) :
    ∃ t, step s = .next t ∧ DrainingAt .again [] t ∧ RingEmptyAt h t := by
  have hd : (0x0A#8 : Byte) = s.lowerPulse.popInput.cfg.delim := by simp [d.cfg]
  have hs : s.lowerPulse.popInput.lf.line.slice 0 s.lowerPulse.popInput.lf.idx = .ok [] := by simp [d.idx, Memory.slice]
  refine ⟨(flushed [] s.lowerPulse.popInput).goto (.drain .again), ?_,
    ⟨d.cfg, by simp [State.goto, d.cons], rfl, by simp [State.upcoming, d.inputs, fastProducer], d.cycle⟩, r.keep rfl⟩
  rw [d.consumer, drainTurn, feedOnce, if_pos hd, flush_ok hs]
  rfl

/-- From the head of a round DRAIN is still running after any number of steps. -/
theorem drain_goes_on (n : Nat) : ∀ (s : State) (h : Nat), DrainingAt .again [] s → RingEmptyAt h s →
    ∃ t, stepN n s = .next t ∧ t.cons.cBusy = true := by
  induction n using Nat.strongRecOn with
  | ind n ih =>
    intro s h d r
    obtain ⟨a, sa, da, ra⟩ := again_round d r
    obtain ⟨b, sb, db, rb⟩ := sync_round (.inl rfl) da ra
    obtain ⟨c, sc, dc, rc⟩ := sync_round (.inr rfl) db rb
    obtain ⟨e, se, de, ht, hh, hc, hm⟩ := push_round dc rc
    obtain ⟨f, sf, df, rf⟩ := pop_round de ht rc.lt hh hc hm
    obtain ⟨g, sg, dg, rg⟩ := test_round df rf
    obtain ⟨k, sk, dk, rk⟩ := feed_round dg rg
    match n with
    | 0 => exact ⟨s, rfl, by rw [d.cons]⟩
    | 1 => exact ⟨a, by simp [stepN, sa], by rw [da.cons]⟩
    | 2 => exact ⟨b, by simp [stepN, sa, sb], by rw [db.cons]⟩
    | 3 => exact ⟨c, by simp [stepN, sa, sb, sc], by rw [dc.cons]⟩
    | 4 => exact ⟨e, by simp [stepN, sa, sb, sc, se], by rw [de.cons]⟩
    | 5 => exact ⟨f, by simp [stepN, sa, sb, sc, se, sf], by rw [df.cons]⟩
    | 6 => exact ⟨g, by simp [stepN, sa, sb, sc, se, sf, sg], by rw [dg.cons]⟩
    | m + 7 =>
      obtain ⟨t, st, bt⟩ := ih m (by omega) k _ dk rk
      exact ⟨t, by simpa [stepN, sa, sb, sc, se, sf, sg, sk] using st, bt⟩

/-- R149: a DRAIN need not end. The state is a good one, with every byte that was pushed drained. -/
theorem drain_need_not_end : ∃ s : State, s.Inv ∧ s.FifoInv ∧ ∀ n, ∃ t, stepN n s = .next t ∧ t.cons.cBusy = true := by
  refine ⟨{ State.reset with
    cfg := { syncLag := .zero }
    cons := { cBusy := true, halted := false, seq := .drain .again }
    env := { State.reset.env with cycle := fastProducer } }, by decide, by decide, fun n => ?_⟩
  exact drain_goes_on n _ 0 ⟨rfl, rfl, rfl, rfl, rfl⟩ ⟨by decide, rfl, rfl, rfl, rfl⟩

end Sys2Proof.Machine
end

