-- ==== Sys2Proof/Laws/Fairness.lean ====
section
/-! SUPPORT. Weak fairness on every endless run (00_scope.md R16; log 4). A round of the cycle begins with a step of C's
operation and one of S for each view; each brings its operation or its view nearer to the end; and a round is used up: its
inputs by their steps, `consumerRest` with the operation that it waits for. -/

namespace Sys2Proof.Machine

variable {s t : State} {i : Input} {rest : List Input}

/-! ## A round begins with C and S -/

/-- The state in which an input is taken: the pulse over, `rest` still to come. -/
def State.taking (rest : List Input) (s : State) : State :=
  { s with rb := { s.rb with wOvf := false }, env := { s.env with inputs := rest } }

/-- A step takes the next input. -/
theorem step_of_inputs (h : s.env.inputs = i :: rest) : step s = takeInput i (s.taking rest) := by
  simp [step, turn, State.upcoming, h, State.popInput, State.lowerPulse, State.taking]

/-- With the inputs used up, the round of the cycle begins, and C takes its step. -/
theorem round_begins (h : s.env.inputs = []) (hc : s.env.cycle ≠ []) :
    step s = goOn (s.taking (.syncHead :: .syncTail :: s.env.cycle)) := by
  simp [step, turn, State.upcoming, h, hc, fairRound, takeInput, State.popInput, State.lowerPulse, State.taking]

/-! ## Each step of the beginning makes progress -/

/-- The free distance by which S advances a lagging view is one that SYNC admits. -/
theorem freeAdvance_bounds {d : Nat} (h : 0 < d) (s : State) : 1 ≤ freeAdvance d s ∧ freeAdvance d s ≤ d := by
  have := Nat.mod_lt (Config.freeSync s.env.freeCount) h
  simp only [freeAdvance]; omega

/-- An advanced view is nearer by just that much. -/
theorem ringDist_advance {n v x k : Nat} (hv : v < n) (hx : x < n) (hk : k ≤ ringDist n v x) :
    ringDist n ((v + k) % n) x = ringDist n v x - k := by
  have hd := ringDist_lt (n := n) (a := v) (b := x) (by omega)
  have hm : (v + k) % n < n := Nat.mod_lt _ (by omega)
  rw [ringDist_eq hv hx] at hk hd ⊢
  have he := add_mod_eq hv (show k ≤ n by omega)
  rw [ringDist_eq hm hx]
  generalize (v + k) % n = m at he hm ⊢
  by_cases h : v + k < n
  · rw [if_pos h] at he
    split at hk <;> split <;> omega
  · rw [if_neg h] at he
    split at hk <;> split <;> omega

/-- S brings a lagging `head_c` nearer to `head`. -/
theorem syncHead_nearer (hf : s.cfg.syncLag = .free) (h1 : s.rb.headC < s.cfg.rbN) (h2 : s.rb.head < s.cfg.rbN)
    (hne : s.rb.headC ≠ s.rb.head) :
    ∃ t, takeInput .syncHead s = .next t ∧ t.rb.head = s.rb.head ∧
      ringDist s.cfg.rbN t.rb.headC s.rb.head < ringDist s.cfg.rbN s.rb.headC s.rb.head := by
  have hd : 0 < ringDist s.cfg.rbN s.rb.headC s.rb.head :=
    Nat.pos_of_ne_zero fun e => hne ((ringDist_eq_zero h1 h2).1 e)
  obtain ⟨b1, b2⟩ := freeAdvance_bounds hd s
  have he : syncHEnabled (freeAdvance (ringDist s.cfg.rbN s.rb.headC s.rb.head) s) (s.spend 1) = true :=
    syncHEnabled_iff.2 ⟨hf, b1, b2⟩
  refine ⟨{ s.spend 1 with
    rb := { s.rb with headC := (s.rb.headC + freeAdvance (ringDist s.cfg.rbN s.rb.headC s.rb.head) s) % s.cfg.rbN } }, ?_, rfl, ?_⟩
  · simp [takeInput, freeSyncH, execSyncH, he]
  · simp only [ringDist_advance h1 h2 b2]; omega

/-- S brings a lagging `tail_p` nearer to `tail`. -/
theorem syncTail_nearer (hf : s.cfg.syncLag = .free) (h1 : s.rb.tailP < s.cfg.rbN) (h2 : s.rb.tail < s.cfg.rbN)
    (hne : s.rb.tailP ≠ s.rb.tail) :
    ∃ t, takeInput .syncTail s = .next t ∧ t.rb.tail = s.rb.tail ∧
      ringDist s.cfg.rbN t.rb.tailP s.rb.tail < ringDist s.cfg.rbN s.rb.tailP s.rb.tail := by
  have hd : 0 < ringDist s.cfg.rbN s.rb.tailP s.rb.tail :=
    Nat.pos_of_ne_zero fun e => hne ((ringDist_eq_zero h1 h2).1 e)
  obtain ⟨b1, b2⟩ := freeAdvance_bounds hd s
  have he : syncTEnabled (freeAdvance (ringDist s.cfg.rbN s.rb.tailP s.rb.tail) s) (s.spend 1) = true :=
    syncTEnabled_iff.2 ⟨hf, b1, b2⟩
  refine ⟨{ s.spend 1 with
    rb := { s.rb with tailP := (s.rb.tailP + freeAdvance (ringDist s.cfg.rbN s.rb.tailP s.rb.tail) s) % s.cfg.rbN } }, ?_, rfl, ?_⟩
  · simp [takeInput, freeSyncT, execSyncT, he]
  · simp only [ringDist_advance h1 h2 b2]; omega

/-- A bound on the steps C's operation still takes while no other agent moves, by its place. -/
def Seq.left (visible settle ticks : Nat) : Seq → Nat
  | .idle => 0
  | .drain .pop => 4 * visible + 3
  | .drain (.test none) => 1
  | .drain (.test (some _)) => 4 * visible + 6
  | .drain (.feed _) => 4 * visible + 5
  | .drain .again => 4 * visible + 4
  | .nand _ .t1 => ticks + 7
  | .nand _ .t2 => ticks + 6
  | .nand _ (.t3 _) => ticks + 5
  | .nand _ (.check _) => ticks + 4
  | .nand _ .step4 => ticks + 3
  | .nand _ .settle => settle + 1

/-- That bound in a state. -/
def State.left (s : State) : Nat := s.cons.seq.left s.countC s.ns.settleCnt s.cfg.settleTicks

/-- A step of C's operation leaves less of it, the settle count-down included. -/
theorem goOn_nearer (hi : s.Inv) (hg : s.goesOn = true) (h : goOn s = .next t) : t.left < s.left := by
  obtain ⟨-, ⟨-, htl, hhc, -⟩, -, ⟨hcs, -, hns, -, -, -, hbusy, -⟩, -⟩ := hi
  simp only [State.goesOn, Bool.and_eq_true, Bool.not_eq_true'] at hg
  rw [goOn, if_pos (by simp [State.goesOn, hg]), consumerTurn, if_neg (by simp [hg.2])] at h
  split at h
  · next e => exact absurd e (hbusy.1 hg.1)
  · next a e =>
    rcases drainTurn_next h with ⟨rfl, u, hu, rfl⟩ | ⟨b, rfl, rfl⟩ | ⟨rfl, rfl⟩ | ⟨b, rfl, u, hu, rfl⟩ | ⟨rfl, rfl⟩
    · rcases popOnce_next hu with ⟨_, rfl⟩ | ⟨hne, b, _, rfl⟩
      · simp [State.left, State.goto, e, Seq.left, State.popResult, popNone, State.raise, State.spend]
      · have : ringDist s.cfg.rbN (ringSucc s.cfg.rbN s.rb.tail) s.rb.headC + 1 = ringDist s.cfg.rbN s.rb.tail s.rb.headC := by
          have h1 : 1 ≤ ringDist s.cfg.rbN s.rb.tail s.rb.headC :=
            Nat.pos_of_ne_zero fun z => hne ((ringDist_eq_zero htl hhc).1 z).symm
          have := ringDist_advance htl hhc h1
          rw [ringSucc]; omega
        simp only [State.left, State.countC, e]
        simp [State.goto, Seq.left, popSome, State.popResult, State.raise, State.publishTail]
        omega
    · simp [State.left, State.goto, e, Seq.left, State.countC]
    · simp [State.left, State.finish, e, Seq.left]
    · have hrb : u.rb = s.rb ∧ u.cfg = s.cfg := by
        rcases feedOnce_next hu with ⟨_, x, _, rfl⟩ | ⟨_, _, rfl⟩ | ⟨_, _, x, _, rfl⟩ <;> exact ⟨rfl, rfl⟩
      simp [State.left, State.goto, e, Seq.left, State.countC, hrb.1, hrb.2]
    · simp [State.left, State.goto, e, Seq.left, State.countC]
  · next op a e =>
    rw [e] at hns
    rcases nandTurn_next h with ⟨rfl, _, _, rfl⟩ | ⟨rfl, hn, _⟩ | ⟨rfl, tx, o, _, _, rfl⟩ | ⟨o, rfl, rfl⟩ | ⟨x, k, rfl, rfl⟩ |
      ⟨rx, rfl, rfl⟩ | ⟨rfl, rfl, rfl⟩ | ⟨rfl, rfl, m, d, _, _, rfl⟩ | ⟨rfl, l, d, rfl, _, rfl⟩ | ⟨rfl, hc, rfl⟩ | ⟨rfl, hc, rfl⟩
    · simp [State.left, assertCs, State.goto, State.raise, e, Seq.left]
    · refine absurd ⟨hns, ?_⟩ hn
      cases hb : s.ns.csN with
      | true => rfl
      | false => rw [hcs.1 hb] at hns; cases hns
    · have : (exchanged op tx o s.answered).cfg = s.cfg := by
        cases o <;> simp only [exchanged] <;> first | rfl | (split <;> rfl)
      simp only [State.left, State.goto, e, Seq.left, this]
      omega
    · simp [State.left, deassertCs, State.goto, State.raise, e, Seq.left]
    · simp [State.left, enterError, State.finish, e, Seq.left]
    · simp [State.left, State.goto, e, Seq.left]
    · simp [State.left, startSettle, State.goto, State.raise, e, Seq.left]
    · simp [State.left, nandOk, State.finish, e, Seq.left]
    · simp [State.left, nandOk, State.finish, e, Seq.left]
    · simp [State.left, e, Seq.left]; omega
    · simp [State.left, endSettle, nandOk, State.finish, e, Seq.left]

/-! ## A round is used up -/

/-- No move of the block touches what the world does next. -/
theorem Move.plans (m : Move s t) : t.env.inputs = s.env.inputs ∧ t.env.cycle = s.env.cycle := by
  have pop : ∀ {u : State}, popOnce s = .next u → u.env.inputs = s.env.inputs ∧ u.env.cycle = s.env.cycle := fun h => by
    rcases popOnce_next h with ⟨_, rfl⟩ | ⟨_, b, _, rfl⟩ <;> exact ⟨rfl, rfl⟩
  have feed : ∀ {b : Byte} {u : State}, feedOnce b s = .next u →
      u.env.inputs = s.env.inputs ∧ u.env.cycle = s.env.cycle := fun h => by
    rcases feedOnce_next h with ⟨_, x, _, rfl⟩ | ⟨_, _, rfl⟩ | ⟨_, _, x, _, rfl⟩ <;> exact ⟨rfl, rfl⟩
  cases m with
  | still h => subst h; exact ⟨rfl, rfl⟩
  | push b h => subst h; split <;> exact ⟨rfl, rfl⟩
  | pop _ h => exact pop h
  | feed b _ h => exact feed h
  | beginDrain _ h => subst h; exact ⟨rfl, rfl⟩
  | beginReset _ h => subst h; exact ⟨rfl, rfl⟩
  | beginReadId _ h => subst h; exact ⟨rfl, rfl⟩
  | beginReadPage _ _ _ _ h => subst h; exact ⟨rfl, rfl⟩
  | drain a _ _ _ h =>
    rcases drainTurn_next h with ⟨_, u, hu, rfl⟩ | ⟨b, _, rfl⟩ | ⟨_, rfl⟩ | ⟨b, _, u, hu, rfl⟩ | ⟨_, rfl⟩
    · exact pop (u := u) hu
    · exact ⟨rfl, rfl⟩
    · exact ⟨rfl, rfl⟩
    · exact feed (u := u) hu
    · exact ⟨rfl, rfl⟩
  | nand op a _ _ _ h =>
    rcases nandTurn_next h with ⟨_, _, _, rfl⟩ | ⟨_, _, rfl⟩ | ⟨_, tx, o, _, _, rfl⟩ | ⟨o, _, rfl⟩ | ⟨x, k, _, rfl⟩ |
      ⟨rx, _, rfl⟩ | ⟨_, _, rfl⟩ | ⟨_, _, m, d, _, _, rfl⟩ | ⟨_, l, d, _, _, rfl⟩ | ⟨_, _, rfl⟩ | ⟨_, _, rfl⟩
    case inr.inr.inl => cases o <;> simp only [exchanged] <;> first | exact ⟨rfl, rfl⟩ | (split <;> exact ⟨rfl, rfl⟩)
    all_goals exact ⟨rfl, rfl⟩
  | syncH k _ h => subst h; exact ⟨rfl, rfl⟩
  | syncT k _ h => subst h; exact ⟨rfl, rfl⟩
  | fatal h => subst h; simp only [enterError]; split <;> exact ⟨rfl, rfl⟩
  | reset h => subst h; exact ⟨rfl, rfl⟩

/-- An input is used up by its step, but for `consumerRest` while C's operation goes on; the cycle stays. -/
theorem takeInput_plans (h : takeInput i s = .next t) :
    t.env.cycle = s.env.cycle ∧
      t.env.inputs = if i = .consumerRest ∧ s.goesOn = true then .consumerRest :: s.env.inputs else s.env.inputs := by
  cases i with
  | request who r => simpa [and_comm] using (takeRequest_move h).plans
  | consumerStep => simpa [and_comm] using (goOn_move h).plans
  | consumerRest =>
    simp only [takeInput] at h
    split at h
    · next hb =>
      have := (consumerTurn_move (by simp only [State.goesOn, Bool.and_eq_true] at hb; exact hb.1) h).plans
      simpa [hb, and_comm] using this
    · next hb => injection h with h; subst h; simp [hb]
  | syncHead => simpa [and_comm] using (exec_move (i := .syncH _) h).plans
  | syncTail => simpa [and_comm] using (exec_move (i := .syncT _) h).plans
  | freeMove =>
    simp only [takeInput, freeTurn] at h
    split at h
    · simpa [and_comm] using (exec_move (i := .push _) h).plans
    · simpa [and_comm] using (goOn_move h).plans
    · simpa [and_comm] using (exec_move (i := .syncH _) h).plans
    · simpa [and_comm] using (exec_move (i := .syncT _) h).plans
  | fatal => injection h with h; simpa [and_comm] using (Move.fatal h.symm).plans
  | reset => injection h with h; simpa [and_comm] using (Move.reset h.symm).plans
  | answer a => injection h with h; subst h; simp
  | hostRead p =>
    simp only [takeInput] at h
    split at h
    · injection h with h; simp [h]
    · cases h
  | foreignMaster => cases h

end Sys2Proof.Machine
end

