-- ==== Sys2Proof/Laws/PerInstr.lean ====
section
/-! SUPPORT. A statement about every operation as syntax, one lemma per constructor: the request that carries it is of its
row's format, and the request's bits are its row's pattern under its row's mask (spec/opcode_table.json, whose widths are
those of `IDX_W` = 8). -/

namespace Sys2Proof.Laws.TablePattern

/-- The encoding of `i` is a word of `i`'s row of the operation table. -/
def Statement (i : Instr) : Prop :=
  ∀ c : Config, c.idxW = 8 → i.wf c = true →
    (encode c i).format = i.row.format ∧ i.format = i.row.format ∧ (encode c i).tableBits < 2 ^ i.row.width ∧
    (encode c i).tableBits &&& i.row.mask = i.row.pattern

/-- A nine-bit word with bit 8 clear, and with bit 8 set, under the mask of bit 8. -/
theorem mask_low {k : Nat} (h : k < 256) : k &&& 0x100 = 0 := by
  apply Nat.eq_of_testBit_eq
  intro j
  rw [Nat.testBit_and, Nat.zero_testBit, show (0x100 : Nat) = 2 ^ 8 from rfl, Nat.testBit_two_pow]
  by_cases e : 8 = j
  · subst e
    rw [Nat.testBit_lt_two_pow (by simpa using h)]
    rfl
  · simp [e]

/-- A three-bit code under the mask of all three bits. -/
theorem code_word : ∀ n < 8, n < 2 ^ 3 ∧ n &&& 0x7 = n := by decide

theorem mask_high {k : Nat} (h : k < 256) : (256 + k) &&& 0x100 = 0x100 := by
  have e : 256 + k = 2 ^ 8 ||| k := (Nat.two_pow_add_eq_or_of_lt (i := 8) (by simpa using h) 1)
  rw [e, Nat.and_or_distrib_right, mask_low h]
  decide

theorem push (b : Byte) : Statement (.push b) := by
  intro c _ _
  have e : (encode c (.push b)).tableBits = 256 + b.toNat := by
    show (1#1 ++ b).toNat = 256 + b.toNat
    rw [BitVec.toNat_append]
    exact (Nat.two_pow_add_eq_or_of_lt (i := 8) b.isLt 1).symm
  refine ⟨rfl, rfl, ?_, ?_⟩
  · rw [e]; have := b.isLt; show 256 + b.toNat < 512; omega
  · rw [e]; exact mask_high b.isLt

theorem pop : Statement .pop := fun _ _ _ => ⟨rfl, rfl, code_word 1 (by decide)⟩
theorem feed (b : Byte) : Statement (.feed b) := fun _ _ _ => ⟨rfl, rfl, code_word 2 (by decide)⟩
theorem drain : Statement .drain := fun _ _ _ => ⟨rfl, rfl, code_word 3 (by decide)⟩
theorem nop : Statement .nop := fun _ _ _ => ⟨rfl, rfl, code_word 0 (by decide)⟩
theorem nandReset : Statement .nandReset := fun _ _ _ => ⟨rfl, rfl, code_word 4 (by decide)⟩
theorem nandReadId : Statement .nandReadId := fun _ _ _ => ⟨rfl, rfl, code_word 5 (by decide)⟩
theorem nandReadPage (page : Nat) : Statement (.nandReadPage page) :=
  fun _ _ _ => ⟨rfl, rfl, code_word 6 (by decide)⟩

theorem syncH (k : Nat) : Statement (.syncH k) := by
  intro c h hw
  have hk : k < 256 := by simpa [Instr.wf, stepFits, Config.rbN, h] using hw
  refine ⟨rfl, rfl, ?_, mask_low hk⟩
  show k < 512
  omega

theorem syncT (k : Nat) : Statement (.syncT k) := by
  intro c h hw
  have hk : k < 256 := by simpa [Instr.wf, stepFits, Config.rbN, h] using hw
  have e : (encode c (.syncT k)).tableBits = 256 + k := by simp [encode, Request.tableBits, Config.rbN, h]
  refine ⟨rfl, rfl, ?_, ?_⟩
  · rw [e]; show 256 + k < 512; omega
  · rw [e]; exact mask_high hk

end Sys2Proof.Laws.TablePattern
end

