-- ==== Sys2Proof/Laws/Superloop.lean ====
section
/-! SUPPORT. What holds of the host's payload decoder whatever its JSON dialect (43_host_pipeline.md R192, R196; log 33). -/

namespace Sys2Proof.Superloop

open Sys2Proof.Machine

/-- The dialect only admits or refuses: fields that are read are those of the one reading. -/
theorem looseFields_of_readFields {payload : List Byte} {fields : List Field} (h : readFields payload = some fields) :
    looseFields payload = some fields := by
  simp only [readFields, Option.filter_eq_some_iff] at h
  exact h.1

/-- The demo command's arguments come from the fields of that reading. -/
theorem decodeFields_of_decodeDemo {payload : List Byte} {a : DemoArgs} (h : decodeDemo payload = some a) :
    ∃ fields, looseFields payload = some fields ∧ decodeFields fields = some a := by
  obtain ⟨fields, hf, ha⟩ := Option.bind_eq_some_iff.1 h
  exact ⟨fields, looseFields_of_readFields hf, ha⟩

/-- A payload that has no reading is a parse error. -/
theorem decodeDemo_of_no_fields {payload : List Byte} (h : looseFields payload = none) : decodeDemo payload = none := by
  simp [decodeDemo, readFields, h]

/-- A payload whose fields do not decode is a parse error. -/
theorem decodeDemo_of_fields {payload : List Byte} {fields : List Field} (h : looseFields payload = some fields)
    (hf : decodeFields fields = none) : decodeDemo payload = none := by
  cases hd : decodeDemo payload with
  | none => rfl
  | some a =>
    obtain ⟨fs, h1, h2⟩ := decodeFields_of_decodeDemo hd
    rw [h] at h1; injection h1 with h1; subst h1
    rw [hf] at h2; cases h2

/-! ## The exact field set -/

theorem mem_of_fieldOf {name : List Byte} {fields : List Field} {v : Value} (h : fieldOf name fields = some v) :
    name ∈ fields.map Prod.fst := by
  simp only [fieldOf, Option.map_eq_some_iff] at h
  obtain ⟨f, hf, -⟩ := h
  exact List.mem_map.2 ⟨f, List.mem_of_find?_eq_some hf, by simpa using List.find?_some hf⟩

/-- Fields that decode are six, with the six names. -/
theorem decodeFields_names {fields : List Field} {a : DemoArgs} (h : decodeFields fields = some a) :
    fields.length = 6 ∧ demoNames ⊆ fields.map Prod.fst := by
  rw [decodeFields] at h
  split at h
  · next hl =>
    split at h
    · next h1 h2 h3 h4 h5 h6 =>
      refine ⟨hl, ?_⟩
      simp only [demoNames, List.cons_subset, List.nil_subset, and_true]
      refine ⟨?_, ?_, ?_, ?_, ?_, ?_⟩
      · obtain ⟨v, hv, -⟩ := Option.bind_eq_some_iff.1 h1; exact mem_of_fieldOf hv
      · obtain ⟨v, hv, -⟩ := Option.bind_eq_some_iff.1 h2; exact mem_of_fieldOf hv
      · obtain ⟨v, hv, -⟩ := Option.bind_eq_some_iff.1 h3; exact mem_of_fieldOf hv
      · obtain ⟨v, hv, -⟩ := Option.bind_eq_some_iff.1 h4; exact mem_of_fieldOf hv
      · obtain ⟨v, hv, -⟩ := Option.bind_eq_some_iff.1 h5; exact mem_of_fieldOf hv
      · obtain ⟨v, hv, -⟩ := Option.bind_eq_some_iff.1 h6; exact mem_of_fieldOf hv
    · cases h
  · cases h

/-- The field set is exact: an unknown field fails. -/
theorem decodeFields_of_unknown {fields : List Field} {name : List Byte} (hm : name ∈ fields.map Prod.fst)
    (hn : name ∉ demoNames) : decodeFields fields = none := by
  cases hd : decodeFields fields with
  | none => rfl
  | some a =>
    obtain ⟨hl, hs⟩ := decodeFields_names hd
    have nd : (name :: demoNames).Nodup := List.nodup_cons.2 ⟨hn, by decide⟩
    have := (nd.subperm (List.cons_subset.2 ⟨hm, hs⟩)).length_le
    simp [demoNames, hl] at this

/-- The field set is exact: a missing field fails. -/
theorem decodeFields_of_missing {fields : List Field} {name : List Byte} (hn : name ∈ demoNames)
    (hm : name ∉ fields.map Prod.fst) : decodeFields fields = none := by
  cases hd : decodeFields fields with
  | none => rfl
  | some a => exact absurd ((decodeFields_names hd).2 hn) hm

/-- A payload with an unknown field is a parse error (R192). -/
theorem decodeDemo_of_unknown {payload name : List Byte} (hm : name ∈ fieldNames payload) (hn : name ∉ demoNames) :
    decodeDemo payload = none := by
  cases hl : looseFields payload with
  | none => exact decodeDemo_of_no_fields hl
  | some fields => exact decodeDemo_of_fields hl (decodeFields_of_unknown (by simpa [fieldNames, hl] using hm) hn)

/-- A payload without one of the six fields is a parse error (R192). -/
theorem decodeDemo_of_missing {payload name : List Byte} (hn : name ∈ demoNames) (hm : name ∉ fieldNames payload) :
    decodeDemo payload = none := by
  cases hl : looseFields payload with
  | none => exact decodeDemo_of_no_fields hl
  | some fields => exact decodeDemo_of_fields hl (decodeFields_of_missing hn (by simpa [fieldNames, hl] using hm))

/-! ## A colon for every field -/

/-- Every field has its colon. -/
theorem members_length (ts : List Token) : ∀ {fields : List Field}, members ts = some fields →
    fields.length ≤ ts.count .colon := by
  fun_induction members ts with
  | case1 => intro fields h; injection h with h; simp [← h]
  | case2 n v =>
    intro fields h
    simp only [Option.map_eq_some_iff] at h
    obtain ⟨f, -, rfl⟩ := h
    simp [List.count_cons]
    omega
  | case3 n v rest f fs hr _ ih =>
    intro fields h
    injection h with h
    subst h
    have := ih hr
    simp [List.count_cons]
    omega
  | case4 => intro fields h; cases h
  | case5 => intro fields h; cases h

/-- What follows a quoted text is the end of what the text began. -/
theorem upToQuote_sublist {q : Byte} (bs : List Byte) : ∀ {r}, upToQuote q bs = some r → r.2.Sublist bs := by
  fun_induction upToQuote q bs with
  | case1 => intro r h; cases h
  | case2 bs => intro r h; injection h with h; subst h; exact List.sublist_cons_self ..
  | case3 => intro r h; cases h
  | case4 _ c cs ih =>
    intro r h
    obtain ⟨r', hr, rfl⟩ := Option.map_eq_some_iff.1 h
    exact ((ih hr).cons _).cons _
  | case5 b bs _ _ ih =>
    intro r h
    obtain ⟨r', hr, rfl⟩ := Option.map_eq_some_iff.1 h
    exact (ih hr).cons _

theorem afterComment_sublist (bs : List Byte) : ∀ {r}, afterComment bs = some r → r.Sublist bs := by
  fun_induction afterComment bs with
  | case1 => intro r h; cases h
  | case2 b bs _ => intro r h; injection h with h; subst h; exact (List.tail_sublist _).cons _
  | case3 b bs _ ih => intro r h; exact (ih h).cons _

theorem skipComment_sublist {bs r : List Byte} (h : skipComment bs = some r) : r.Sublist bs := by
  rw [skipComment] at h
  split at h
  · injection h with h; subst h; exact List.dropWhile_sublist _
  · split at h
    · exact (afterComment_sublist _ h).trans (List.tail_sublist _)
    · cases h

/-- Every colon token is a colon of the payload. -/
theorem tokens_colons (n : Nat) (bs : List Byte) : ∀ {ts}, tokens n bs = some ts → ts.count .colon ≤ bs.count 0x3A#8 := by
  fun_induction tokens n bs with
  | case1 => intro ts h; injection h with h; simp [← h]
  | case2 => intro ts h; cases h
  | case3 n b bs _ ih => intro ts h; exact (ih h).trans (List.count_le_count_cons ..)
  | case4 n b bs _ t ht ih =>
    intro ts h
    obtain ⟨us, hu, rfl⟩ := Option.map_eq_some_iff.1 h
    have := ih hu
    have hb : t = .colon → b = 0x3A#8 := by
      rintro rfl
      simp only [signToken] at ht
      repeat' split at ht
      all_goals first | assumption | cases ht
    by_cases hc : t = .colon
    · simp [hc, hb hc]; omega
    · rw [List.count_cons_of_ne hc]; exact this.trans (List.count_le_count_cons ..)
  | case5 => intro ts h; cases h
  | case6 => intro ts h; cases h
  | case7 n b bs _ _ _ r hr _ _ ih =>
    intro ts h
    obtain ⟨us, hu, rfl⟩ := Option.map_eq_some_iff.1 h
    rw [List.count_cons_of_ne (by simp)]
    exact (ih hu).trans (((upToQuote_sublist _ hr).cons _).count_le _)
  | case8 => intro ts h; cases h
  | case9 n bs rest hr _ _ _ ih => intro ts h; exact (ih h).trans (((skipComment_sublist hr).cons _).count_le _)
  | case10 n b bs _ _ _ _ _ ih =>
    intro ts h
    obtain ⟨us, hu, rfl⟩ := Option.map_eq_some_iff.1 h
    rw [List.count_cons_of_ne (by simp)]
    exact (ih hu).trans (((List.dropWhile_sublist _).cons _).count_le _)
  | case11 => intro ts h; cases h

/-- A payload with fewer than six fields in it is a parse error. -/
theorem decodeDemo_of_few_colons {payload : List Byte} (h : payload.count 0x3A#8 < 6) : decodeDemo payload = none := by
  cases hd : decodeDemo payload with
  | none => rfl
  | some a =>
    obtain ⟨fields, hf, ha⟩ := decodeFields_of_decodeDemo hd
    have hl := (decodeFields_names ha).1
    rw [looseFields] at hf
    split at hf
    · next ts ht =>
      have h1 := members_length ts hf
      have h2 := tokens_colons _ _ ht
      simp only [List.count_cons] at h2
      omega
    · cases hf

/-! ## Floats -/

variable {f : FloatFormat} {t : List Byte} {d : Decimal} {p : Place}

/-- Everything a number can decode to as a float: itself where it is one, else one of its two neighbours, the nearer one
where that alone is within one epsilon; only beyond the finite floats may it fail. -/
theorem decodeFloat_cases (h : readNumber t = some d)
    (hp : f.place (d.digits * 10 ^ d.scale.toNat) (10 ^ (-d.scale).toNat) = p) :
    (p.exact = true ∧ decodeFloat f (.number t) = some (f.signed d.neg p.bits)) ∨
    (p.exact = false ∧ (p.belowNear = true ∨ p.aboveNear = false) ∧ decodeFloat f (.number t) = some (f.signed d.neg p.bits)) ∨
    (p.exact = false ∧ (p.aboveNear = true ∨ p.belowNear = false) ∧
      decodeFloat f (.number t) = some (f.signed d.neg (p.bits + 1))) ∨
    (p.exact = false ∧ p.bits + 1 = f.inf ∧ decodeFloat f (.number t) = none) := by
  simp only [decodeFloat, h, hp]
  by_cases hi : p.bits + 1 = f.inf <;>
    cases he : p.exact <;> cases hb : p.belowNear <;> cases ha : p.aboveNear <;> cases hr : roundsAway f.width t <;>
      cases hh : hugeAllowed f.width t <;> simp [hi]

end Sys2Proof.Superloop
end

