-- ==== Sys2Proof/Tests/Slice0.lean ====
section
/-! SUPPORT. Tests with their expected values from the spec (95_test_vectors.md and the rules named at each test), the smoke
test of WellFormed, and for every statement with hypotheses a concrete state and operands that meet them together. -/

namespace Sys2Proof.Tests

open Sys2Proof.Machine

/-! ## Helpers -/

/-- A small configuration: four slots, four bytes a line, two settle steps, Read-Page 3 + 1 + 4 (the lengths of V-NS-7). -/
def small : Config := { idxW := 2, lineCap := 4, tSettle := some 2, page := some ⟨3, 1, 4⟩ }

/-- The small configuration with exact views. -/
def exactViews : Config := { small with syncLag := .zero }

/-- Reset under a configuration. -/
def at0 (c : Config) : State := { State.reset with cfg := c }

/-- A state with one input. -/
def given (i : Input) (s : State) : State := { s with env := { s.env with inputs := [i] } }

/-- A state with one answer of V. -/
def told (a : BusAnswer) (s : State) : State := { s with env := { s.env with answers := [a] } }

/-- The ring at given indices, with some bytes written from slot 0 on. -/
def ring (c : Config) (bytes : List Byte) (head tail headC tailP : Nat) : State :=
  let s := at0 c
  { s with rb := { s.rb with mem := Memory.writeAll [] 0 bytes, head := head, tail := tail, headC := headC, tailP := tailP } }

/-- One unread byte, visible, and the history that goes with it. -/
def one : State := { ring small [0x41] 1 0 1 0 with history := [.pushed 0x41] }

/-- A full ring: three unread bytes of four slots. -/
def full : State :=
  { ring small [0x41, 0x42, 0x43] 3 0 3 0 with history := [.pushed 0x41, .pushed 0x42, .pushed 0x43] }

/-- The line buffer holding some bytes. -/
def line (c : Config) (bytes : List Byte) : State :=
  { at0 c with lf := { line := Memory.writeAll [] 0 bytes, idx := bytes.length } }

/-- The consumer inside an operation. -/
def busy (seq : Seq) (s : State) : State := { s with cons := { cBusy := true, halted := false, seq := seq } }

/-- The consumer halted. -/
def halted (s : State) : State := { s with cons := { s.cons with halted := true } }

/-- The bytes of `xbuf` from 0 on. -/
def xbuf (bytes : List Byte) (s : State) : State := { s with ns := { s.ns with xbuf := Memory.writeAll [] 0 bytes } }

/-- Chip-select low, `n` bytes under way. -/
def transacting (n : Nat) (s : State) : State :=
  { s with ns := { s.ns with csN := false, nsState := .transacting, xlen := n } }

/-- NAND_RESET waiting for its settle count. -/
def settling (n : Nat) : State :=
  let s := busy (.nand .reset .settle) (xbuf [0xFF] (at0 small))
  { s with ns := { s.ns with nsState := .settling, settleCnt := n } }

/-- A field of the next state, if there is one. -/
def got {α : Type} (o : Out) (f : State → α) : Option α :=
  match o with
  | .next s => some (f s)
  | _ => none

/-- The next state, or `s`. -/
def nextOr (o : Out) (s : State) : State :=
  match o with
  | .next t => t
  | _ => s

/-- A step answers a next state. -/
def runs (o : Out) : Bool :=
  match o with
  | .next _ => true
  | _ => false

/-- Then `nextOr` is that state. -/
theorem next_of_runs {o : Out} {s : State} (h : runs o = true) : o = .next (nextOr o s) := by
  cases o <;> first | rfl | cases h

/-- How a step stops, if it stops. -/
def stops (o : Out) : Option (Fault ⊕ Refusal) :=
  match o with
  | .next _ => none
  | .fault f => some (.inl f)
  | .refused r => some (.inr r)

/-- A request of an operation by its owner. -/
def ask (i : Instr) (s : State) : State := given (.request i.format.owner (encode s.cfg i)) s

/-! ## WellFormed: each check refuses an ill-formed term -/

theorem test_wf_accepts_defaults : ({} : Config).wf = true ∧ small.wf = true ∧ exactViews.wf = true := by decide
theorem test_wf_refuses_one_slot : ({ idxW := 0 } : Config).ringOk = false := by decide
theorem test_wf_refuses_empty_line : ({ lineCap := 0 } : Config).lineOk = false := by decide
theorem test_wf_refuses_long_line : ({ lineCap := 257 } : Config).lineOk = false := by decide
theorem test_wf_refuses_mfr_outside : ({ idMfrIdx := 6 } : Config).idOk = false := by decide
theorem test_wf_refuses_dev_outside : ({ idDevIdx := 6 } : Config).idOk = false := by decide
theorem test_wf_refuses_wide_page :
    (Instr.nandReadPage 0x1000000).wf small = false ∧ (Instr.nandReadPage 0xFFFFFF).wf small = true := by decide
theorem test_wf_refuses_wide_syncH : (Instr.syncH 4).wf small = false ∧ (Instr.syncH 3).wf small = true := by decide
theorem test_wf_refuses_wide_syncT : (Instr.syncT 4).wf small = false ∧ (Instr.syncT 3).wf small = true := by decide
theorem test_wf_accepts_plain_operations :
    ([.push 0xFF, .pop, .feed 0, .drain, .nop, .nandReset, .nandReadId] : List Instr).all (Instr.wf small) = true := by decide

/-! ## Decoding: the words of V-EN-1 to V-EN-10, written out from 30_encoding.md R91 to R93 -/

theorem test_decode_push : decode {} (.w 0b1_01000001#9) = .ok (.push 0x41) := by decide
theorem test_decode_idle_word : decode {} (.w 0b0_01000001#9) = .error .noRequest := by decide
theorem test_decode_nop : decode {} (.c 0b000#3 0x55 7) = .ok .nop := by decide
theorem test_decode_pop : decode {} (.c 0b001#3 0x55 7) = .ok .pop := by decide
theorem test_decode_feed : decode {} (.c 0b010#3 0x0A 7) = .ok (.feed 0x0A) := by decide
theorem test_decode_drain : decode {} (.c 0b011#3 0x55 7) = .ok .drain := by decide
theorem test_decode_nand_reset : decode {} (.c 0b100#3 0x55 7) = .ok .nandReset := by decide
theorem test_decode_nand_read_id : decode {} (.c 0b101#3 0x55 7) = .ok .nandReadId := by decide
theorem test_decode_nand_read_page : decode small (.c 0b110#3 0x55 0x123) = .ok (.nandReadPage 0x123) := by decide
theorem test_decode_reserved : decode {} (.c 0b111#3 0 0) = .error .reservedCode := by decide
theorem test_decode_syncH : decode {} (.s 0b0_00000011) = .ok (.syncH 3) := by decide
theorem test_decode_syncT : decode {} (.s 0b1_00000001) = .ok (.syncT 1) := by decide
theorem test_rows_disjoint : opcodeTable.Pairwise (fun a b => a.disjoint b = true) := by decide
theorem test_table_words :
    decodeTableWord 9 0x141 = some (.push 0x41) ∧ decodeTableWord 16 0x10A = some (.push 0x0A) ∧
    decodeTableWord 3 4 = some .nandReset ∧ decodeTableWord 8 7 = none ∧ decodeTableWord 9 0x003 = some (.syncH 3) := by
  decide

/-! ## RB -/

/-- V-RB-4: the head wraps. -/
theorem test_push_wraps :
    got (exec (.push 0x77) (ring {} [] 255 250 255 250))
      (fun t => (t.rb.head, t.count, memRead .RB 255 t)) = some (0, 6, some 0x77) := by decide

/-- V-RB-13: a full buffer drops the byte. -/
theorem test_push_full :
    got (exec (.push 0x01) (ring {} [] 4 5 4 5))
      (fun t => (t.rb.head, t.rb.mem, t.rb.wOvf, t.history)) = some (4, [], true, [.overflow 0x01]) := by decide

/-- V-RB-11: the tail wraps. -/
theorem test_pop_wraps :
    got (exec .pop { ring {} [] 1 255 1 255 with rb := { (ring {} [] 1 255 1 255).rb with mem := [(255, 0x10)] } })
      (fun t => (t.rb.tail, t.rb.rValid, t.rb.rData)) = some (0, true, 0x10) := by decide

/-- V-RB-1: nothing to pop. -/
theorem test_pop_empty :
    got (exec .pop (at0 {})) (fun t => (t.rb.tail, t.rb.rValid, t.history)) = some (0, false, [.popEmpty]) := by decide

/-- V-RB-3: one byte becomes visible. -/
theorem test_syncH_one : got (exec (.syncH 1) (ring {} [0x41] 1 0 0 0)) (fun t => t.rb.headC) = some 1 := by decide

/-- V-RB-10: beyond the distance. -/
theorem test_syncH_too_far : got (exec (.syncH 4) (ring {} [] 9 6 6 6)) (fun t => t.rb.headC) = some 6 := by decide

/-- V-RB-8, program P2: the producer's view of `tail`. -/
theorem test_syncT_one : got (exec (.syncT 1) (ring {} [0x00] 255 1 255 0)) (fun t => t.rb.tailP) = some 1 := by decide

/-- R129: with exact views no SYNC_T is enabled. -/
theorem test_syncT_exact : got (exec (.syncT 1) (ring exactViews [0x00] 1 1 1 1)) (fun t => t.rb.tailP) = some 1 := by decide

/-- V-RB-5. -/
theorem test_count_wraps : (ring {} [] 3 250 3 250).count = 9 := by decide

/-- R25: with exact views PUSH publishes to the consumer at once (V-RB-2). -/
theorem test_push_exact : got (exec (.push 0x41) (at0 exactViews)) (fun t => (t.rb.head, t.rb.headC)) = some (1, 1) := by decide

/-! ## The gray code: the table of 95_test_vectors.md -/

theorem test_gray :
    [0, 1, 2, 3, 4, 5, 6, 7, 8, 15, 16, 127, 128, 129, 254, 255].map gray =
      [0x00, 0x01, 0x03, 0x02, 0x06, 0x07, 0x05, 0x04, 0x0C, 0x08, 0x18, 0x40, 0xC0, 0xC1, 0x81, 0x80] := by decide
theorem test_ungray : ungray 8 0xC0 = 128 ∧ ungray 8 0x80 = 255 ∧ ungray 8 0x04 = 7 := by decide

/-! ## LF -/

/-- V-LF-2: the carriage return is trimmed. -/
theorem test_feed_delimiter :
    got (exec (.feed 0x0A) (line {} [0x50, 0x49, 0x4E, 0x47, 0x0D])) (fun t => (t.lf.idx, t.history)) =
      some (0, [.lineOut [0x50, 0x49, 0x4E, 0x47]]) := by decide

/-- V-LF-18: the fourth byte of a four-byte line flushes. -/
theorem test_feed_capacity :
    got (exec (.feed 0x44) (line small [0x41, 0x42, 0x43])) (fun t => (t.lf.idx, t.history)) =
      some (0, [.lineOut [0x41, 0x42, 0x43, 0x44]]) := by decide

/-- V-LF-9: a line that is no text is dropped without a trace on the port. -/
theorem test_flush_drops :
    got (exec (.feed 0x0A) (line {} [0xC3, 0x28])) (fun t => (t.lf.idx, t.history, lineOutPort (line {} []) t)) =
      some (0, [.lineDropped [0xC3, 0x28]], none) := by decide

/-- V-LF-10, V-LF-12, V-LF-13. -/
theorem test_text_valid :
    [[0xC3, 0xA9], [0xF0, 0x9F, 0x98, 0x80], [0x41, 0x00, 0x42], []].all textValid = true ∧
    [[0xFF], [0x41, 0x80], [0xC0, 0x80], [0xED, 0xA0, 0x80], [0xF4, 0x90, 0x80, 0x80], [0xE2, 0x82], [0xA9]].all
      (fun s => !textValid s) = true := by decide

/-- V-LF-4, V-LF-5, V-LF-17. -/
theorem test_trim :
    trimEnd ({} : Config).ws [0x20, 0x20, 0x50, 0x49, 0x4E, 0x47, 0x20, 0x09] = [0x20, 0x20, 0x50, 0x49, 0x4E, 0x47] ∧
    trimEnd ({} : Config).ws [0x20, 0x20, 0x20] = [] ∧
    trimEnd ({} : Config).ws [0x50, 0x20, 0x0B, 0x0C] = [0x50] := by decide

/-- R148: step 1 of DRAIN. -/
theorem test_drain_begins : got (exec .drain one) (fun t => (t.cons, t.rb, t.history)) =
    some ({ cBusy := true, halted := false, seq := .drain .pop }, one.rb, one.history) := by decide

/-- V-DR-2: the delimiter that DRAIN popped ends the line that stands open. -/
theorem test_drain_feeds :
    got (step (busy (.drain (.feed 0x0A)) (line {} [0x41, 0x42])))
      (fun t => (t.lf.idx, t.history, t.cons.seq)) = some (0, [.lineOut [0x41, 0x42]], .drain .again) := by decide

/-! ## NS -/

theorem test_nop : got (exec .nop one) (fun t => t) = some one := by decide

/-- V-NS-1: the exchange of NAND_RESET. -/
theorem test_nand_reset_exchange :
    got (step (told (.miso [0x00]) (transacting 1 (xbuf [0xFF] (busy (.nand .reset .t2) (at0 small))))))
      (fun t => (t.history, t.ns.csN)) = some ([.xfer [0xFF] [0x00]], false) := by decide

/-- V-NS-11: a settle count of 0 has no count-down step. -/
theorem test_nand_reset_settled :
    got (step (settling 0)) (fun t => (t.history, t.ns.nsState, t.ns.nandStatus, t.cons.cBusy)) =
      some ([.settleDone, .nandDone .ok], .idle, .ok, false) := by decide

/-- V-NS-4: the identifiers, whatever the other bytes are. -/
theorem test_nand_read_id :
    got (step (xbuf [0x12, 0x34, 0x56, 0x78, 0x9A, 0xBC] (busy (.nand .readId .step4) (at0 small))))
      (fun t => (t.ns.nandMfr, t.ns.nandDev, t.ns.nandStatus, t.history)) =
      some (0x56, 0x78, .ok, [.nandDone (.okId 0x56 0x78)]) := by decide

/-- V-NS-6: a failed exchange. -/
theorem test_nand_read_id_fails :
    got (step (busy (.nand .readId (.check (.err 7 3))) (at0 small)))
      (fun t => (t.ns.nandStatus, t.ns.idValid, t.history, t.cons.cBusy)) =
      some (.err, false, [.nandDone (.busError 7)], false) := by decide

/-- V-NS-7: the transmit image of NAND_READ_PAGE. -/
theorem test_nand_read_page_image :
    got (exec (.nandReadPage 0x000123) (at0 small)) (fun t => t.ns.xbuf.map Prod.snd) =
      some [0x13, 0x00, 0x01, 0x23, 0x00, 0x00, 0x00, 0x00, 0x00] := by decide

/-- V-NS-7: its data. -/
theorem test_nand_read_page_data :
    got (step (xbuf [0, 0, 0, 0, 0, 0xDE, 0xAD, 0xBE, 0xEF] (busy (.nand (.readPage ⟨3, 1, 4⟩) .step4) (at0 small))))
      (fun t => t.history) = some [.nandDone (.okPage [0xDE, 0xAD, 0xBE, 0xEF])] := by decide

/-- V-NS-8, V-NS-9: the address the other way round, and a frame with no data. -/
theorem test_page_frames :
    frameReadPage { pageMsbFirst := false } ⟨3, 1, 4⟩ 0x000123 = [0x13, 0x23, 0x01, 0x00, 0x00, 0x00, 0x00, 0x00, 0x00] ∧
    frameReadPage {} ⟨2, 1, 0⟩ 0x0102 = [0x13, 0x01, 0x02, 0x00] := by decide

/-- V-NS-10. -/
theorem test_nand_read_page_unset : stops (exec (.nandReadPage 0) (at0 {})) = some (.inr .pageUnset) := by decide

/-! ## Errors, reset, and the host -/

/-- V-EX-1: a halted consumer ignores requests, and PUSH still works. -/
theorem test_halted :
    got (exec .pop (halted one)) (fun t => t) = some (halted one) ∧ got (exec (.push 0x42) (halted one)) (fun t => t.rb.head) = some 2 := by
  decide

/-- V-EX-2: chip-select stays low. -/
theorem test_halted_in_transaction :
    let s := halted (transacting 1 (xbuf [0xFF] (busy (.nand .reset .t2) (at0 small))))
    got (step s) (fun t => t) = some s ∧ s.ns.csN = false := by decide

/-- V-EX-4: `nand_mfr` read after reset. -/
theorem test_unset_identifier : stops (step (given (.hostRead .nandMfr) (at0 {}))) = some (.inl (.noResult .nandMfr)) := by decide

/-- R30: the pulse is over a step later. -/
theorem test_pulse_ends : got (step { full with rb := { full.rb with wOvf := true } }) (fun t => t.rb.wOvf) = some false := by
  decide

/-- S4: the parser's round trip. -/
theorem test_parser :
    let p := Superloop.parse ({} : Config).ws
    p [0x50, 0x49, 0x4E, 0x47] = some .ping ∧ p [0x20, 0x50, 0x49, 0x4E, 0x47, 0x20] = some .ping ∧
    p [0x50, 0x49, 0x4E, 0x47, 0x09] = some .ping ∧ p [] = none ∧ p [0x50, 0x49, 0x4E, 0x47, 0x58] = none ∧
    p [0x4C, 0x45, 0x44, 0x4F, 0x4E] = none := by decide

/-- The payload of source example S5. -/
def demoPayload : List Byte :=
  [0x7B, 0x22, 0x61, 0x72, 0x67, 0x5F, 0x75, 0x33, 0x32, 0x22, 0x3A, 0x31, 0x32, 0x33] ++
  [0x2C, 0x22, 0x61, 0x72, 0x67, 0x5F, 0x75, 0x36, 0x34, 0x22, 0x3A, 0x34, 0x35, 0x36, 0x37, 0x38, 0x39, 0x30,
   0x31, 0x32, 0x33, 0x34] ++
  [0x2C, 0x22, 0x61, 0x72, 0x67, 0x5F, 0x62, 0x6F, 0x6F, 0x6C, 0x22, 0x3A, 0x74, 0x72, 0x75, 0x65] ++
  [0x2C, 0x22, 0x61, 0x72, 0x67, 0x5F, 0x66, 0x33, 0x32, 0x22, 0x3A, 0x33, 0x2E, 0x31, 0x34] ++
  [0x2C, 0x22, 0x61, 0x72, 0x67, 0x5F, 0x66, 0x36, 0x34, 0x22, 0x3A, 0x32, 0x2E, 0x37, 0x31, 0x38, 0x32, 0x38,
   0x31, 0x38, 0x32, 0x38, 0x34, 0x35, 0x39, 0x30, 0x34, 0x35] ++
  [0x2C, 0x22, 0x61, 0x72, 0x67, 0x5F, 0x6E, 0x75, 0x6C, 0x6C, 0x61, 0x62, 0x6C, 0x65, 0x5F, 0x75, 0x33, 0x32,
   0x22, 0x3A, 0x6E, 0x75, 0x6C, 0x6C] ++ [0x7D]

/-- S5: the payload decodes, here the floats aside, to the literal values, and null decodes to "absent". -/
theorem test_demo_payload :
    demoPayload.length = 120 ∧
    (Superloop.decodeDemo demoPayload).map (fun a => (a.argU32, a.argU64, a.argBool, a.argNullableU32)) =
      some (123#32, 45678901234#64, true, none) := by decide

/-- R192: a payload that holds no six fields is a parse error in every dialect: none, and `{` followed by `}`. -/
theorem test_demo_no_fields : Superloop.decodeDemo [] = none ∧ Superloop.decodeDemo [0x7B, 0x7D] = none :=
  ⟨Superloop.decodeDemo_of_few_colons (by decide), Superloop.decodeDemo_of_few_colons (by decide)⟩

set_option maxRecDepth 4000 in
/-- R192: S5's payload with `,"note":"x"` before its closing brace has an unknown field, and with `"x":"arg_nullable_u32"` for its
last field lacks one: parse errors in every dialect. -/
theorem test_demo_string_fields :
    Superloop.decodeDemo (demoPayload.dropLast ++
      [0x2C, 0x22, 0x6E, 0x6F, 0x74, 0x65, 0x22, 0x3A, 0x22, 0x78, 0x22, 0x7D]) = none ∧
    Superloop.decodeDemo (demoPayload.take 95 ++
      [0x2C, 0x22, 0x78, 0x22, 0x3A, 0x22, 0x61, 0x72] ++
      [0x67, 0x5F, 0x6E, 0x75, 0x6C, 0x6C, 0x61, 0x62, 0x6C, 0x65, 0x5F, 0x75, 0x33, 0x32, 0x22, 0x7D]) = none :=
  ⟨Superloop.decodeDemo_of_unknown (name := [0x6E, 0x6F, 0x74, 0x65]) (by decide) (by decide),
    Superloop.decodeDemo_of_unknown (name := [0x78]) (by decide) (by decide)⟩

/-- U10: what the dialect may admit and how it is then read, by the JSON5 grammar: a bare name, single quotes, a code escape,
whitespace, a comment, a hexadecimal number, a comma at the end; never a nested value or a second comma. -/
theorem test_demo_loose_forms :
    Superloop.looseFields ([0x7B, 0x61, 0x20, 0x3A, 0x27, 0x62, 0x27, 0x2C] ++ [0x22, 0x5C, 0x75, 0x30, 0x30, 0x36, 0x33, 0x22] ++ [0x3A, 0x30, 0x78, 0x46, 0x2F, 0x2A, 0x2A, 0x2F, 0x2C, 0x7D]) =
      some [([0x61], .other), ([0x63], .number [0x30, 0x78, 0x46])] ∧
    Superloop.looseFields [0x7B, 0x22, 0x61, 0x22, 0x3A, 0x5B, 0x5D, 0x7D] = none ∧
    Superloop.looseFields [0x7B, 0x22, 0x61, 0x22, 0x3A, 0x31, 0x2C, 0x2C, 0x7D] = none ∧
    Superloop.looseFields [0x7B, 0x22, 0x61, 0x22, 0x3A, 0x31, 0x7D, 0x78] = none := by decide

/-- The numbers of JSON and of JSON5. -/
theorem test_demo_numbers :
    Superloop.readNumber [0x2D, 0x31, 0x2E, 0x35, 0x30, 0x45, 0x2D, 0x33] = some ⟨true, 150, -5⟩ ∧
    Superloop.readNumber [0x30, 0x78, 0x31, 0x46] = some ⟨false, 31, 0⟩ ∧
    Superloop.readNumber [0x2B, 0x2E, 0x35] = some ⟨false, 5, -1⟩ ∧ Superloop.readNumber [0x30, 0x31] = none ∧
    Superloop.isJsonNumber [0x2D, 0x30, 0x2E, 0x35] = true ∧ Superloop.isJsonNumber [0x2B, 0x31] = false ∧
    Superloop.isJsonNumber [0x31, 0x2E] = false ∧ Superloop.isJsonNumber [0x30, 0x78, 0x31, 0x46] = false := by decide

/-- R192, R196: a field missing, a field unknown, a value of the wrong kind, a number that does not fit. -/
theorem test_demo_fields :
    let all : List Superloop.Field :=
      [(Superloop.argU32, .number [0x31]), (Superloop.argU64, .number [0x32]), (Superloop.argBool, .bool true),
       (Superloop.argF32, .number [0x33]), (Superloop.argF64, .number [0x34]), (Superloop.argNullableU32, .null)]
    (Superloop.decodeFields all).isSome = true ∧ Superloop.decodeFields all.tail = none ∧
    Superloop.decodeFields (([0x78], .null) :: all) = none ∧ Superloop.decodeFields (([0x78], .null) :: all.tail) = none ∧
    Superloop.decodeFields ((Superloop.argU32, .null) :: all.tail) = none ∧
    Superloop.decodeUnsigned 8 (.number [0x32, 0x35, 0x36]) = none := by
  repeat' apply And.intro
  all_goals decide

/-- R196 with source example S5: where 3.14 and 2.718281828459045 stand among the floats (IEEE 754, by exact arithmetic outside
the model; of 3.14 only the float above is within one epsilon), and the ends of the range. -/
theorem test_demo_floats :
    Superloop.f32.place 314 100 = ⟨0x4048F5C2, false, false, true⟩ ∧
    Superloop.f64.place 2718281828459045 (10 ^ 15) = ⟨0x4005BF0A8B145768, false, false, true⟩ ∧
    Superloop.f32.place 1 2 = ⟨0x3F000000, true, true, true⟩ ∧ Superloop.f32.place 0 1 = ⟨0, true, true, true⟩ ∧
    (Superloop.f32.place 1 (2 ^ 149)).bits = 1 ∧ (Superloop.f32.place (2 ^ 128) 1).bits = 0x7F7FFFFF := by decide

set_option maxRecDepth 4000 in
/-- R196, S5: the payload of S5 decodes to the literal values given; -0.5 is itself a float. -/
theorem test_demo_literals :
    (Superloop.decodeDemo demoPayload).map (fun a => (a.argF32, a.argF64)) = some (0x4048F5C3#32, 0x4005BF0A8B145769#64) ∧
    (Superloop.decodeFloat Superloop.f32 (.number [0x2D, 0x30, 0x2E, 0x35])).map BitVec.toNat = some 0xBF000000 := by
  decide

/-- R16: a cycle of pushes alone starves no started operation: the round begins with C's step (log 4). -/
theorem test_cycle_is_fair :
    let push : Input := .request .producer (.w 0x141#9)
    let s := busy (.drain .again) (at0 small)
    let t := { s with env := { s.env with cycle := [push] } }
    step t = .next { t with
      cons := { cBusy := true, halted := false, seq := .drain .pop }
      env := { t.env with inputs := [.syncHead, .syncTail, push] } } := rfl

/-! ## The trace syntax: what the lines of programs P3 and P5 present (R110, R111) -/

/-- P3: each line of a NAND operation stands for all of its steps. -/
theorem test_trace_whole :
    traceInputs {} [.miso [0x00], .op .nandReset, .busErr 7 0, .op .nandReadId] =
      [.answer (.miso [0x00]), .request .consumer (.c 0b100#3 0 0), .consumerRest,
       .answer (.busErr 7 0), .request .consumer (.c 0b101#3 0 0), .consumerRest] := by decide

/-- P5: other agents' lines between `.begin` and `.end`, at the places shown. -/
theorem test_trace_begin_end :
    traceInputs {} ([.opBegin .drain, .opStep] ++ pushs [0x43] ++ [.opEnd, .op (.syncH 2)]) =
      [.request .consumer (.c 0b011#3 0 0), .consumerStep, .request .producer (.w 0x143#9), .consumerRest,
       .request .synchroniser (.s 2)] := by decide

/-- R110: C goes on to the end of its operation before the next line. -/
theorem test_trace_rest :
    got (step (given .consumerRest (busy (.drain (.feed 0x41)) (line small [0x42])))) (fun t => (t.lf.idx, t.env.inputs)) =
      some (2, [.consumerRest]) ∧
    got (step (given .consumerRest one)) (fun t => t.env.inputs) = some [] := by decide

/-! ## Witnesses: states and operands that meet the hypotheses of the statements -/

theorem wit_reset_inv : State.reset.Inv ∧ State.reset.FifoInv := by
  repeat' apply And.intro
  all_goals decide
theorem wit_small_inv : (at0 small).Inv ∧ one.Inv ∧ one.FifoInv ∧ full.Inv ∧ full.FifoInv := by
  repeat' apply And.intro
  all_goals decide
theorem wit_ResetInputRestoresResetState : (given .reset (halted full)).env.inputs = .reset :: [] := by decide

theorem wit_DecodeOfEncodeIsIdentity :
    (Instr.nandReadPage 0xFFFFFF).wf small = true ∧ (Instr.syncH 3).wf small = true ∧ (Instr.syncT 3).wf small = true ∧
    (Instr.syncH 0).wf small = true := by
  repeat' apply And.intro
  all_goals decide
theorem wit_DecodedRequestIsTheEncodedOne :
    decode small (.s 7) = .ok (.syncT 3) ∧ 7 < 2 * small.rbN ∧ decode small (.c 0b110#3 0 0x1000005) = .ok (.nandReadPage 5) := by
  repeat' apply And.intro
  all_goals decide
theorem wit_DecodedOperands :
    decode small (.c 0b010#3 0x55 7) = .ok (.feed 0x55) ∧ decode {} (.c 0b110#3 0 7) = .ok (.nandReadPage 7) ∧
    small.page = some ⟨3, 1, 4⟩ ∧ ({} : Config).page = none := by
  repeat' apply And.intro
  all_goals decide
theorem wit_StepRunsTheDecodedRequest :
    ((ask (.push 0x41) full).env.inputs = [.request .producer (.w 0x141#9)] ∧ decode small (.w 0x141#9) = .ok (.push 0x41)) ∧
    ((ask .pop one).env.inputs = [.request .consumer (.c 0b001#3 0 0)] ∧ decode small (.c 0b001#3 0 0) = .ok .pop ∧
      (ask .pop one).cons.cBusy = false) ∧
    ((ask .pop (halted (busy (.drain .pop) one))).cons.halted = true) ∧
    ((ask .pop (busy (.drain .pop) one)).cons.cBusy = true ∧ (ask .pop (busy (.drain .pop) one)).cons.halted = false) ∧
    ((ask (.syncH 1) full).env.inputs = [.request .synchroniser (.s 1)] ∧ decode small (.s 1) = .ok (.syncH 1)) := by
  repeat' apply And.intro
  all_goals decide
theorem wit_PlacedTableWordIsExecuted :
    State.reset.cfg.idxW = 8 ∧ decodeTableWord 9 0x141 = some (.push 0x41) ∧ decodeTableWord 9 0x1FF = some (.push 0xFF) ∧
    decodeTableWord 9 0x0FF = some (.syncH 255) ∧ decodeTableWord 3 6 = some (.nandReadPage 0) := by
  repeat' apply And.intro
  all_goals decide
theorem wit_IdleWriteWordChangesNothing :
    (0x0FF#9).toNat < 256 ∧ (given (.request .producer (.w 0x0FF#9)) one).env.inputs = [.request .producer (.w 0x0FF#9)] := by
  repeat' apply And.intro
  all_goals decide
theorem wit_ExcludedRequestsAreRefused :
    one.ready ∧ 256 ≤ (0x141#9).toNat ∧
    (given (.request .consumer (.c 0b111#3 0 0)) one).ready ∧
    (given (.request .secondProducer (.w 0x141#9)) one).env.inputs = [.request .secondProducer (.w 0x141#9)] ∧
    (given (.request .consumer (.w 0x141#9)) one).env.inputs = [.request .consumer (.w 0x141#9)] ∧
    (given (.request .secondConsumer (.c 1#3 0 0)) one).env.inputs = [.request .secondConsumer (.c 1#3 0 0)] ∧
    (given (.request .producer (.c 1#3 0 0)) one).env.inputs = [.request .producer (.c 1#3 0 0)] ∧
    (given (.request .consumer (.s 1)) one).env.inputs = [.request .consumer (.s 1)] ∧
    (given .foreignMaster one).env.inputs = [.foreignMaster] := by
  repeat' apply And.intro
  all_goals decide
theorem wit_BusyOrHaltedPortIgnoresRequests :
    Instr.drain.format = .C ∧ (busy (.drain .pop) one).cons.cBusy = true ∧ (halted one).cons.halted = true := by
  repeat' apply And.intro
  all_goals decide

theorem wit_PushFollowsItsRule :
    ((full.rb.head + 1) % full.cfg.rbN = full.rb.tailP) ∧ ((one.rb.head + 1) % one.cfg.rbN ≠ one.rb.tailP) := by
  repeat' apply And.intro
  all_goals decide
/-- For PushChangesOnlyItsSlotAndHead and PushNeverOverwritesUnread: both arms. -/
theorem wit_Push :
    full.Inv ∧ runs (exec (.push 0x44) full) = true ∧ full.fullP = true ∧
    one.Inv ∧ runs (exec (.push 0x44) one) = true ∧ one.fullP = false ∧
    one.cfg.syncLag = .free := by
  repeat' apply And.intro
  all_goals decide
theorem wit_PopFollowsItsRule :
    (at0 small).ready ∧ (at0 small).rb.headC = (at0 small).rb.tail ∧
    one.ready ∧ one.rb.headC ≠ one.rb.tail ∧ memRead .RB one.rb.tail one = some 0x41 := by
  repeat' apply And.intro
  all_goals decide
theorem wit_PopChangesOnlyTailAndResult :
    runs (exec .pop one) = true ∧ one.cfg.syncLag = .free ∧ (at0 small).emptyC = true := by
  repeat' apply And.intro
  all_goals decide
theorem wit_PopOfEmpty : exec .pop (at0 small) = .next (popNone (at0 small)) := rfl
theorem wit_PopReadsTheOldestUnreadByte : full.Inv ∧ full.FifoInv ∧ full.ready ∧ full.rb.headC ≠ full.rb.tail := by
  repeat' apply And.intro
  all_goals decide
/-- For SyncHFollowsItsRule and SyncAdvancesTheViewAndNeverLeads, at both ends of the range of `k`. -/
theorem wit_SyncHFollowsItsRule :
    let s := ring small [0x41, 0x42, 0x43] 3 0 0 0
    s.Inv ∧ s.cfg.syncLag = .free ∧ 3 ≤ ringDist s.cfg.rbN s.rb.headC s.rb.head ∧
    syncHEnabled 1 s = true ∧ syncHEnabled 3 s = true ∧ runs (exec (.syncH 3) s) = true := by
  repeat' apply And.intro
  all_goals decide
/-- For SyncTFollowsItsRule and SyncAdvancesTheViewAndNeverLeads, at both ends of the range of `k`. -/
theorem wit_SyncTFollowsItsRule :
    let s := ring small [0x41, 0x42, 0x43] 3 3 3 0
    s.Inv ∧ s.cfg.syncLag = .free ∧ 3 ≤ ringDist s.cfg.rbN s.rb.tailP s.rb.tail ∧
    syncTEnabled 1 s = true ∧ syncTEnabled 3 s = true ∧ runs (exec (.syncT 3) s) = true := by
  repeat' apply And.intro
  all_goals decide
theorem wit_DisabledSyncChangesNothing :
    (at0 exactViews).cfg.syncLag = .zero ∧ ringDist full.cfg.rbN full.rb.headC full.rb.head < 1 ∧
    ringDist full.cfg.rbN full.rb.tailP full.rb.tail < 1 := by
  repeat' apply And.intro
  all_goals decide
theorem wit_FifoOrderIsKept :
    let s := ask .pop one
    s.Inv ∧ s.FifoInv ∧ runs (step s) = true ∧
    (poppedBytes (nextOr (step s) s).history)[0]? = some 0x41 := by
  repeat' apply And.intro
  all_goals decide
theorem wit_CapacityProperty :
    (at0 small).Inv ∧ (at0 small).rb.tailP = (at0 small).rb.head ∧
    ([0x41, 0x42, 0x43] : List Byte).length = small.rbDepth := by
  repeat' apply And.intro
  all_goals decide
theorem wit_PushAndPopCommute : one.Inv ∧ one.ready ∧ one.cfg.syncLag = .free ∧ full.Inv ∧ full.ready := by
  repeat' apply And.intro
  all_goals decide
theorem wit_ZeroLagStepsAreLaggingStepsThenSync :
    let s := ring exactViews [0x41] 1 0 1 0
    s.Inv ∧ s.cfg.syncLag = .zero ∧ runs (exec (.push 0x42) s) = true ∧
    runs (exec .pop s) = true := by
  repeat' apply And.intro
  all_goals decide

theorem wit_GrayCodeBitByBit : 255 < 2 ^ (7 + 1) := by decide
theorem wit_UngrayInvertsGray : 255 < 2 ^ (7 + 1) ∧ 0 < 7 ∧ 6 < 7 ∧ 0x80 < 2 ^ 8 := by
  repeat' apply And.intro
  all_goals decide
theorem wit_GrayNeighboursDifferInOneBit : ({} : Config).wf = true ∧ 255 < ({} : Config).rbN ∧ 127 < ({} : Config).rbN := by
  repeat' apply And.intro
  all_goals decide
theorem wit_TextValidIsConcatenationOfPatterns :
    textValid [0xC3, 0xA9] = true ∧ (∀ b ∈ ([0x41, 0x7F] : List Byte), b.toNat < 0x80) := by
  repeat' apply And.intro
  all_goals decide
theorem wit_TrimmingKeepsValidity :
    (trimEnd ({} : Config).ws [0x41, 0x20]).getLast? = some 0x41 ∧ (∀ b ∈ ({} : Config).ws, b.toNat < 0x80) := by
  repeat' apply And.intro
  all_goals decide

theorem wit_FeedFollowsItsRule :
    let s := line small [0x41, 0x42, 0x43]
    s.ready ∧ s.Inv ∧ s.lf.line.slice 0 s.lf.idx = .ok [0x41, 0x42, 0x43] ∧
    (line small [0x41, 0x42]).lf.idx + 1 ≠ small.lineCap ∧ s.lf.idx + 1 = small.lineCap ∧
    (s.lf.line.write s.lf.idx 0x44).slice 0 small.lineCap = .ok [0x41, 0x42, 0x43, 0x44] := by
  repeat' apply And.intro
  all_goals decide
theorem wit_FeedCompletesAndTouchesOnlyTheLine :
    (line small [0x41, 0x42, 0x43]).Inv ∧ (line small [0x41, 0x42, 0x43]).ready ∧ (0x0A : Byte) = small.delim ∧
    (0x41 : Byte) ≠ small.delim := by
  repeat' apply And.intro
  all_goals decide
theorem wit_EmittedLinesAreCleanText :
    let s := ask (.feed 0x0A) (line small [0x41, 0x42, 0x20])
    s.Inv ∧ runs (step s) = true ∧ Event.lineOut [0x41, 0x42] ∈ newEvents s (nextOr (step s) s) ∧
    (∀ b ∈ s.cfg.ws, b.toNat < 0x80) := by
  repeat' apply And.intro
  all_goals decide
theorem wit_CapacityFlushCutsTheLine :
    (at0 small).Inv ∧ (at0 small).ready ∧ (at0 small).lf.idx = 0 ∧
    (∀ b ∈ ([0x41, 0x42, 0x43, 0x44] : List Byte), b ≠ small.delim) ∧
    ([0x41, 0x42, 0x43] : List Byte).length < small.lineCap ∧
    ([0x41, 0x42, 0x43, 0x44] : List Byte).length = small.lineCap := by
  repeat' apply And.intro
  all_goals decide
theorem wit_SameLineTwiceGivesTwoEqualLines :
    (at0 small).Inv ∧ (at0 small).ready ∧ (at0 small).lf.idx = 0 ∧ (∀ b ∈ ([0x41, 0x42, 0x43] : List Byte), b ≠ small.delim) ∧
    ([0x41, 0x42, 0x43] : List Byte).length < small.lineCap := by
  repeat' apply And.intro
  all_goals decide

/-- The state of DRAIN about to feed a popped byte. -/
def feeding : State := busy (.drain (.feed 0x41)) { one with rb := { one.rb with tail := 1, rValid := true, rData := 0x41 } }

theorem wit_DrainFollowsItsSteps :
    one.ready ∧ (busy (.drain .pop) one).cons.halted = false ∧ runs (popOnce (busy (.drain .pop) one)) = true ∧
    (busy (.drain (.test none)) one).cons.seq = .drain (.test none) ∧
    (busy (.drain (.test (some 0x41))) feeding).cons.seq = .drain (.test (some 0x41)) ∧
    feeding.cons.seq = .drain (.feed 0x41) ∧ runs (feedOnce 0x41 feeding) = true ∧
    (busy (.drain .again) one).cons.seq = .drain .again := by
  repeat' apply And.intro
  all_goals decide
theorem wit_DrainFeedsEveryVisibleByte :
    full.Inv ∧ full.ready ∧ full.undisturbed ∧ full.visible [0x41, 0x42, 0x43] ∧ (at0 small).visible [] := by
  repeat' apply And.intro
  all_goals decide

theorem wit_TransactFollowsItsSteps :
    let s := xbuf [0xFF] (at0 small)
    let b := transacting 1 (busy (.nand .reset .t2) s)
    (busy (.nand .reset .t1) s).ns.nsState = .idle ∧ (busy (.nand .reset .t1) s).ns.csN = true ∧
    (busy (.nand .reset .t1) (settling 1)).ns.nsState ≠ .idle ∧ (busy (.nand .reset .t1) (transacting 1 s)).ns.csN = false ∧
    b.cons.halted = false ∧ b.ns.xbuf.slice 0 1 = .ok [0xFF] ∧
    busOutcome 1 (told (.miso [0x00]) b) = .ok [0x00] ∧ busOutcome 1 (told (.busErr 7 5) b) = .err 7 1 ∧
    (busy (.nand .reset (.t3 (.ok [0x00]))) s).cons.seq = .nand .reset (.t3 (.ok [0x00])) := by
  repeat' apply And.intro
  all_goals decide
theorem wit_NandResetRunsToOk :
    let s := told (.miso [0x00]) (at0 small)
    s.Inv ∧ s.ready ∧ s.undisturbed ∧ busOutcome 1 s = .ok [0x00] := by
  repeat' apply And.intro
  all_goals decide
/-- For NandOperationsFollowTheirSteps: the request, the error test, and step 4 of each operation. -/
theorem wit_NandOperationsFollowTheirSteps :
    (at0 small).ready ∧ small.page = some ⟨3, 1, 4⟩ ∧ 0xFFFFFF < 2 ^ (PageLayout.mk 3 1 4).pageAw ∧
    (busy (.nand .readId (.check (.err 7 0))) (at0 small)).cons.halted = false ∧
    (busy (.nand .readId (.check (.ok [0]))) (at0 small)).cons.seq = .nand .readId (.check (.ok [0])) ∧
    (busy (.nand .reset .step4) (at0 small)).cons.seq = .nand .reset .step4 ∧ 0 < (settling 1).ns.settleCnt ∧
    (settling 0).cons.seq = .nand .reset .settle ∧ (settling 0).ns.settleCnt = 0 ∧
    memRead .XB small.idMfrIdx (xbuf [0, 1, 2, 3] (at0 small)) = some 2 ∧
    memRead .XB small.idDevIdx (xbuf [0, 1, 2, 3] (at0 small)) = some 3 ∧
    (xbuf [0, 1, 2, 3, 4, 5, 6, 7, 8] (at0 small)).ns.xbuf.slice 5 4 = .ok [5, 6, 7, 8] := by
  repeat' apply And.intro
  all_goals decide
/-- For NandOperationsFollowTheirSteps: the settle delay. -/
theorem wit_Settling :
    let s := given (.request .consumer (.c 1#3 0 0)) (settling 2)
    s.Inv ∧ s.cons.halted = false ∧ s.ns.nsState = .settling ∧ 0 < s.ns.settleCnt ∧ (Request.c 1#3 0 0).format = .C ∧
    s.env.inputs = .request .consumer (.c 1#3 0 0) :: [] := by
  repeat' apply And.intro
  all_goals decide
theorem wit_NandReadIdReportsIdentifiers :
    let s := told (.miso [0x9F, 0x00, 0xAB, 0xCD, 0x00, 0x00]) (at0 small)
    s.Inv ∧ s.ready ∧ s.undisturbed ∧ busOutcome s.cfg.idLen s = .ok [0x9F, 0x00, 0xAB, 0xCD, 0x00, 0x00] := by
  repeat' apply And.intro
  all_goals decide
theorem wit_NandReadPageReturnsData :
    let s := told (.miso [0, 0, 0, 0, 0, 0xDE, 0xAD, 0xBE, 0xEF]) (at0 small)
    s.Inv ∧ s.ready ∧ s.undisturbed ∧ s.cfg.page = some ⟨3, 1, 4⟩ ∧ 0xFFFFFF < 2 ^ (PageLayout.mk 3 1 4).pageAw ∧
    busOutcome (PageLayout.mk 3 1 4).frameLen s = .ok [0, 0, 0, 0, 0, 0xDE, 0xAD, 0xBE, 0xEF] := by
  repeat' apply And.intro
  all_goals decide
theorem wit_ReadPageWithoutLengthsIsRefused : State.reset.ready ∧ State.reset.cfg.page = none := by
  repeat' apply And.intro
  all_goals decide
theorem wit_AddressBytesCarryThePageAddress : 0xFFFFFF < 2 ^ (8 * 3) ∧ 0 < 2 ^ (8 * 0) := by
  repeat' apply And.intro
  all_goals decide
theorem wit_BusFailureEndsTheOperation :
    let s := told (.busErr 7 9) (at0 small)
    s.Inv ∧ s.ready ∧ s.undisturbed ∧ busOutcome 1 s = .err 7 1 ∧ busOutcome s.cfg.idLen s = .err 7 6 ∧
    s.cfg.page = some ⟨3, 1, 4⟩ ∧ busOutcome (PageLayout.mk 3 1 4).frameLen s = .err 7 9 := by
  repeat' apply And.intro
  all_goals decide
theorem wit_NandAndPipelineStayApart :
    runs (consumerTurn (settling 1)) = true ∧ (settling 1).cons.seq.inNand = true ∧
    runs (consumerTurn feeding) = true ∧ feeding.cons.seq.inNand = false := by
  repeat' apply And.intro
  all_goals decide

/-- For StepKeepsInvariant, StepKeepsRingInvariant, StepKeepsLineInvariant and StepKeepsNandInvariant. -/
theorem wit_StepKeeps :
    let s := ask (.push 0x42) one
    let u := told (.miso [0x00]) (transacting 1 (xbuf [0xFF] (busy (.nand .reset .t2) (at0 small))))
    s.Inv ∧ s.FifoInv ∧ runs (step s) = true ∧ (line small [0x41]).Inv ∧
    u.Inv ∧ runs (step u) = true ∧ (settling 2).Inv ∧ feeding.Inv := by
  repeat' apply And.intro
  all_goals decide
theorem wit_AgentsWriteOnlyTheirOwnState :
    let p := ask (.push 0x42) one
    let c := ask .pop one
    let y := ask (.syncH 1) (ring small [0x41] 1 0 0 0)
    let x := given (.request .secondProducer (.w 0#9)) one
    runs (step p) = true ∧ runs (step c) = true ∧ runs (step y) = true ∧
    x.env.inputs = [.request .secondProducer (.w 0#9)] ∧ runs (step x) = true := by
  repeat' apply And.intro
  all_goals decide
theorem wit_FatalStopsTheConsumerForGood :
    (given .fatal one).env.inputs = .fatal :: [] ∧ (halted one).cons.halted = true ∧
    (halted one).upcoming.head? ≠ some .reset ∧ runs (step (halted one)) = true := by
  repeat' apply And.intro
  all_goals decide
theorem wit_OnlyHostReadsCanFault :
    (given (.hostRead .rData) (at0 small)).Inv ∧
    stops (step (given (.hostRead .rData) (at0 small))) = some (.inl (.noResult .rData)) ∧
    stops (step (given (.hostRead .nandDev) (at0 small))) = some (.inl (.noResult .nandDev)) ∧
    stops (step (given (.hostRead (.xData 8)) (at0 small))) = some (.inl (.unwritten .XB 8)) ∧
    stops (step (given (.hostRead (.xData 9)) (at0 small))) = some (.inl (.outsideBuffer 9)) := by
  repeat' apply And.intro
  all_goals decide
theorem wit_HostReadsHaveNoSideEffect :
    (given (.hostRead .rData) feeding).env.inputs = .hostRead .rData :: [] ∧
    readPort .rData (given (.hostRead .rData) feeding) = .ok 0x41 ∧
    readPort .rData (given (.hostRead .rData) one) = .error (.noResult .rData) ∧ feeding.rb.rValid = true ∧
    ({ one.ns with idValid := true } : Nand).idValid = true := by
  repeat' apply And.intro
  all_goals decide
theorem wit_OverflowPulseIsOneStepLong :
    runs (step (ask (.push 0x44) full)) = true ∧
    (nextOr (step (ask (.push 0x44) full)) full).rb.wOvf = true := by
  repeat' apply And.intro
  all_goals decide
theorem wit_HistoryOnlyGrows :
    (ask (.push 0x42) one).upcoming.head? ≠ some .reset ∧ runs (step (ask (.push 0x42) one)) = true ∧
    (given .reset one).upcoming.head? = some .reset ∧ runs (step (given .reset one)) = true := by
  repeat' apply And.intro
  all_goals decide
theorem wit_ParametersAreFixed : runs (step (given .reset one)) = true := by decide
theorem wit_IdleStepsBringTheViewsUpToDate :
    let s := ring small [0x41, 0x42, 0x43] 3 1 2 0
    s.Inv ∧ s.undisturbed ∧ s.cons.cBusy = false ∧ (halted (busy (.drain .pop) s)).Inv ∧
    (halted (busy (.drain .pop) s)).cons.halted = true := by
  repeat' apply And.intro
  all_goals decide

end Sys2Proof.Tests
end

/-! ## The parameters are fixed (00_scope.md R7)

Each shared operation keeps `cfg`; so does each move; and a step makes one move from a state with the same parameters. -/

section
namespace Sys2Proof.Machine

variable {s t : State}

/-- No error class touches the parameters (60_exceptions.md R221). -/
@[simp] theorem enterError_cfg (cls : ErrorClass) (s : State) : (enterError cls s).cfg = s.cfg := by
  cases cls with
  | overflow | parseUnknown | busError => rfl
  | fatal => simp only [enterError]; split <;> rfl

theorem popOnce_keeps_cfg (h : popOnce s = .next t) : t.cfg = s.cfg := by
  rcases popOnce_next h with ⟨_, rfl⟩ | ⟨_, b, _, rfl⟩
  · exact popNone_cfg s
  · exact popSome_cfg b s

theorem feedOnce_keeps_cfg {b : Byte} (h : feedOnce b s = .next t) : t.cfg = s.cfg := by
  rcases feedOnce_next h with ⟨_, x, _, rfl⟩ | ⟨_, _, rfl⟩ | ⟨_, _, x, _, rfl⟩
  · exact flushed_cfg x s
  · exact storeLine_cfg b s
  · rw [flushed_cfg, storeLine_cfg]

theorem drainTurn_keeps_cfg {a : DrainAt} (h : drainTurn a s = .next t) : t.cfg = s.cfg := by
  rcases drainTurn_next h with ⟨_, u, hu, rfl⟩ | ⟨b, _, rfl⟩ | ⟨_, rfl⟩ | ⟨b, _, u, hu, rfl⟩ | ⟨_, rfl⟩
  · rw [goto_cfg, popOnce_keeps_cfg hu]
  · exact goto_cfg _ s
  · exact finish_cfg s
  · rw [goto_cfg, feedOnce_keeps_cfg hu]
  · exact goto_cfg _ s

theorem nandTurn_keeps_cfg {op : NandOp} {a : NandAt} (h : nandTurn op a s = .next t) : t.cfg = s.cfg := by
  rcases nandTurn_next h with ⟨_, _, _, rfl⟩ | ⟨_, _, rfl⟩ | ⟨_, tx, o, _, _, rfl⟩ | ⟨o, _, rfl⟩ | ⟨e, k, _, rfl⟩ |
    ⟨rx, _, rfl⟩ | ⟨_, _, rfl⟩ | ⟨_, _, m, d, _, _, rfl⟩ | ⟨_, l, d, _, _, rfl⟩ | ⟨_, _, rfl⟩ | ⟨_, _, rfl⟩ <;> simp

/-- No move of the block changes a parameter, reset included (log 18). -/
theorem Move.keeps_cfg (m : Move s t) : t.cfg = s.cfg := by
  cases m with
  | still h => rw [h]
  | push b h => rw [h]; split <;> simp
  | pop _ h => exact popOnce_keeps_cfg h
  | feed b _ h => exact feedOnce_keeps_cfg h
  | beginDrain _ h => rw [h, begin_cfg]
  | beginReset _ h | beginReadId _ h | beginReadPage _ _ _ _ h => rw [h, startNand_cfg]
  | drain a _ _ _ h => exact drainTurn_keeps_cfg h
  | nand op a _ _ _ h => exact nandTurn_keeps_cfg h
  | syncH k _ h | syncT k _ h => rw [h]
  | fatal h => rw [h, enterError_cfg]
  | reset h => rw [h, resetBlock_cfg]

/-- Settles O58: every step is one move, after a change of the pulse and of the model's own fields alone. -/
theorem parametersAreFixed : Obligations.ParametersAreFixed := by
  intro s t h
  obtain ⟨e, m⟩ := step_move h
  exact m.keeps_cfg

end Sys2Proof.Machine
end

/-! ## Forward distances around the ring (10_state.md R28) -/

section
namespace Sys2Proof.Machine

variable {n a b c k : Nat}

/-- Distances add up as long as they stay below one turn of the ring. -/
theorem ringDist_trans (ha : a < n) (hb : b < n) (hc : c < n) (h : ringDist n a b + ringDist n b c < n) :
    ringDist n a c = ringDist n a b + ringDist n b c := by
  rw [ringDist_eq ha hb, ringDist_eq hb hc] at h ⊢
  rw [ringDist_eq ha hc]
  split_ifs at h ⊢ <;> omega

/-- An end that moves on by `k` is further away by `k`. -/
theorem ringDist_add_right (ha : a < n) (hb : b < n) (h : ringDist n a b + k < n) :
    ringDist n a ((b + k) % n) = ringDist n a b + k := by
  have hk : ringDist n b ((b + k) % n) = k := ringDist_add hb (by omega)
  have := ringDist_trans ha hb (Nat.mod_lt (b + k) (by omega)) (by rw [hk]; exact h)
  rwa [hk] at this

/-- Going the distance to `b` arrives at `b`. -/
theorem add_ringDist_mod (ha : a < n) (hb : b < n) : (a + ringDist n a b) % n = b := by
  have hd := ringDist_lt (a := a) (b := b) (show 0 < n by omega)
  rw [add_mod_eq ha hd.le, ringDist_eq ha hb]
  split_ifs <;> omega

/-- Before its successor meets `a`, an index has room for one more step. -/
theorem ringDist_room (ha : a < n) (hb : b < n) (h : ringSucc n b ≠ a) : ringDist n a b + 1 < n := by
  rw [ringSucc_eq hb] at h
  rw [ringDist_eq ha hb]
  split_ifs at h ⊢ <;> omega

end Sys2Proof.Machine
end

/-! ## The queue content (10_state.md R27) -/

section
namespace Sys2Proof.Machine

variable {s t : State}

theorem content_eq_nil_iff (ht : s.rb.tail < s.cfg.rbN) (hh : s.rb.head < s.cfg.rbN) :
    s.content = [] ↔ s.rb.head = s.rb.tail := by
  rw [State.content, List.map_eq_nil_iff, List.range_eq_nil, State.count, ringDist_eq_zero ht hh, eq_comm]

/-- Every unread slot is written exactly when every entry of the content is a byte. -/
theorem written_iff_content : (∀ i < s.count, (s.rb.mem.read ((s.rb.tail + i) % s.cfg.rbN)).isSome = true) ↔
    ∀ o ∈ s.content, o.isSome = true := by
  simp [State.content]

/-- An accepted PUSH with a free slot appends its byte. -/
theorem acceptPush_content (b : Byte) (ht : s.rb.tail < s.cfg.rbN) (hh : s.rb.head < s.cfg.rbN)
    (hroom : s.count + 1 < s.cfg.rbN) : (acceptPush b s).content = s.content ++ [some b] := by
  have hcount : (acceptPush b s).count = s.count + 1 := ringDist_add_right ht hh hroom
  have hhead : (s.rb.tail + s.count) % s.cfg.rbN = s.rb.head := add_ringDist_mod ht hh
  rw [State.content, hcount, List.range_succ, List.map_append, State.content]
  congr 1
  · refine List.map_congr_left fun i hi => read_write_other _ _ fun e => ?_
    have hi := List.mem_range.1 hi
    have he : ringDist s.cfg.rbN s.rb.tail s.rb.head = i := e ▸ ringDist_add ht (by omega)
    rw [State.count] at hi
    omega
  · simp [hhead]

/-- A POP of a written oldest slot takes the first byte. -/
theorem content_eq_cons_popSome {b : Byte} (ht : s.rb.tail < s.cfg.rbN) (hh : s.rb.head < s.cfg.rbN)
    (hne : 0 < s.count) (hb : s.rb.mem.read s.rb.tail = some b) : s.content = some b :: (popSome b s).content := by
  have hcount : s.count = (popSome b s).count + 1 := by
    have : (popSome b s).count = s.count - 1 := ringDist_advance ht hh hne
    omega
  rw [State.content, hcount, List.range_succ_eq_map, List.map_cons, List.map_map, State.content]
  congr 1
  · rw [Nat.add_zero, Nat.mod_eq_of_lt ht, hb]
  · refine List.map_congr_left fun i _ => ?_
    simp only [Function.comp_apply, popSome_mem, popSome_tail, popSome_cfg, ringSucc, Nat.mod_add_mod]
    rw [Nat.succ_eq_add_one, Nat.add_assoc, Nat.add_comm 1 i]

end Sys2Proof.Machine
end

/-! ## What a move does to the ring

Every move leaves the queue and what the history says of it alone, or is one of five: an accepted PUSH, a POP that finds a
byte, an advance of either view, reset. -/

section
namespace Sys2Proof.Machine

variable {s t u : State}

/-! ### Events and the two byte sequences of R130 -/

@[simp] theorem pushedBytes_append (h l : List Event) : pushedBytes (h ++ l) = pushedBytes h ++ pushedBytes l :=
  List.filterMap_append ..

@[simp] theorem poppedBytes_append (h l : List Event) : poppedBytes (h ++ l) = poppedBytes h ++ poppedBytes l :=
  List.filterMap_append ..

@[simp] theorem pushedBytes_pushed (b : Byte) : pushedBytes [.pushed b] = [b] := rfl
@[simp] theorem poppedBytes_pushed (b : Byte) : poppedBytes [.pushed b] = [] := rfl
@[simp] theorem pushedBytes_popped (b : Byte) : pushedBytes [.popped b] = [] := rfl
@[simp] theorem poppedBytes_popped (b : Byte) : poppedBytes [.popped b] = [b] := rfl

/-- An event that is neither an accepted push nor a successful pop. -/
def Event.offQueue (e : Event) : Prop := pushedBytes [e] = [] ∧ poppedBytes [e] = []

theorem Event.offQueue.pushedBytes_append {e : Event} (he : e.offQueue) (h : List Event) :
    pushedBytes (h ++ [e]) = pushedBytes h := by
  rw [Machine.pushedBytes_append, he.1, List.append_nil]

theorem Event.offQueue.poppedBytes_append {e : Event} (he : e.offQueue) (h : List Event) :
    poppedBytes (h ++ [e]) = poppedBytes h := by
  rw [Machine.poppedBytes_append, he.2, List.append_nil]

theorem lineEvent_offQueue (c : Config) (x : List Byte) : (lineEvent c x).offQueue := by
  rw [lineEvent]; split <;> exact ⟨rfl, rfl⟩

/-! ### `fatal` touches only `halted` and the history (60_exceptions.md R226) -/

@[simp] theorem fatal_rb (s : State) : (enterError .fatal s).rb = s.rb := by
  simp only [enterError]; split <;> rfl
@[simp] theorem fatal_lf (s : State) : (enterError .fatal s).lf = s.lf := by
  simp only [enterError]; split <;> rfl
@[simp] theorem fatal_ns (s : State) : (enterError .fatal s).ns = s.ns := by
  simp only [enterError]; split <;> rfl
@[simp] theorem fatal_cBusy (s : State) : (enterError .fatal s).cons.cBusy = s.cons.cBusy := by
  simp only [enterError]; split <;> rfl
@[simp] theorem fatal_seq (s : State) : (enterError .fatal s).cons.seq = s.cons.seq := by
  simp only [enterError]; split <;> rfl
theorem fatal_history (s : State) :
    (enterError .fatal s).history = s.history ∨ (enterError .fatal s).history = s.history ++ [.fatal] := by
  simp only [enterError]; split
  · exact .inl rfl
  · exact .inr rfl

/-! ### Moves that leave the queue alone -/

/-- The indices, the views, the slots and the accepted and returned bytes are the same in both states. -/
structure QueueKept (s t : State) : Prop where
  cfg    : t.cfg = s.cfg
  mem    : t.rb.mem = s.rb.mem
  head   : t.rb.head = s.rb.head
  tail   : t.rb.tail = s.rb.tail
  headC  : t.rb.headC = s.rb.headC
  tailP  : t.rb.tailP = s.rb.tailP
  pushed : pushedBytes t.history = pushedBytes s.history
  popped : poppedBytes t.history = poppedBytes s.history

theorem QueueKept.refl (s : State) : QueueKept s s := ⟨rfl, rfl, rfl, rfl, rfl, rfl, rfl, rfl⟩

theorem QueueKept.trans (h : QueueKept s t) (h' : QueueKept t u) : QueueKept s u :=
  ⟨h'.cfg.trans h.cfg, h'.mem.trans h.mem, h'.head.trans h.head, h'.tail.trans h.tail, h'.headC.trans h.headC,
    h'.tailP.trans h.tailP, h'.pushed.trans h.pushed, h'.popped.trans h.popped⟩

/-- The ring untouched and no event. -/
theorem QueueKept.of_history (hc : t.cfg = s.cfg) (hr : t.rb = s.rb) (hh : t.history = s.history) : QueueKept s t := by
  constructor <;> simp only [hc, hr, hh]

/-- The ring untouched and one event that is not the queue's. -/
theorem QueueKept.of_event {e : Event} (he : e.offQueue) (hc : t.cfg = s.cfg) (hr : t.rb = s.rb)
    (hh : t.history = s.history ++ [e]) : QueueKept s t := by
  constructor <;> simp only [hc, hr, hh, he.pushedBytes_append, he.poppedBytes_append]

theorem QueueKept.count_eq (h : QueueKept s t) : t.count = s.count := by
  rw [State.count, h.cfg, h.tail, h.head, State.count]

theorem QueueKept.content_eq (h : QueueKept s t) : t.content = s.content := by
  simp only [State.content, h.count_eq, h.mem, h.tail, h.cfg]

theorem goto_queueKept (q : Seq) (s : State) : QueueKept s (s.goto q) := .of_history rfl rfl rfl

theorem answered_queueKept (s : State) : QueueKept s s.answered := .of_history rfl rfl rfl

theorem overflow_queueKept (b : Byte) (s : State) : QueueKept s (enterError (.overflow b) s) :=
  have he : (Event.overflow b).offQueue := ⟨rfl, rfl⟩
  ⟨rfl, rfl, rfl, rfl, rfl, rfl, he.pushedBytes_append _, he.poppedBytes_append _⟩

theorem popNone_queueKept (s : State) : QueueKept s (popNone s) :=
  have he : Event.popEmpty.offQueue := ⟨rfl, rfl⟩
  ⟨rfl, rfl, rfl, rfl, rfl, rfl, he.pushedBytes_append _, he.poppedBytes_append _⟩

theorem flushed_queueKept (x : List Byte) (s : State) : QueueKept s (flushed x s) :=
  .of_event (lineEvent_offQueue s.cfg x) rfl rfl rfl

theorem storeLine_queueKept (b : Byte) (s : State) : QueueKept s (storeLine b s) := .of_history rfl rfl rfl

theorem feedOnce_queueKept {b : Byte} (h : feedOnce b s = .next t) : QueueKept s t := by
  rcases feedOnce_next h with ⟨_, x, _, rfl⟩ | ⟨_, _, rfl⟩ | ⟨_, _, x, _, rfl⟩
  · exact flushed_queueKept x s
  · exact storeLine_queueKept b s
  · exact (storeLine_queueKept b s).trans (flushed_queueKept x _)

theorem exchanged_queueKept (op : NandOp) (tx : List Byte) (o : BusOutcome) (s : State) :
    QueueKept s (exchanged op tx o s) := by
  cases o with
  | ok rx => exact .of_event (e := .xfer tx rx) ⟨rfl, rfl⟩ (by simp) (by simp) (by simp)
  | err e k => exact .of_event (e := .xferErr e k) ⟨rfl, rfl⟩ rfl rfl rfl

theorem endSettle_queueKept (s : State) : QueueKept s (endSettle s) :=
  .trans (t := s.raise .settleDone) (.of_event (e := .settleDone) ⟨rfl, rfl⟩ rfl rfl rfl)
    (.of_event (e := .nandDone .ok) ⟨rfl, rfl⟩ rfl rfl rfl)

/-- No step of a NAND operation touches the queue (42_nand_sequencer.md R161). -/
theorem nandTurn_queueKept {op : NandOp} {a : NandAt} (h : nandTurn op a s = .next t) : QueueKept s t := by
  rcases nandTurn_next h with ⟨_, _, _, rfl⟩ | ⟨_, _, rfl⟩ | ⟨_, tx, o, _, _, rfl⟩ | ⟨o, _, rfl⟩ | ⟨e, k, _, rfl⟩ |
    ⟨rx, _, rfl⟩ | ⟨_, _, rfl⟩ | ⟨_, _, m, d, _, _, rfl⟩ | ⟨_, l, d, _, _, rfl⟩ | ⟨_, _, rfl⟩ | ⟨_, _, rfl⟩
  · exact .of_event (e := .csLow) ⟨rfl, rfl⟩ rfl rfl rfl
  · exact .refl t
  · exact (answered_queueKept s).trans ((exchanged_queueKept op tx o s.answered).trans (goto_queueKept _ _))
  · exact .of_event (e := .csHigh) ⟨rfl, rfl⟩ rfl rfl rfl
  · exact .of_event (e := .nandDone (.busError e)) ⟨rfl, rfl⟩ rfl rfl rfl
  · exact goto_queueKept _ s
  · exact .of_event (e := .settleStart) ⟨rfl, rfl⟩ rfl rfl rfl
  · exact .of_event (e := .nandDone (.okId m d)) ⟨rfl, rfl⟩ rfl rfl rfl
  · exact .of_event (e := .nandDone (.okPage d)) ⟨rfl, rfl⟩ rfl rfl rfl
  · exact .of_history rfl rfl rfl
  · exact endSettle_queueKept s

theorem fatal_queueKept (s : State) : QueueKept s (enterError .fatal s) := by
  rcases fatal_history s with h | h
  · exact .of_history (enterError_cfg _ s) (fatal_rb s) h
  · exact .of_event ⟨rfl, rfl⟩ (enterError_cfg _ s) (fatal_rb s) h

/-! ### All moves -/

/-- What a move does to the queue. -/
inductive QueueMove (s t : State) : Prop where
  | kept (h : QueueKept s t)
  | push (b : Byte) (hf : s.fullP = false) (h : t = acceptPush b s)
  /-- The rest of POP's step, inside DRAIN, leaves the queue alone. -/
  | pop (b : Byte) (hne : s.rb.headC ≠ s.rb.tail) (hb : s.rb.mem.read s.rb.tail = some b) (h : QueueKept (popSome b s) t)
  | syncH (k : Nat) (he : syncHEnabled k s = true)
      (h : t = { s with rb := { s.rb with headC := (s.rb.headC + k) % s.cfg.rbN } })
  | syncT (k : Nat) (he : syncTEnabled k s = true)
      (h : t = { s with rb := { s.rb with tailP := (s.rb.tailP + k) % s.cfg.rbN } })
  | reset (h : t = s.resetBlock)

theorem popOnce_queueMove (h : popOnce s = .next t) (hk : QueueKept t u) : QueueMove s u := by
  rcases popOnce_next h with ⟨_, rfl⟩ | ⟨hne, b, hb, rfl⟩
  · exact .kept ((popNone_queueKept s).trans hk)
  · exact .pop b hne hb hk

theorem drainTurn_queueMove {a : DrainAt} (h : drainTurn a s = .next t) : QueueMove s t := by
  rcases drainTurn_next h with ⟨_, u, hu, rfl⟩ | ⟨b, _, rfl⟩ | ⟨_, rfl⟩ | ⟨b, _, u, hu, rfl⟩ | ⟨_, rfl⟩
  · exact popOnce_queueMove hu (goto_queueKept _ u)
  · exact .kept (goto_queueKept _ s)
  · exact .kept (.of_history rfl rfl rfl)
  · exact .kept ((feedOnce_queueKept hu).trans (goto_queueKept _ u))
  · exact .kept (goto_queueKept _ s)

theorem Move.queueMove (m : Move s t) : QueueMove s t := by
  cases m with
  | still h => exact .kept (h ▸ .refl s)
  | push b h =>
    split at h
    · exact .kept (h ▸ overflow_queueKept b s)
    · next hf => exact .push b (by simpa using hf) h
  | pop _ h => exact popOnce_queueMove h (.refl t)
  | feed b _ h => exact .kept (feedOnce_queueKept h)
  | beginDrain _ h | beginReset _ h | beginReadId _ h | beginReadPage _ _ _ _ h =>
    subst h; exact .kept (.of_history rfl rfl rfl)
  | drain a _ _ _ h => exact drainTurn_queueMove h
  | nand op a _ _ _ h => exact .kept (nandTurn_queueKept h)
  | syncH k he h => exact .syncH k he h
  | syncT k he h => exact .syncT k he h
  | fatal h => exact .kept (h ▸ fatal_queueKept s)
  | reset h => exact .reset h

end Sys2Proof.Machine
end

/-! ## The ring's invariants (10_state.md R28) and the FIFO property (40_ringbuffer.md R130) -/

section
namespace Sys2Proof.Machine

variable {s t : State} {k : Nat} {b : Byte}

/-! ### What the ring order gives -/

/-- The unread bytes are those C can see and those it cannot see yet. -/
theorem RingInv.count_eq (hi : RingInv s) :
    s.count = ringDist s.cfg.rbN s.rb.tail s.rb.headC + ringDist s.cfg.rbN s.rb.headC s.rb.head := by
  obtain ⟨hh, ht, hc, -, hsum, -⟩ := hi
  exact ringDist_trans ht hc hh (by omega)

/-- The bytes P believes unread are the unread ones and those whose POP it has not seen yet. -/
theorem RingInv.countP_eq (hi : RingInv s) :
    s.countP = ringDist s.cfg.rbN s.rb.tailP s.rb.tail + s.count := by
  have hcount := hi.count_eq
  obtain ⟨hh, ht, -, hp, hsum, -⟩ := hi
  exact ringDist_trans hp ht hh (by rw [State.count] at hcount; omega)

/-- While P does not believe the ring full, one more byte fits below `tail_p`. -/
theorem RingInv.countP_room (hi : RingInv s) (hf : s.fullP = false) : s.countP + 1 < s.cfg.rbN := by
  obtain ⟨hh, -, -, hp, -⟩ := hi
  exact ringDist_room hp hh fun e => by simp [fullP_iff.2 e] at hf

/-- While POP's test finds a byte, C sees one. -/
theorem RingInv.visible_pos (hi : RingInv s) (hne : s.rb.headC ≠ s.rb.tail) :
    0 < ringDist s.cfg.rbN s.rb.tail s.rb.headC := by
  obtain ⟨-, ht, hc, -⟩ := hi
  exact Nat.pos_of_ne_zero fun z => hne ((ringDist_eq_zero ht hc).1 z).symm

/-! ### The invariants over each effect on the queue -/

theorem QueueKept.ringInv (h : QueueKept s t) (hi : RingInv s) : RingInv t := by
  rw [RingInv, written_iff_content] at hi ⊢
  rw [h.content_eq, h.cfg, h.head, h.tail, h.headC, h.tailP]
  exact hi

theorem QueueKept.fifoInv (h : QueueKept s t) (hq : s.FifoInv) : t.FifoInv := by
  rw [State.FifoInv, h.pushed, h.popped, h.content_eq]
  exact hq

theorem acceptPush_ringInv (hi : RingInv s) (hf : s.fullP = false) (b : Byte) : RingInv (acceptPush b s) := by
  have hroom := hi.countP_room hf
  have hcount := hi.count_eq
  have hcountP := hi.countP_eq
  obtain ⟨hh, ht, hc, hp, -, hw, hz⟩ := hi
  have hlt : ringSucc s.cfg.rbN s.rb.head < s.cfg.rbN := ringSucc_lt (rbN_pos _)
  refine ⟨hlt, ht, ?_, hp, ?_, ?_, ?_⟩
  · rw [acceptPush_headC]; split <;> assumption
  · simp only [acceptPush_cfg, acceptPush_head, acceptPush_tail, acceptPush_headC, acceptPush_tailP]
    split
    · have hd : ringDist s.cfg.rbN s.rb.tail (ringSucc s.cfg.rbN s.rb.head) = s.count + 1 :=
        ringDist_add_right ht hh (by rw [State.count] at *; omega)
      rw [hd, ringDist_rbN_self]
      omega
    · have hd : ringDist s.cfg.rbN s.rb.headC (ringSucc s.cfg.rbN s.rb.head) =
          ringDist s.cfg.rbN s.rb.headC s.rb.head + 1 := ringDist_add_right hc hh (by omega)
      rw [hd]
      omega
  · rw [written_iff_content] at hw ⊢
    rw [acceptPush_content b ht hh (by omega)]
    simpa [or_imp, forall_and] using hw
  · intro hzero
    exact ⟨if_pos hzero, (hz hzero).2⟩

theorem acceptPush_fifoInv (hi : RingInv s) (hf : s.fullP = false) (hq : s.FifoInv) (b : Byte) :
    (acceptPush b s).FifoInv := by
  have hroom := hi.countP_room hf
  have hcountP := hi.countP_eq
  obtain ⟨hh, ht, -⟩ := hi
  rw [State.FifoInv, acceptPush_content b ht hh (by omega), acceptPush_history]
  simp [hq]

theorem popSome_ringInv (hi : RingInv s) (hne : s.rb.headC ≠ s.rb.tail) (hb : s.rb.mem.read s.rb.tail = some b) :
    RingInv (popSome b s) := by
  have hseen := hi.visible_pos hne
  have hcount := hi.count_eq
  obtain ⟨hh, ht, hc, hp, hsum, hw, hz⟩ := hi
  have hlt : ringSucc s.cfg.rbN s.rb.tail < s.cfg.rbN := ringSucc_lt (rbN_pos _)
  refine ⟨hh, hlt, hc, ?_, ?_, ?_, ?_⟩
  · rw [popSome_tailP]; split <;> assumption
  · simp only [popSome_cfg, popSome_head, popSome_tail, popSome_headC, popSome_tailP]
    have hd : ringDist s.cfg.rbN (ringSucc s.cfg.rbN s.rb.tail) s.rb.headC =
        ringDist s.cfg.rbN s.rb.tail s.rb.headC - 1 := ringDist_advance ht hc hseen
    split
    · rw [hd, ringDist_rbN_self]
      omega
    · have hd' : ringDist s.cfg.rbN s.rb.tailP (ringSucc s.cfg.rbN s.rb.tail) =
          ringDist s.cfg.rbN s.rb.tailP s.rb.tail + 1 := ringDist_add_right hp ht (by omega)
      rw [hd, hd']
      omega
  · rw [written_iff_content] at hw ⊢
    rw [content_eq_cons_popSome ht hh (by omega) hb] at hw
    exact fun o ho => hw o (List.mem_cons_of_mem _ ho)
  · intro hzero
    exact ⟨(hz hzero).1, if_pos hzero⟩

theorem popSome_fifoInv (hi : RingInv s) (hne : s.rb.headC ≠ s.rb.tail) (hb : s.rb.mem.read s.rb.tail = some b)
    (hq : s.FifoInv) : (popSome b s).FifoInv := by
  have hseen := hi.visible_pos hne
  have hcount := hi.count_eq
  obtain ⟨hh, ht, -⟩ := hi
  rw [State.FifoInv, content_eq_cons_popSome ht hh (by omega) hb] at hq
  rw [State.FifoInv, popSome_history]
  simp [hq]

/-- An advanced `head_c` stays between `tail` and `head`. -/
theorem advanceHeadC_ringInv (hi : RingInv s) (he : syncHEnabled k s = true) :
    RingInv { s with rb := { s.rb with headC := (s.rb.headC + k) % s.cfg.rbN } } := by
  obtain ⟨hfree, -, hk⟩ := syncHEnabled_iff.1 he
  obtain ⟨hh, ht, hc, hp, hsum, hw, -⟩ := hi
  refine ⟨hh, ht, Nat.mod_lt _ (rbN_pos _), hp, ?_, hw, fun hzero => by simp [hfree] at hzero⟩
  have hn := rbN_pos s.cfg
  simp only [ringDist_advance hc hh hk, ringDist_add_right ht hc (k := k) (by omega)]
  omega

/-- An advanced `tail_p` does not pass `tail`. -/
theorem advanceTailP_ringInv (hi : RingInv s) (he : syncTEnabled k s = true) :
    RingInv { s with rb := { s.rb with tailP := (s.rb.tailP + k) % s.cfg.rbN } } := by
  obtain ⟨hfree, -, hk⟩ := syncTEnabled_iff.1 he
  obtain ⟨hh, ht, hc, hp, hsum, hw, -⟩ := hi
  refine ⟨hh, ht, hc, Nat.mod_lt _ (rbN_pos _), ?_, hw, fun hzero => by simp [hfree] at hzero⟩
  simp only [ringDist_advance hp ht hk]
  omega

theorem resetBlock_count (s : State) : s.resetBlock.count = 0 := ringDist_rbN_self s.cfg 0

theorem resetBlock_ringInv (s : State) : RingInv s.resetBlock := by
  have hn := rbN_pos s.cfg
  refine ⟨hn, hn, hn, hn, ?_, ?_, fun _ => ⟨rfl, rfl⟩⟩
  · simp [State.reset]
  · simp [resetBlock_count]

theorem resetBlock_fifoInv (s : State) : s.resetBlock.FifoInv := by
  rw [State.FifoInv, State.content, resetBlock_count]
  rfl

/-! ### The invariants over every move -/

theorem QueueMove.ringInv (m : QueueMove s t) (hi : RingInv s) : RingInv t := by
  cases m with
  | kept h => exact h.ringInv hi
  | push b hf h => exact h ▸ acceptPush_ringInv hi hf b
  | pop b hne hb h => exact h.ringInv (popSome_ringInv hi hne hb)
  | syncH k he h => exact h ▸ advanceHeadC_ringInv hi he
  | syncT k he h => exact h ▸ advanceTailP_ringInv hi he
  | reset h => exact h ▸ resetBlock_ringInv s

theorem QueueMove.fifoInv (m : QueueMove s t) (hi : RingInv s) (hq : s.FifoInv) : t.FifoInv := by
  cases m with
  | kept h => exact h.fifoInv hq
  | push b hf h => exact h ▸ acceptPush_fifoInv hi hf hq b
  | pop b hne hb h => exact h.fifoInv (popSome_fifoInv hi hne hb hq)
  | syncH k _ h | syncT k _ h => subst h; exact hq
  | reset h => exact h ▸ resetBlock_fifoInv s

theorem step_keeps_ringInv (hi : RingInv s) (h : step s = .next t) : RingInv t := by
  obtain ⟨e, m⟩ := step_move h
  exact m.queueMove.ringInv hi

theorem step_keeps_fifoInv (hi : RingInv s) (hq : s.FifoInv) (h : step s = .next t) : t.FifoInv := by
  obtain ⟨e, m⟩ := step_move h
  exact m.queueMove.fifoInv hi hq

/-- Settles O48: the ring order and the written slots, with the FIFO property, are kept by each effect of a move on the
queue; (a) to (c) follow from the ring order. -/
theorem stepKeepsRingInvariant : Obligations.StepKeepsRingInvariant := by
  unfold Obligations.StepKeepsRingInvariant
  intro good
  have good_of_inv {t : State} (hi : RingInv t) (hq : t.FifoInv) : good t := by
    have hcount := hi.count_eq
    have hcountP := hi.countP_eq
    obtain ⟨hh, ht, -, -, hsum, -⟩ := hi
    exact ⟨by omega, (content_eq_nil_iff ht hh).symm, hsum, by omega, hq⟩
  refine ⟨good_of_inv (resetBlock_ringInv .reset) (resetBlock_fifoInv .reset), ?_⟩
  rintro s t ⟨-, hi, -⟩ hq h
  have hi' := step_keeps_ringInv hi h
  exact ⟨hi', good_of_inv hi' (step_keeps_fifoInv hi hq h)⟩

end Sys2Proof.Machine
end

/-! ## The line framer's invariant (10_state.md R33)

A move leaves LF alone, is one FEED (as a request or inside DRAIN), or is reset. -/

section
namespace Sys2Proof.Machine

variable {s t : State} {b : Byte}

theorem popOnce_keeps_lf (h : popOnce s = .next t) : t.lf = s.lf := by
  rcases popOnce_next h with ⟨_, rfl⟩ | ⟨_, b, _, rfl⟩
  · exact popNone_lf s
  · exact popSome_lf b s

theorem nandTurn_keeps_lf {op : NandOp} {a : NandAt} (h : nandTurn op a s = .next t) : t.lf = s.lf := by
  rcases nandTurn_next h with ⟨_, _, _, rfl⟩ | ⟨_, _, rfl⟩ | ⟨_, tx, o, _, _, rfl⟩ | ⟨o, _, rfl⟩ | ⟨e, k, _, rfl⟩ |
    ⟨rx, _, rfl⟩ | ⟨_, _, rfl⟩ | ⟨_, _, m, d, _, _, rfl⟩ | ⟨_, l, d, _, _, rfl⟩ | ⟨_, _, rfl⟩ | ⟨_, _, rfl⟩ <;> simp

theorem drainTurn_lf {a : DrainAt} (h : drainTurn a s = .next t) :
    t.lf = s.lf ∨ ∃ b u, feedOnce b s = .next u ∧ t.lf = u.lf := by
  rcases drainTurn_next h with ⟨_, u, hu, rfl⟩ | ⟨b, _, rfl⟩ | ⟨_, rfl⟩ | ⟨b, _, u, hu, rfl⟩ | ⟨_, rfl⟩
  · exact .inl ((goto_lf _ u).trans (popOnce_keeps_lf hu))
  · exact .inl (goto_lf _ s)
  · exact .inl (finish_lf s)
  · exact .inr ⟨b, u, hu, goto_lf _ u⟩
  · exact .inl (goto_lf _ s)

/-- What a move does to the line framer. -/
theorem Move.lf_cases (m : Move s t) :
    t.lf = s.lf ∨ (∃ b u, feedOnce b s = .next u ∧ t.lf = u.lf) ∨ t.lf = State.reset.lf := by
  cases m with
  | still h => exact .inl (by rw [h])
  | push b h => exact .inl (by rw [h]; split <;> simp)
  | pop _ h => exact .inl (popOnce_keeps_lf h)
  | feed b _ h => exact .inr (.inl ⟨b, t, h, rfl⟩)
  | beginDrain _ h => exact .inl (by rw [h, begin_lf])
  | beginReset _ h | beginReadId _ h | beginReadPage _ _ _ _ h => exact .inl (by rw [h, startNand_lf])
  | drain a _ _ _ h => exact (drainTurn_lf h).imp_right .inl
  | nand op a _ _ _ h => exact .inl (nandTurn_keeps_lf h)
  | syncH k _ h | syncT k _ h => exact .inl (by rw [h])
  | fatal h => exact .inl (by rw [h, fatal_lf])
  | reset h => exact .inr (.inr (by rw [h, resetBlock_lf]))

theorem LineInv.congr (hl : LineInv s) (hc : t.cfg = s.cfg) (hf : t.lf = s.lf) : LineInv t := by
  rw [LineInv, hc, hf]; exact hl

/-- A cursor at 0 claims nothing of the line. -/
theorem lineInv_of_idx_zero (hcap : 0 < s.cfg.lineCap) (h0 : s.lf.idx = 0) : LineInv s := by
  rw [LineInv, h0]
  exact ⟨hcap, fun i hi => absurd hi i.not_lt_zero⟩

theorem storeLine_lineInv (hl : LineInv s) (hd : b ≠ s.cfg.delim) (hcap : s.lf.idx + 1 ≠ s.cfg.lineCap) :
    LineInv (storeLine b s) := by
  obtain ⟨hidx, hline⟩ := hl
  refine ⟨?_, fun i hi => ?_⟩
  · simp only [storeLine_idx, storeLine_cfg]; omega
  · simp only [storeLine_line, storeLine_cfg, storeLine_idx, read_write] at hi ⊢
    split
    · simpa using hd
    · exact hline i (by omega)

theorem feedOnce_lineInv (hl : LineInv s) (h : feedOnce b s = .next t) : LineInv t := by
  have hcap : 0 < s.cfg.lineCap := Nat.zero_lt_of_lt hl.1
  rcases feedOnce_next h with ⟨_, x, _, rfl⟩ | ⟨hd, hne, rfl⟩ | ⟨_, _, x, _, rfl⟩
  · exact lineInv_of_idx_zero hcap rfl
  · exact storeLine_lineInv hl hd hne
  · exact lineInv_of_idx_zero hcap rfl

theorem Move.lineInv (m : Move s t) (hl : LineInv s) : LineInv t := by
  have hcfg := m.keeps_cfg
  rcases m.lf_cases with hf | ⟨b, u, hu, hf⟩ | hf
  · exact hl.congr hcfg hf
  · exact (feedOnce_lineInv hl hu).congr (hcfg.trans (feedOnce_keeps_cfg hu).symm) hf
  · exact lineInv_of_idx_zero (hcfg ▸ Nat.zero_lt_of_lt hl.1) (by rw [hf]; rfl)

theorem step_keeps_lineInv (hl : LineInv s) (h : step s = .next t) : LineInv t := by
  obtain ⟨e, m⟩ := step_move h
  exact m.lineInv hl

/-- Settles O49: `LineInv` is kept by every move, and says of each byte below `idx` what R33 does. -/
theorem stepKeepsLineInvariant : Obligations.StepKeepsLineInvariant := by
  rintro s t ⟨-, -, hl, -⟩ h
  obtain ⟨hidx, hline⟩ := step_keeps_lineInv hl h
  refine ⟨Nat.zero_le _, Nat.le_sub_one_of_lt hidx, fun i hi => ?_⟩
  obtain ⟨hsome, hdelim⟩ := hline i hi
  obtain ⟨b, hb⟩ := Option.isSome_iff_exists.1 hsome
  exact ⟨b, hb, fun e => hdelim (by rw [hb, e])⟩

end Sys2Proof.Machine
end

/-! ## The NAND sequencer's invariants (10_state.md R48)

Kept as one invariant with the consumer's place, which fixes `ns_state` and so says when a NAND operation ends. -/

section
namespace Sys2Proof.Machine

variable {s t : State}

/-- The clauses of `NandInv` that speak of chip-select, the settle count, `ns_state` and `c_busy`: they need nothing of the
exchange buffer, the identifiers or the ring. -/
structure PlaceInv (s : State) : Prop where
  cs     : s.ns.csN = false ↔ s.ns.nsState = .transacting
  settle : 0 < s.ns.settleCnt → s.ns.nsState = .settling
  place  : s.ns.nsState = s.cons.seq.nsState
  busy   : s.cons.cBusy = true ↔ s.cons.seq ≠ .idle

theorem NandInv.placeInv (h : NandInv s) : PlaceInv s := by
  obtain ⟨hcs, hsettle, hplace, -, -, -, hbusy, -⟩ := h
  exact ⟨hcs, hsettle, hplace, hbusy⟩

/-- NS at rest: chip-select is high and nothing is left to count down. -/
structure NsResting (s : State) : Prop where
  state  : s.ns.nsState = .idle
  csN    : s.ns.csN = true
  settle : s.ns.settleCnt = 0

/-- At a place whose `ns_state` is idle NS is at rest. -/
theorem PlaceInv.resting (h : PlaceInv s) (hq : s.cons.seq.nsState = .idle) : NsResting s := by
  obtain ⟨hcs, hsettle, hplace, -⟩ := h
  have hstate : s.ns.nsState = .idle := hplace.trans hq
  refine ⟨hstate, ?_, ?_⟩
  · simpa [hstate] using hcs
  · simpa [hstate] using hsettle

/-- A ready consumer is at no place of an operation. -/
theorem PlaceInv.seq_of_ready (h : PlaceInv s) (hr : s.ready) : s.cons.seq = .idle := by
  by_contra hne
  exact absurd (h.busy.2 hne) (by simp [hr.1])

/-- With NS left at rest the invariant is kept wherever C goes, as long as that place's `ns_state` is idle. -/
theorem NsResting.placeInv (hr : NsResting s) (hns : t.ns.nsState = s.ns.nsState) (hcs : t.ns.csN = s.ns.csN)
    (hset : t.ns.settleCnt = s.ns.settleCnt) (hq : t.cons.seq.nsState = .idle)
    (hb : t.cons.cBusy = true ↔ t.cons.seq ≠ .idle) : PlaceInv t := by
  obtain ⟨hstate, hcsN, hsettle⟩ := hr
  exact ⟨by simp [hcs, hns, hcsN, hstate], by simp [hset, hsettle], by rw [hns, hstate, hq], hb⟩

theorem PlaceInv.congr (h : PlaceInv s) (hns : t.ns = s.ns) (hb : t.cons.cBusy = s.cons.cBusy)
    (hq : t.cons.seq = s.cons.seq) : PlaceInv t := by
  obtain ⟨hcs, hsettle, hplace, hbusy⟩ := h
  constructor <;> simp only [hns, hb, hq] <;> assumption

/-! ### The operations of the pipeline leave NS and the consumer's place alone -/

theorem popOnce_keeps_ns_cons (h : popOnce s = .next t) : t.ns = s.ns ∧ t.cons = s.cons := by
  rcases popOnce_next h with ⟨_, rfl⟩ | ⟨_, b, _, rfl⟩ <;> exact ⟨rfl, rfl⟩

theorem feedOnce_keeps_ns_cons {b : Byte} (h : feedOnce b s = .next t) : t.ns = s.ns ∧ t.cons = s.cons := by
  rcases feedOnce_next h with ⟨_, x, _, rfl⟩ | ⟨_, _, rfl⟩ | ⟨_, _, x, _, rfl⟩ <;> exact ⟨rfl, rfl⟩

theorem drainTurn_keeps_ns {a : DrainAt} (h : drainTurn a s = .next t) : t.ns = s.ns := by
  rcases drainTurn_next h with ⟨_, u, hu, rfl⟩ | ⟨b, _, rfl⟩ | ⟨_, rfl⟩ | ⟨b, _, u, hu, rfl⟩ | ⟨_, rfl⟩
  · exact (goto_ns _ u).trans (popOnce_keeps_ns_cons hu).1
  · exact goto_ns _ s
  · exact finish_ns s
  · exact (goto_ns _ u).trans (feedOnce_keeps_ns_cons hu).1
  · exact goto_ns _ s

/-- A step of DRAIN stays in DRAIN and busy, or ends it. -/
theorem drainTurn_cons {a : DrainAt} (h : drainTurn a s = .next t) :
    (∃ a', t.cons.seq = .drain a' ∧ t.cons.cBusy = s.cons.cBusy) ∨ (t.cons.seq = .idle ∧ t.cons.cBusy = false) := by
  rcases drainTurn_next h with ⟨_, u, hu, rfl⟩ | ⟨b, _, rfl⟩ | ⟨_, rfl⟩ | ⟨b, _, u, hu, rfl⟩ | ⟨_, rfl⟩
  · exact .inl ⟨_, rfl, by rw [goto_cBusy, (popOnce_keeps_ns_cons hu).2]⟩
  · exact .inl ⟨_, rfl, rfl⟩
  · exact .inr ⟨rfl, rfl⟩
  · exact .inl ⟨_, rfl, by rw [goto_cBusy, (feedOnce_keeps_ns_cons hu).2]⟩
  · exact .inl ⟨_, rfl, rfl⟩

/-! ### The invariant over every move -/

theorem startNand_placeInv (hp : PlaceInv s) (hr : s.ready) (op : NandOp) (image : List Byte) :
    PlaceInv (startNand op image s) :=
  (hp.resting (by rw [hp.seq_of_ready hr]; rfl)).placeInv rfl rfl rfl rfl (by simp)

theorem drainTurn_placeInv {a : DrainAt} (hp : PlaceInv s) (hb : s.cons.cBusy = true) (hs : s.cons.seq = .drain a)
    (h : drainTurn a s = .next t) : PlaceInv t := by
  have hrest := hp.resting (by rw [hs]; rfl)
  have hns := drainTurn_keeps_ns h
  rcases drainTurn_cons h with ⟨a', hq, hb'⟩ | ⟨hq, hb'⟩
  · exact hrest.placeInv (by rw [hns]) (by rw [hns]) (by rw [hns]) (by rw [hq]; rfl) (by simp [hq, hb', hb])
  · exact hrest.placeInv (by rw [hns]) (by rw [hns]) (by rw [hns]) (by rw [hq]; rfl) (by simp [hq, hb'])

/-- T2 changes `xbuf` alone in NS. -/
theorem exchanged_placeInv {op : NandOp} (hp : PlaceInv s) (hb : s.cons.cBusy = true) (hs : s.cons.seq = .nand op .t2)
    (tx : List Byte) (o : BusOutcome) : PlaceInv ((exchanged op tx o s.answered).goto (.nand op (.t3 o))) := by
  obtain ⟨hcs, hsettle, hplace, -⟩ := hp
  have htrans : s.ns.nsState = .transacting := by rw [hplace, hs]; rfl
  cases o <;> exact ⟨by simpa using hcs, by simpa using hsettle, by simpa [Seq.nsState] using htrans, by simpa using hb⟩

/-- T3 raises chip-select; while transacting nothing was left to count down. -/
theorem deassertCs_placeInv {op : NandOp} {o : BusOutcome} (hp : PlaceInv s) (hb : s.cons.cBusy = true)
    (hs : s.cons.seq = .nand op (.t3 o)) : PlaceInv (deassertCs op o s) := by
  obtain ⟨-, hsettle, hplace, -⟩ := hp
  have htrans : s.ns.nsState = .transacting := by rw [hplace, hs]; rfl
  exact ⟨by simp, by simpa [htrans] using hsettle, rfl, by simpa using hb⟩

/-- While settling chip-select is high. -/
theorem PlaceInv.csN_of_settling (hp : PlaceInv s) (h : s.ns.nsState = .settling) : s.ns.csN = true := by
  simpa [h] using hp.cs

theorem nandTurn_placeInv {op : NandOp} {a : NandAt} (hp : PlaceInv s) (hb : s.cons.cBusy = true)
    (hs : s.cons.seq = .nand op a) (h : nandTurn op a s = .next t) : PlaceInv t := by
  rcases nandTurn_next h with ⟨rfl, _, _, rfl⟩ | ⟨_, _, rfl⟩ | ⟨rfl, tx, o, _, _, rfl⟩ | ⟨o, rfl, rfl⟩ | ⟨e, k, rfl, rfl⟩ |
    ⟨rx, rfl, rfl⟩ | ⟨rfl, rfl, rfl⟩ | ⟨rfl, _, m, d, _, _, rfl⟩ | ⟨rfl, l, d, _, _, rfl⟩ | ⟨rfl, _, rfl⟩ | ⟨rfl, h0, rfl⟩
  · obtain ⟨-, -, hzero⟩ := hp.resting (by rw [hs]; rfl)
    exact ⟨by simp, by simp [hzero], rfl, by simpa using hb⟩
  · exact hp
  · exact exchanged_placeInv hp hb hs tx o
  · exact deassertCs_placeInv hp hb hs
  · exact (hp.resting (by rw [hs]; rfl)).placeInv rfl rfl rfl rfl (by simp)
  · exact (hp.resting (by rw [hs]; rfl)).placeInv rfl rfl rfl rfl (by simpa using hb)
  · obtain ⟨-, hhigh, -⟩ := hp.resting (by rw [hs]; rfl)
    exact ⟨by simp [hhigh], fun _ => rfl, rfl, by simpa using hb⟩
  · exact (hp.resting (by rw [hs]; rfl)).placeInv rfl rfl rfl rfl (by simp)
  · exact (hp.resting (by rw [hs]; rfl)).placeInv rfl rfl rfl rfl (by simp)
  · obtain ⟨hcs, -, hplace, hbusy⟩ := hp
    exact ⟨hcs, fun _ => by rw [hplace, hs]; rfl, hplace, hbusy⟩
  · have hhigh := hp.csN_of_settling (by rw [hp.place, hs]; rfl)
    exact ⟨by simp [hhigh], by simp [h0], rfl, by simp⟩

theorem resetBlock_placeInv (s : State) : PlaceInv s.resetBlock := by
  constructor <;> simp [State.reset, Seq.nsState]

theorem Move.placeInv (m : Move s t) (hp : PlaceInv s) : PlaceInv t := by
  cases m with
  | still h => exact h ▸ hp
  | push b h => subst h; split <;> exact hp.congr rfl rfl rfl
  | pop _ h =>
    obtain ⟨hns, hcons⟩ := popOnce_keeps_ns_cons h
    exact hp.congr hns (by rw [hcons]) (by rw [hcons])
  | feed b _ h =>
    obtain ⟨hns, hcons⟩ := feedOnce_keeps_ns_cons h
    exact hp.congr hns (by rw [hcons]) (by rw [hcons])
  | beginDrain hr h =>
    subst h
    exact (hp.resting (by rw [hp.seq_of_ready hr]; rfl)).placeInv rfl rfl rfl rfl (by simp)
  | beginReset hr h | beginReadId hr h | beginReadPage _ _ hr _ h => exact h ▸ startNand_placeInv hp hr _ _
  | drain a _ hb hs h => exact drainTurn_placeInv hp hb hs h
  | nand op a _ hb hs h => exact nandTurn_placeInv hp hb hs h
  | syncH k _ h | syncT k _ h => exact h ▸ hp.congr rfl rfl rfl
  | fatal h => exact h ▸ hp.congr (fatal_ns s) (fatal_cBusy s) (fatal_seq s)
  | reset h => exact h ▸ resetBlock_placeInv s

theorem step_keeps_placeInv (hp : PlaceInv s) (h : step s = .next t) : PlaceInv t := by
  obtain ⟨e, m⟩ := step_move h
  exact m.placeInv (hp.congr rfl rfl rfl)

/-- Outside a NAND operation a place's `ns_state` is idle. -/
theorem Seq.nsState_of_not_inNand {q : Seq} (h : q.inNand = false) : q.nsState = .idle := by
  cases q with
  | idle | drain _ => rfl
  | nand _ _ => cases h

/-- Settles O50: (a) and (c) are clauses of the invariant, and (b) is its place clause outside a NAND operation. -/
theorem stepKeepsNandInvariant : Obligations.StepKeepsNandInvariant := by
  unfold Obligations.StepKeepsNandInvariant
  intro good
  have good_of_inv {t : State} (hp : PlaceInv t) : good t := by
    refine ⟨hp.cs, fun hout => ?_, hp.settle⟩
    obtain ⟨hstate, hhigh, -⟩ := hp.resting (Seq.nsState_of_not_inNand hout)
    exact ⟨hstate, hhigh⟩
  refine ⟨good_of_inv (resetBlock_placeInv .reset), ?_⟩
  rintro s t ⟨-, -, -, hn, -⟩ h
  exact good_of_inv (step_keeps_placeInv hn.placeInv h)

end Sys2Proof.Machine
end

/-! ## The reset values (10_state.md R55) -/

section
namespace Sys2Proof.Machine

/-- After reset no memory holds a byte (R56; log 3). -/
theorem memRead_reset (sp : Space) (a : Nat) : memRead sp a State.reset = none := by
  cases sp <;> exact read_nil a

/-- Settles O1: the registers by evaluation, the three memories for every address. -/
theorem resetValuesAsTabled : Obligations.ResetValuesAsTabled :=
  ⟨rfl, rfl, rfl, rfl, rfl, rfl, rfl, rfl, rfl, rfl, rfl, rfl, rfl, rfl, rfl, rfl, rfl, rfl, rfl,
    memRead_reset, rfl, rfl, rfl⟩

end Sys2Proof.Machine
end

/-! ## The gray code (30_encoding.md R104 to R106)

`gray` is linear over the exclusive or, and `gray` of the exclusive or of the first n shifts of g telescopes to
`g ^ (g >> n)`, in which the second term is 0 for an n-bit g. So the inverses need no reasoning about single bits; the bits
of `ungray` follow from those of `gray`, and the neighbours from the exclusive or of i and i + 1, a run of ones. -/

section
namespace Sys2Proof.Machine

variable {w i g : Nat}

@[simp] theorem gray_zero : gray 0 = 0 := rfl

@[simp] theorem gray_testBit (i b : Nat) : (gray i).testBit b = (i.testBit (b + 1) ^^ i.testBit b) := by
  rw [gray, Nat.testBit_xor, Nat.testBit_shiftRight, Nat.add_comm 1 b, Bool.xor_comm]

theorem shiftRight_lt_two_pow (h : g < 2 ^ w) (n : Nat) : g >>> n < 2 ^ w := (Nat.shiftRight_le g n).trans_lt h

theorem gray_lt (h : i < 2 ^ w) : gray i < 2 ^ w := Nat.xor_lt_two_pow h (shiftRight_lt_two_pow h 1)

/-- R104's top bit: nothing is shifted into it. -/
theorem gray_testBit_top (h : i < 2 ^ (w + 1)) : (gray i).testBit w = i.testBit w := by
  simp [Nat.testBit_lt_two_pow h]

theorem gray_xor (a b : Nat) : gray (a ^^^ b) = gray a ^^^ gray b := by
  simp only [gray, Nat.shiftRight_xor_distrib]
  ac_rfl

theorem gray_shiftRight (g n : Nat) : gray (g >>> n) = g >>> n ^^^ g >>> (n + 1) := by
  rw [gray, Nat.shiftRight_add]

/-- Settles O26: R104 bit by bit, from the bits of a shift and of an exclusive or. -/
theorem grayCodeBitByBit : Obligations.GrayCodeBitByBit :=
  ⟨fun _ => rfl, fun _ _ h => ⟨gray_testBit_top h, gray_lt h⟩, gray_testBit, by decide⟩

theorem xorShifts_lt (h : g < 2 ^ w) (n : Nat) : xorShifts g n < 2 ^ w := by
  induction n with
  | zero => exact Nat.two_pow_pos w
  | succ n ih => exact Nat.xor_lt_two_pow ih (shiftRight_lt_two_pow h n)

theorem xorShifts_eq_foldl (g n : Nat) : xorShifts g n = ((List.range n).map fun j => g >>> j).foldl (· ^^^ ·) 0 := by
  induction n with
  | zero => rfl
  | succ n ih => simp [xorShifts, ih, List.range_succ]

/-- The neighbouring shifts cancel, so only the first and the one after the last remain. -/
theorem gray_xorShifts (g n : Nat) : gray (xorShifts g n) = g ^^^ g >>> n := by
  induction n with
  | zero => simp [xorShifts]
  | succ n ih => rw [xorShifts, gray_xor, ih, gray_shiftRight, Nat.xor_assoc, Nat.xor_xor_cancel_left]

theorem xorShifts_gray (i n : Nat) : xorShifts (gray i) n = i ^^^ i >>> n := by
  induction n with
  | zero => simp [xorShifts]
  | succ n ih =>
    have shifted : gray i >>> n = gray (i >>> n) := by
      simp only [gray, Nat.shiftRight_xor_distrib, ← Nat.shiftRight_add, Nat.add_comm]
    rw [xorShifts, ih, shifted, gray_shiftRight, Nat.xor_assoc, Nat.xor_xor_cancel_left]

theorem ungray_lt (h : g < 2 ^ w) : ungray w g < 2 ^ w := xorShifts_lt h w

theorem gray_ungray (h : g < 2 ^ w) : gray (ungray w g) = g := by
  rw [ungray, gray_xorShifts, Nat.shiftRight_eq_zero g w h, Nat.xor_zero]

theorem ungray_gray (h : i < 2 ^ w) : ungray w (gray i) = i := by
  rw [ungray, xorShifts_gray, Nat.shiftRight_eq_zero i w h, Nat.xor_zero]

/-- R105's top bit: g is the gray code of a value of the same width. -/
theorem ungray_testBit_top (h : g < 2 ^ (w + 1)) : (ungray (w + 1) g).testBit w = g.testBit w := by
  rw [← gray_testBit_top (ungray_lt h), gray_ungray h]

theorem ungray_testBit (h : g < 2 ^ w) (b : Nat) :
    (ungray w g).testBit b = ((ungray w g).testBit (b + 1) ^^ g.testBit b) := by
  have hbit := gray_testBit (ungray w g) b
  rw [gray_ungray h] at hbit
  rw [hbit, ← Bool.xor_assoc, Bool.xor_self, Bool.false_xor]

/-- Settles O27: the inverses by the telescoping sums, and the bits of `ungray` from those of `gray`. -/
theorem ungrayInvertsGray : Obligations.UngrayInvertsGray := fun w =>
  ⟨fun _ h => ungray_testBit_top h, fun _ b _ h => ungray_testBit h b, fun g _ => xorShifts_eq_foldl g w,
    fun _ h => ungray_gray h, fun _ h => gray_ungray h⟩

/-- The carry of i + 1 runs through the low ones of i and stops at its lowest zero. -/
theorem exists_xor_succ (i : Nat) : ∃ b, i ^^^ (i + 1) = 2 ^ (b + 1) - 1 := by
  induction i using Nat.binaryRec with
  | zero => exact ⟨0, rfl⟩
  | bit low n ih =>
    cases low with
    | false => exact ⟨0, by rw [show Nat.bit false n + 1 = Nat.bit true n from rfl, Nat.xor_bit, Nat.xor_self]; rfl⟩
    | true =>
      obtain ⟨b, hb⟩ := ih
      have hpos := Nat.two_pow_pos (b + 1)
      refine ⟨b + 1, ?_⟩
      calc Nat.bit true n ^^^ (Nat.bit true n + 1)
          _ = Nat.bit true n ^^^ Nat.bit false (n + 1) := rfl
          _ = Nat.bit true (n ^^^ (n + 1)) := Nat.xor_bit ..
          _ = 2 * (2 ^ (b + 1) - 1) + 1 := by rw [hb]; rfl
          _ = 2 ^ (b + 1 + 1) - 1 := by omega

/-- The gray code of a run of ones is its top bit. -/
theorem gray_two_pow_sub_one (b : Nat) : gray (2 ^ (b + 1) - 1) = 2 ^ b := by
  refine Nat.eq_of_testBit_eq fun j => ?_
  rw [gray_testBit, Nat.testBit_two_pow_sub_one, Nat.testBit_two_pow]
  rcases Nat.lt_trichotomy j b with h | h | h
  · simp [h, h.ne', Nat.lt_succ_of_lt h]
  · simp [h]
  · simp [h.ne, show ¬ j < b by omega, show ¬ j < b + 1 by omega]

/-- R106, the wrap included. -/
theorem gray_xor_gray_ringSucc (hw : 1 ≤ w) (hi : i < 2 ^ w) : ∃ b, gray i ^^^ gray (ringSucc (2 ^ w) i) = 2 ^ b := by
  rw [ringSucc_eq hi]
  split
  · next hwrap =>
    obtain ⟨v, rfl⟩ := Nat.exists_eq_add_of_le' hw
    exact ⟨v, by rw [gray_zero, Nat.xor_zero, ← gray_two_pow_sub_one v, ← hwrap, Nat.add_sub_cancel]⟩
  · obtain ⟨b, hb⟩ := exists_xor_succ i
    exact ⟨b, by rw [← gray_xor, hb, gray_two_pow_sub_one]⟩

theorem one_le_idxW (c : Config) (h : c.wf = true) : 1 ≤ c.idxW :=
  (Nat.pow_le_pow_iff_right Nat.one_lt_two).mp (two_le_rbN c h)

/-- Settles O28: the one bit lies below `IDX_W` since both gray codes have `IDX_W` bits. -/
theorem grayNeighboursDifferInOneBit : Obligations.GrayNeighboursDifferInOneBit := by
  refine ⟨fun c i hc hi => ?_, by decide, rfl, by decide⟩
  obtain ⟨b, hb⟩ := gray_xor_gray_ringSucc (one_le_idxW c hc) hi
  have hlt : 2 ^ b < 2 ^ c.idxW :=
    hb ▸ Nat.xor_lt_two_pow (gray_lt hi) (gray_lt (ringSucc_lt (rbN_pos c)))
  exact ⟨b, (Nat.pow_lt_pow_iff_right Nat.one_lt_two).mp hlt, hb⟩

end Sys2Proof.Machine
end

/-! ## Valid text and trimming (30_encoding.md R108, R109)

The scanner `textValidFrom` owes the rest of a pattern: it accepts what completes the pattern and goes on as valid text.
The ranges of the first bytes do not overlap, so the row a first byte selects is the only one that has it. -/

section
namespace Sys2Proof.Machine

variable {owed : List ByteRange} {row : ByteRange × List ByteRange} {b : Byte} {p s t : List Byte}

/-- A byte sequence that matches one row of the table of R108. -/
def IsPattern (p : List Byte) : Prop :=
  ∃ row ∈ utf8Rows, ∃ b rest, p = b :: rest ∧ row.1.has b = true ∧
    List.Forall₂ (fun r x => ByteRange.has r x = true) row.2 rest

theorem ByteRange.has_iff (r : ByteRange) (b : Byte) : r.has b = true ↔ r.lo ≤ b ∧ b ≤ r.hi := by
  simp [ByteRange.has]

theorem utf8Rows_ascending : utf8Rows.Pairwise fun q r => q.1.hi < r.1.lo := by decide

/-- The row that has a byte as first byte is the one the scanner selects. -/
theorem find_utf8Rows (hrow : row ∈ utf8Rows) (hb : row.1.has b = true) :
    (utf8Rows.find? fun r => r.1.has b) = some row := by
  obtain ⟨before, after, hsplit⟩ := List.append_of_mem hrow
  refine List.find?_eq_some_iff_append.mpr ⟨hb, before, after, hsplit, fun q hq => ?_⟩
  have hascending := utf8Rows_ascending
  rw [hsplit, List.pairwise_append] at hascending
  obtain ⟨-, -, hcross⟩ := hascending
  have hlt : q.1.hi < row.1.lo := hcross q hq row List.mem_cons_self
  obtain ⟨hle, -⟩ := (row.1.has_iff b).mp hb
  simp only [ByteRange.has, Bool.not_eq_true', Bool.and_eq_false_iff, decide_eq_false_iff_not]
  exact .inr (by bv_omega)

theorem utf8Follow_eq_some_iff :
    utf8Follow b = some owed ↔ ∃ row ∈ utf8Rows, row.1.has b = true ∧ row.2 = owed := by
  rw [utf8Follow, Option.map_eq_some_iff]
  constructor
  · rintro ⟨row, hfind, rfl⟩
    obtain ⟨hb, -⟩ := List.find?_eq_some_iff_append.mp hfind
    exact ⟨row, List.mem_of_find?_eq_some hfind, hb, rfl⟩
  · rintro ⟨row, hrow, hb, rfl⟩
    exact ⟨row, find_utf8Rows hrow hb, rfl⟩

@[simp] theorem textValidFrom_nil (s : List Byte) : textValidFrom [] s = textValid s := rfl

theorem textValid_cons_of_follow (h : utf8Follow b = some owed) : textValid (b :: s) = textValidFrom owed s := by
  rw [textValid, textValidFrom, h]

theorem textValid_cons_of_no_follow (h : utf8Follow b = none) : textValid (b :: s) = false := by
  rw [textValid, textValidFrom, h]

/-- The scanner after a first byte: a row has it, and what that row owes is accepted. -/
theorem textValid_cons_iff (b : Byte) (s : List Byte) :
    textValid (b :: s) = true ↔ ∃ row ∈ utf8Rows, row.1.has b = true ∧ textValidFrom row.2 s = true := by
  cases hfollow : utf8Follow b with
  | none =>
    rw [textValid_cons_of_no_follow hfollow]
    refine iff_of_false Bool.false_ne_true ?_
    rintro ⟨row, hrow, hb, -⟩
    exact absurd (utf8Follow_eq_some_iff.mpr ⟨row, hrow, hb, rfl⟩) (by simp [hfollow])
  | some owed =>
    rw [textValid_cons_of_follow hfollow]
    constructor
    · intro hs
      obtain ⟨row, hrow, hb, rfl⟩ := utf8Follow_eq_some_iff.mp hfollow
      exact ⟨row, hrow, hb, hs⟩
    · rintro ⟨row, hrow, hb, hs⟩
      have hsame := utf8Follow_eq_some_iff.mpr ⟨row, hrow, hb, rfl⟩
      rwa [Option.some.inj (hfollow.symm.trans hsame)]

/-- What the scanner owes is a sequence of bytes in the owed ranges, and then valid text. -/
theorem textValidFrom_iff : textValidFrom owed s = true ↔
    ∃ rest t, s = rest ++ t ∧ List.Forall₂ (fun r x => ByteRange.has r x = true) owed rest ∧ textValid t = true := by
  induction owed generalizing s with
  | nil => simp
  | cons r owed ih =>
    cases s with
    | nil => simp [textValidFrom]
    | cons b s =>
      simp only [textValidFrom, Bool.and_eq_true, ih, List.forall₂_cons_left_iff]
      constructor
      · rintro ⟨hb, rest, t, rfl, hrest, ht⟩
        exact ⟨b :: rest, t, rfl, ⟨b, rest, hb, hrest, rfl⟩, ht⟩
      · rintro ⟨_, t, hs, ⟨x, rest, hx, hrest, rfl⟩, ht⟩
        obtain ⟨rfl, rfl⟩ := List.cons.inj hs
        exact ⟨hx, rest, t, rfl, hrest, ht⟩

/-- Valid text that is not empty is a pattern followed by valid text. -/
theorem textValid_cons_iff_pattern (b : Byte) (s : List Byte) :
    textValid (b :: s) = true ↔ ∃ p t, b :: s = p ++ t ∧ IsPattern p ∧ textValid t = true := by
  simp only [textValid_cons_iff, textValidFrom_iff]
  constructor
  · rintro ⟨row, hrow, hb, rest, t, rfl, hrest, ht⟩
    exact ⟨b :: rest, t, rfl, ⟨row, hrow, b, rest, rfl, hb, hrest⟩, ht⟩
  · rintro ⟨_, t, hs, ⟨row, hrow, x, rest, rfl, hx, hrest⟩, ht⟩
    obtain ⟨rfl, rfl⟩ := List.cons.inj hs
    exact ⟨row, hrow, hx, rest, t, rfl, hrest, ht⟩

theorem textValid_pattern_append (hp : IsPattern p) (ht : textValid t = true) : textValid (p ++ t) = true := by
  have ⟨row, _, b, rest, hcons, _⟩ := hp
  subst hcons
  exact (textValid_cons_iff_pattern b (rest ++ t)).mpr ⟨b :: rest, t, rfl, hp, ht⟩

theorem IsPattern.length_pos (hp : IsPattern p) : 0 < p.length := by
  obtain ⟨row, -, b, rest, rfl, -⟩ := hp
  exact Nat.succ_pos _

/-- R108's definition of validity. -/
theorem textValid_iff_flatten (s : List Byte) :
    textValid s = true ↔ ∃ ps : List (List Byte), s = ps.flatten ∧ ∀ p ∈ ps, IsPattern p := by
  constructor
  · intro hs
    induction hn : s.length using Nat.strong_induction_on generalizing s with
    | _ n ih =>
      cases s with
      | nil => exact ⟨[], rfl, by simp⟩
      | cons b s =>
        obtain ⟨p, t, hsplit, hp, ht⟩ := (textValid_cons_iff_pattern b s).mp hs
        rw [hsplit, List.length_append] at hn
        have hpos := hp.length_pos
        obtain ⟨ps, rfl, hps⟩ := ih t.length (by omega) t ht rfl
        exact ⟨p :: ps, hsplit, List.forall_mem_cons.mpr ⟨hp, hps⟩⟩
  · rintro ⟨ps, rfl, hps⟩
    induction ps with
    | nil => rfl
    | cons p ps ih =>
      obtain ⟨hp, hps⟩ := List.forall_mem_cons.mp hps
      exact textValid_pattern_append hp (ih hps)

/-- No range of the table reaches 0xC0, 0xC1 or 0xF5 and above: it ends below 0xC0 or lies within 0xC2 to 0xF4. -/
theorem utf8Rows_ranges : ∀ row ∈ utf8Rows, ∀ r ∈ row.1 :: row.2, r.hi < 0xC0 ∨ 0xC2 ≤ r.lo ∧ r.hi ≤ 0xF4 := by decide

theorem exists_mem_of_forall₂ (h : List.Forall₂ (fun r x => ByteRange.has r x = true) owed s) (hb : b ∈ s) :
    ∃ r ∈ owed, r.has b = true := by
  induction h with
  | nil => cases hb
  | cons hx _ ih =>
    rcases List.mem_cons.mp hb with rfl | hb
    · exact ⟨_, List.mem_cons_self, hx⟩
    · obtain ⟨r, hr, h⟩ := ih hb
      exact ⟨r, List.mem_cons_of_mem _ hr, h⟩

theorem IsPattern.byte_allowed (hp : IsPattern p) (hb : b ∈ p) : b < 0xC0 ∨ 0xC2 ≤ b ∧ b ≤ 0xF4 := by
  obtain ⟨row, hrow, x, rest, rfl, hx, hrest⟩ := hp
  obtain ⟨r, hr, hrb⟩ := exists_mem_of_forall₂ (List.Forall₂.cons hx hrest) hb
  obtain ⟨hlo, hhi⟩ := (r.has_iff b).mp hrb
  rcases utf8Rows_ranges row hrow r hr with hbelow | ⟨habove, hwithin⟩
  · exact .inl (by bv_omega)
  · exact .inr ⟨BitVec.le_trans habove hlo, BitVec.le_trans hhi hwithin⟩

theorem textValid_byte_allowed (hs : textValid s = true) (hb : b ∈ s) : b < 0xC0 ∨ 0xC2 ≤ b ∧ b ≤ 0xF4 := by
  obtain ⟨ps, rfl, hps⟩ := (textValid_iff_flatten s).mp hs
  obtain ⟨p, hp, hbp⟩ := List.mem_flatten.mp hb
  exact (hps p hp).byte_allowed hbp

/-- A byte below 0x80 is a pattern by itself, the first row of the table. -/
theorem isPattern_ascii (hb : b.toNat < 0x80) : IsPattern [b] := by
  refine ⟨(⟨0x00, 0x7F⟩, []), List.mem_cons_self, b, [], rfl, ?_, .nil⟩
  rw [ByteRange.has_iff]
  constructor <;> bv_omega

theorem textValid_of_ascii (hs : ∀ b ∈ s, b.toNat < 0x80) : textValid s = true := by
  induction s with
  | nil => rfl
  | cons b s ih =>
    obtain ⟨hb, hs⟩ := List.forall_mem_cons.mp hs
    exact textValid_pattern_append (isPattern_ascii hb) (ih hs)

/-- Settles O29: the table by evaluation, and the three sentences of R108 about it. -/
theorem textValidIsConcatenationOfPatterns : Obligations.TextValidIsConcatenationOfPatterns := by
  refine ⟨rfl, textValid_iff_flatten, fun s hs => ⟨fun h => ?_, fun h => ?_, fun b h => ?_⟩, fun s => textValid_of_ascii⟩
  · exact absurd (textValid_byte_allowed hs h) (by decide)
  · exact absurd (textValid_byte_allowed hs h) (by decide)
  · have := textValid_byte_allowed hs h
    bv_omega

/-- No byte that a pattern owes is below 0x80. -/
theorem utf8Rows_owed : ∀ row ∈ utf8Rows, ∀ r ∈ row.2, 0x80 ≤ r.lo := by decide

/-- Bytes below 0x80 complete no pattern, and after whole patterns they are patterns themselves. -/
theorem textValidFrom_append_ascii (howed : ∀ r ∈ owed, 0x80 ≤ r.lo) (ht : ∀ b ∈ t, b.toNat < 0x80) :
    textValidFrom owed (s ++ t) = textValidFrom owed s := by
  induction owed, s using textValidFrom.induct with
  | case1 => exact textValid_of_ascii ht
  | case2 r owed =>
    cases t with
    | nil => rfl
    | cons b t =>
      have hlo := howed r List.mem_cons_self
      have hb := ht b List.mem_cons_self
      have hout : r.has b = false := by
        rw [Bool.eq_false_iff, ne_eq, ByteRange.has_iff]
        bv_omega
      simp [textValidFrom, hout]
  | case3 b s hfollow => exact (textValid_cons_of_no_follow hfollow).trans (textValid_cons_of_no_follow hfollow).symm
  | case4 b s owed hfollow ih =>
    obtain ⟨row, hrow, -, rfl⟩ := utf8Follow_eq_some_iff.mp hfollow
    calc textValid (b :: (s ++ t))
        _ = textValidFrom row.2 (s ++ t) := textValid_cons_of_follow hfollow
        _ = textValidFrom row.2 s := ih (utf8Rows_owed row hrow)
        _ = textValid (b :: s) := (textValid_cons_of_follow hfollow).symm
  | case5 r owed b s ih =>
    simp [textValidFrom, ih (List.forall_mem_cons.mp howed).2]

theorem textValid_append_ascii (s : List Byte) (ht : ∀ b ∈ t, b.toNat < 0x80) : textValid (s ++ t) = textValid s :=
  textValidFrom_append_ascii (by simp) ht

/-- `trimEnd` is the library's removal from the right, whose lemmas say that it is the longest. -/
theorem trimEnd_eq_rdropWhile (ws s : List Byte) : trimEnd ws s = s.rdropWhile ws.contains := rfl

theorem exists_eq_trimEnd_append (ws s : List Byte) : ∃ suffix, s = trimEnd ws s ++ suffix ∧ ∀ b ∈ suffix, b ∈ ws :=
  ⟨s.rtakeWhile ws.contains, (List.rdropWhile_append_rtakeWhile ..).symm,
    fun _ hb => List.contains_iff_mem.mp (List.mem_rtakeWhile_imp hb)⟩

theorem trimEnd_getLast?_notMem (ws : List Byte) (h : (trimEnd ws s).getLast? = some b) : b ∉ ws := by
  obtain ⟨hne, rfl⟩ := List.mem_getLast?_eq_getLast h
  exact fun hmem => List.rdropWhile_last_not ws.contains s hne (List.contains_iff_mem.mpr hmem)

/-- Settles O30: the removed suffix is whitespace, and where that lies below 0x80 its bytes are patterns of their own. -/
theorem trimmingKeepsValidity : Obligations.TrimmingKeepsValidity := by
  refine fun ws s => ⟨exists_eq_trimEnd_append ws s, fun b => trimEnd_getLast?_notMem ws, fun hws => ?_⟩
  obtain ⟨suffix, hsplit, hsuffix⟩ := exists_eq_trimEnd_append ws s
  calc textValid (trimEnd ws s)
      _ = textValid (trimEnd ws s ++ suffix) := (textValid_append_ascii _ fun b hb => hws b (hsuffix b hb)).symm
      _ = textValid s := by rw [← hsplit]

end Sys2Proof.Machine
end

/-! ## Laws of the operations of RB (40_ringbuffer.md R122 to R131)

Each operation, arm by arm; the two byte sequences as sequences of bytes; and what P's count says of many pushes. -/

section
namespace Sys2Proof.Machine

variable {s t : State} {b : Byte} {k : Nat}

/-! ### The requests of RB (30_encoding.md R91 to R93) -/

theorem decode_push (c : Config) (b : Byte) : decode c (.w (1#1 ++ b)) = .ok (.push b) := by
  have hflag : (1#1 ++ b).extractLsb' 8 1 = 1#1 := BitVec.extractLsb'_append_eq_left
  have hbyte : (1#1 ++ b).extractLsb' 0 8 = b := BitVec.extractLsb'_append_eq_right
  simp only [decode, decodeW, hflag, hbyte, if_true]

theorem decode_syncH (c : Config) (hk : k < c.rbN) : decode c (.s k) = .ok (.syncH k) := by
  have hsel : k.testBit c.idxW = false := Nat.testBit_lt_two_pow hk
  simp [decode, decodeS, hsel, Nat.mod_eq_of_lt hk]

theorem decode_syncT (c : Config) (hk : k < c.rbN) : decode c (.s (c.rbN + k)) = .ok (.syncT k) := by
  have hsel : (c.rbN + k).testBit c.idxW = true := by
    rw [Config.rbN, Nat.testBit_two_pow_add_eq, Nat.testBit_lt_two_pow hk, Bool.not_false]
  simp [decode, decodeS, hsel, Nat.mod_eq_of_lt hk]

/-! ### One arm at a time -/

theorem exec_push_full (b : Byte) (hf : s.fullP = true) : exec (.push b) s = .next (enterError (.overflow b) s) := by
  simp [exec, execPush, hf]

theorem exec_push_room (b : Byte) (hf : s.fullP = false) : exec (.push b) s = .next (acceptPush b s) := by
  simp [exec, execPush, hf]

theorem exec_pop_ready (hr : s.ready) : exec .pop s = popOnce s := whenTaken_ready hr _

theorem popOnce_empty (h : s.rb.headC = s.rb.tail) : popOnce s = .next (popNone s) := by
  simp [popOnce, emptyC_iff.2 h]

theorem popOnce_some (hne : s.rb.headC ≠ s.rb.tail) (hb : s.rb.mem.read s.rb.tail = some b) :
    popOnce s = .next (popSome b s) := by
  simp [popOnce, emptyC_iff, hne, memRead, State.bank, hb]

theorem exec_syncH_enabled (he : syncHEnabled k s = true) :
    exec (.syncH k) s = .next { s with rb := { s.rb with headC := (s.rb.headC + k) % s.cfg.rbN } } := by
  simp [exec, execSyncH, he]

theorem exec_syncT_enabled (he : syncTEnabled k s = true) :
    exec (.syncT k) s = .next { s with rb := { s.rb with tailP := (s.rb.tailP + k) % s.cfg.rbN } } := by
  simp [exec, execSyncT, he]

theorem syncHEnabled_of_exec_ne (h : exec (.syncH k) s ≠ .next s) : syncHEnabled k s = true := by
  contrapose! h
  simp [exec, execSyncH, h]

theorem syncTEnabled_of_exec_ne (h : exec (.syncT k) s ≠ .next s) : syncTEnabled k s = true := by
  contrapose! h
  simp [exec, execSyncT, h]

/-- A view that can be brought nearer is not there yet. -/
theorem ne_of_ringDist_pos {c : Config} {i j : Nat} (h : 0 < ringDist c.rbN i j) : i ≠ j := by
  rintro rfl
  simp at h

/-! ### The queue -/

/-- The unread bytes are bytes: what was accepted is what was returned, followed by them. -/
theorem State.FifoInv.pushedBytes_eq (hq : s.FifoInv) :
    ∃ l, s.content = l.map some ∧ pushedBytes s.history = poppedBytes s.history ++ l := by
  obtain ⟨returned, unread, hsplit, hreturned, hunread⟩ := List.map_eq_append_iff.1 hq
  have hret := (Option.some_injective Byte).list_map hreturned
  exact ⟨unread, hunread.symm, hret ▸ hsplit⟩

/-- Where POP's test finds a byte, the oldest slot holds one. -/
theorem RingInv.tail_written (hi : RingInv s) (hne : s.rb.headC ≠ s.rb.tail) :
    ∃ b, s.rb.mem.read s.rb.tail = some b := by
  have hseen := hi.visible_pos hne
  have hcount := hi.count_eq
  obtain ⟨-, ht, -, -, -, hw, -⟩ := hi
  have holdest := hw 0 (by omega)
  rwa [Nat.add_zero, Nat.mod_eq_of_lt ht, Option.isSome_iff_exists] at holdest

theorem RingInv.content_eq_cons (hi : RingInv s) (hne : s.rb.headC ≠ s.rb.tail) (hb : s.rb.mem.read s.rb.tail = some b) :
    s.content = some b :: (popSome b s).content := by
  have hseen := hi.visible_pos hne
  have hcount := hi.count_eq
  obtain ⟨hh, ht, -⟩ := hi
  exact content_eq_cons_popSome ht hh (by omega) hb

theorem RingInv.acceptPush_content (hi : RingInv s) (hf : s.fullP = false) (b : Byte) :
    (acceptPush b s).content = s.content ++ [some b] := by
  have hroom := hi.countP_room hf
  have hcountP := hi.countP_eq
  obtain ⟨hh, ht, -⟩ := hi
  exact Machine.acceptPush_content b ht hh (by omega)

/-- The slot PUSH writes is no unread one. -/
theorem RingInv.unread_slot_ne_head {i : Nat} (hi : RingInv s) (hlt : i < s.count) :
    (s.rb.tail + i) % s.cfg.rbN ≠ s.rb.head := by
  obtain ⟨hh, ht, -⟩ := hi
  have hcount : s.count < s.cfg.rbN := ringDist_lt (rbN_pos _)
  rintro e
  have : s.count = i := by rw [State.count, ← e, ringDist_add ht (hlt.trans hcount)]
  omega

theorem count_le_rbDepth (s : State) : s.count ≤ s.cfg.rbDepth := Nat.le_sub_one_of_lt (ringDist_lt (rbN_pos _))

/-! ### Many pushes -/

/-- PUSH's full test in terms of the bytes P believes unread. -/
theorem RingInv.fullP_iff_countP (hi : RingInv s) : s.fullP = true ↔ s.countP + 1 = s.cfg.rbN := by
  obtain ⟨hh, -, -, hp, -⟩ := hi
  rw [fullP_iff, State.countP, ringSucc_eq hh, ringDist_eq hp hh]
  split_ifs <;> omega

/-- `s` after PUSH has accepted the bytes of a list one after another. -/
def acceptAll (bs : List Byte) (s : State) : State := bs.foldl (fun s b => acceptPush b s) s

@[simp] theorem acceptAll_nil (s : State) : acceptAll [] s = s := rfl
@[simp] theorem acceptAll_cons (b : Byte) (bs : List Byte) (s : State) :
    acceptAll (b :: bs) s = acceptAll bs (acceptPush b s) := rfl

@[simp] theorem acceptAll_cfg (bs : List Byte) (s : State) : (acceptAll bs s).cfg = s.cfg := by
  induction bs generalizing s with
  | nil => rfl
  | cons b bs ih => exact ih (acceptPush b s)

@[simp] theorem acceptAll_tail (bs : List Byte) (s : State) : (acceptAll bs s).rb.tail = s.rb.tail := by
  induction bs generalizing s with
  | nil => rfl
  | cons b bs ih => exact ih (acceptPush b s)

@[simp] theorem acceptAll_history (bs : List Byte) (s : State) :
    (acceptAll bs s).history = s.history ++ bs.map .pushed := by
  induction bs generalizing s with
  | nil => simp
  | cons b bs ih => simp [ih]

theorem acceptPush_countP (hi : RingInv s) (hf : s.fullP = false) (b : Byte) : (acceptPush b s).countP = s.countP + 1 := by
  have hroom := hi.countP_room hf
  obtain ⟨hh, -, -, hp, -⟩ := hi
  exact ringDist_add_right hp hh hroom

/-- Pushes that fit above what P believes unread are all accepted, and join the queue in order. -/
theorem execAll_push_room {bs : List Byte} (hi : RingInv s) (hroom : s.countP + bs.length < s.cfg.rbN) :
    execAll (bs.map .push) s = .next (acceptAll bs s) ∧ RingInv (acceptAll bs s) ∧
      (acceptAll bs s).countP = s.countP + bs.length ∧ (acceptAll bs s).content = s.content ++ bs.map some := by
  induction bs generalizing s with
  | nil => simpa [execAll] using hi
  | cons b bs ih =>
    rw [List.length_cons] at hroom
    have hf : s.fullP = false := Bool.eq_false_iff.2 fun hfull => by
      have := hi.fullP_iff_countP.1 hfull
      omega
    have hcountP := acceptPush_countP hi hf b
    obtain ⟨hexec, hi', hcountP', hcontent'⟩ :=
      ih (acceptPush_ringInv hi hf b) (by rw [hcountP, acceptPush_cfg]; omega)
    refine ⟨?_, hi', ?_, ?_⟩
    · simpa [execAll, exec_push_room b hf] using hexec
    · rw [acceptAll_cons, hcountP', hcountP, List.length_cons]
      omega
    · simp [hcontent', hi.acceptPush_content hf b]

/-- Pushes into a ring that P believes full are all dropped, each with its own Overflow. -/
theorem execAll_push_full (bs : List Byte) (hf : s.fullP = true) :
    ∃ u, execAll (bs.map .push) s = .next u ∧ u.history = s.history ++ bs.map .overflow ∧
      u.rb = { s.rb with wOvf := if bs = [] then s.rb.wOvf else true } := by
  induction bs generalizing s with
  | nil => exact ⟨s, by simp [execAll]⟩
  | cons b bs ih =>
    obtain ⟨u, hexec, hhist, hrb⟩ := ih (s := enterError (.overflow b) s) hf
    refine ⟨u, ?_, ?_, ?_⟩
    · simpa [execAll, exec_push_full b hf] using hexec
    · simp [hhist]
    · rw [hrb, overflow_wOvf, ite_self]
      rfl

end Sys2Proof.Machine
end

/-! ## The rules and properties of RB (40_ringbuffer.md R122 to R131) -/

section
namespace Sys2Proof.Machine

/-- Settles O22: every move keeps the FIFO property (`step_keeps_fifoInv`), and by it the accepted bytes begin with the
returned ones. -/
theorem fifoOrderIsKept : Obligations.FifoOrderIsKept := by
  refine ⟨resetBlock_fifoInv .reset, ?_, ?_⟩
  · rintro s t ⟨-, hi, -⟩ hq h
    exact step_keeps_fifoInv hi hq h
  · intro s hq
    obtain ⟨unread, -, hsplit⟩ := hq.pushedBytes_eq
    have hbegins : poppedBytes s.history <+: pushedBytes s.history := ⟨unread, hsplit.symm⟩
    refine ⟨fun j b hj => ?_, hbegins.length_le⟩
    obtain ⟨hlt, rfl⟩ := List.getElem?_eq_some_iff.1 hj
    exact List.prefix_iff_getElem?.1 hbegins j hlt

/-- Settles O14: a dropped byte leaves the queue alone, and an accepted one goes to `head`, which is no unread slot. -/
theorem pushNeverOverwritesUnread : Obligations.PushNeverOverwritesUnread := by
  rintro b s t ⟨-, hi, -⟩ h
  have hdepth : t.count ≤ s.cfg.rbDepth := (exec_move h).keeps_cfg ▸ count_le_rbDepth t
  cases hf : s.fullP with
  | true =>
    rw [exec_push_full b hf] at h
    cases h
    exact ⟨fun a ha => (ha rfl).elim, fun i _ => rfl, (overflow_queueKept b s).content_eq, hdepth⟩
  | false =>
    rw [exec_push_room b hf] at h
    cases h
    have hother {a : Nat} (ha : a ≠ s.rb.head) : memRead .RB a (acceptPush b s) = memRead .RB a s :=
      read_write_other s.rb.mem b ha
    refine ⟨fun a ha => ⟨?_, ?_⟩, fun i hlt => hother (hi.unread_slot_ne_head hlt),
      hi.acceptPush_content hf b, hdepth⟩
    · exact not_not.1 fun hne => ha (hother hne)
    · exact fun hfull => by simp [fullP_iff.2 hfull] at hf

/-- Settles O17: where POP reads, the oldest slot is written, and by the FIFO property its byte is the first one accepted and
not yet returned. -/
theorem popReadsTheOldestUnreadByte : Obligations.PopReadsTheOldestUnreadByte := by
  rintro s ⟨-, hi, -⟩ hq hr
  rw [exec_pop_ready hr]
  constructor
  · by_cases hempty : s.rb.headC = s.rb.tail
    · exact ⟨_, popOnce_empty hempty⟩
    · obtain ⟨b, hb⟩ := hi.tail_written hempty
      exact ⟨_, popOnce_some hempty hb⟩
  · intro hne
    obtain ⟨b, hb⟩ := hi.tail_written hne
    obtain ⟨unread, hunread, hsplit⟩ := hq.pushedBytes_eq
    rw [hi.content_eq_cons hne hb, eq_comm, List.map_eq_cons_iff] at hunread
    obtain ⟨x, rest, rfl, hx, -⟩ := hunread
    cases hx
    exact ⟨b, rest, hb, hsplit⟩

/-- Settles O23: P's count starts at 0 and grows by one with each accepted byte until the ring is full. -/
theorem capacityProperty : Obligations.CapacityProperty := by
  rintro s bs extra ⟨-, hi, -⟩ htail hlen
  have hn := rbN_pos s.cfg
  have hcountP : s.countP = 0 := by rw [State.countP, htail, ringDist_rbN_self]
  have hempty : s.content = [] := by
    have := hi.countP_eq
    rw [State.content, show s.count = 0 by omega]
    rfl
  rw [Config.rbDepth] at hlen
  obtain ⟨hexec, hi', hcountP', hcontent⟩ := execAll_push_room hi (bs := bs) (by omega)
  have hfull : (acceptAll bs s).fullP = true := hi'.fullP_iff_countP.2 (by rw [hcountP', acceptAll_cfg]; omega)
  obtain ⟨u, hexec', hhist, hrb⟩ := execAll_push_full extra hfull
  exact ⟨acceptAll bs s, u, hexec, hexec', by rw [hcontent, hempty, List.nil_append], acceptAll_history bs s,
    acceptAll_tail bs s, hhist, hrb⟩

/-- Settles O12: the full test picks the arm. -/
theorem pushFollowsItsRule : Obligations.PushFollowsItsRule := by
  refine fun b s => ⟨decode_push s.cfg b, rfl, fun hfull => exec_push_full b (fullP_iff.2 hfull), fun hroom => ?_⟩
  exact exec_push_room b (Bool.eq_false_iff.2 fun hf => hroom (fullP_iff.1 hf))

/-- Settles O15: the empty test picks the arm; the empty one draws `r_data` freely. -/
theorem popFollowsItsRule : Obligations.PopFollowsItsRule := by
  intro s hr
  rw [exec_pop_ready hr]
  exact ⟨rfl, rfl, fun hempty => ⟨s.freeByte, s.env.freeCount + 1, popOnce_empty hempty⟩,
    fun hne b hb => popOnce_some hne hb⟩

/-- Settles O18: an admitted distance is below the number of slots, so the label's select bit is clear. -/
theorem syncHFollowsItsRule : Obligations.SyncHFollowsItsRule := by
  refine fun s k => ⟨fun hfree hpos hk => ?_, fun h => ?_⟩
  · exact ⟨decode_syncH s.cfg (hk.trans_lt (ringDist_lt (rbN_pos _))), rfl,
      exec_syncH_enabled (syncHEnabled_iff.2 ⟨hfree, hpos, hk⟩), rfl⟩
  · obtain ⟨hfree, hpos, hk⟩ := syncHEnabled_iff.1 (syncHEnabled_of_exec_ne h)
    exact ⟨hfree, ne_of_ringDist_pos (hpos.trans hk), hpos, hk⟩

/-- Settles O19: as for `head_c`, with the label's select bit set. -/
theorem syncTFollowsItsRule : Obligations.SyncTFollowsItsRule := by
  refine fun s k => ⟨fun hfree hpos hk => ?_, fun h => ?_⟩
  · exact ⟨decode_syncT s.cfg (hk.trans_lt (ringDist_lt (rbN_pos _))), rfl,
      exec_syncT_enabled (syncTEnabled_iff.2 ⟨hfree, hpos, hk⟩), rfl⟩
  · obtain ⟨hfree, hpos, hk⟩ := syncTEnabled_iff.1 (syncTEnabled_of_exec_ne h)
    exact ⟨hfree, ne_of_ringDist_pos (hpos.trans hk), hpos, hk⟩

end Sys2Proof.Machine
end

/-! ## Laws of FEED and DRAIN (41_lineframer.md R141, R142, R148)

FEED arm by arm, what a run of bytes without a delimiter leaves in `line`, and DRAIN turn by turn. -/

section
namespace Sys2Proof.Machine

variable {s t : State} {b : Byte} {text : List Byte}

/-! ### FEED -/

theorem exec_feed_ready (b : Byte) (hr : s.ready) : exec (.feed b) s = feedOnce b s := whenTaken_ready hr _

theorem feedOnce_delim (hd : b = s.cfg.delim) (h : s.lf.line.slice 0 s.lf.idx = .ok text) :
    feedOnce b s = .next (flushed text s) := by
  rw [feedOnce, if_pos hd, flush_ok h]

theorem feedOnce_room (hd : b ≠ s.cfg.delim) (hcap : s.lf.idx + 1 ≠ s.cfg.lineCap) :
    feedOnce b s = .next (storeLine b s) := by
  rw [feedOnce, if_neg hd, if_neg (by rwa [storeLine_idx])]

theorem feedOnce_fill (hd : b ≠ s.cfg.delim) (hcap : s.lf.idx + 1 = s.cfg.lineCap)
    (h : (s.lf.line.write s.lf.idx b).slice 0 s.cfg.lineCap = .ok text) :
    feedOnce b s = .next (flushed text (storeLine b s)) := by
  rw [feedOnce, if_neg hd, if_pos (by rwa [storeLine_idx]), flush_ok (by rwa [storeLine_idx, storeLine_line, hcap])]

/-! ### Many bytes -/

theorem execAll_append (is js : List Instr) (s : State) :
    execAll (is ++ js) s = andThen (execAll is s) (execAll js) := by
  induction is generalizing s with
  | nil => rfl
  | cons i is ih =>
    rw [List.cons_append, execAll, execAll]
    cases exec i s with
    | next t => exact ih t
    | fault r | refused r => rfl

/-- A run of bytes reads back as it was written. -/
theorem slice_writeAll (m : Memory) (a : Nat) (bs : List Byte) : (m.writeAll a bs).slice a bs.length = .ok bs := by
  refine slice_ok_iff.2 ⟨rfl, fun i hi => ?_⟩
  rw [read_writeAll, if_pos (by omega), Nat.add_sub_cancel_left]

/-- `s` after FEED has stored the bytes of a list one after another, without a flush. -/
def storeBytes (bs : List Byte) (s : State) : State :=
  { s with lf := { line := s.lf.line.writeAll s.lf.idx bs, idx := s.lf.idx + bs.length } }

@[simp] theorem storeBytes_cfg (bs : List Byte) (s : State) : (storeBytes bs s).cfg = s.cfg := rfl
@[simp] theorem storeBytes_cons (bs : List Byte) (s : State) : (storeBytes bs s).cons = s.cons := rfl
@[simp] theorem storeBytes_history (bs : List Byte) (s : State) : (storeBytes bs s).history = s.history := rfl
@[simp] theorem storeBytes_line (bs : List Byte) (s : State) :
    (storeBytes bs s).lf.line = s.lf.line.writeAll s.lf.idx bs := rfl
@[simp] theorem storeBytes_idx (bs : List Byte) (s : State) : (storeBytes bs s).lf.idx = s.lf.idx + bs.length := rfl

theorem storeBytes_storeLine (b : Byte) (bs : List Byte) (s : State) :
    storeBytes bs (storeLine b s) = storeBytes (b :: bs) s := by
  rw [storeBytes, storeBytes, storeLine_idx, List.length_cons, Nat.add_right_comm, Nat.add_assoc]
  rfl

/-- Bytes that are no delimiter and do not fill the line buffer are stored silently. -/
theorem execAll_feed_room {bs : List Byte} (hr : s.ready) (hd : ∀ b ∈ bs, b ≠ s.cfg.delim)
    (hcap : s.lf.idx + bs.length < s.cfg.lineCap) : execAll (bs.map .feed) s = .next (storeBytes bs s) := by
  induction bs generalizing s with
  | nil => rfl
  | cons b bs ih =>
    obtain ⟨hb, hbs⟩ := List.forall_mem_cons.1 hd
    rw [List.length_cons] at hcap
    have hrest := ih (s := storeLine b s) hr hbs (by rw [storeLine_idx, storeLine_cfg]; omega)
    rw [List.map_cons, execAll, exec_feed_ready b hr, feedOnce_room hb (by omega), andThen_next, hrest,
      storeBytes_storeLine]

/-- A complete line fed to an empty framer is flushed whole, whatever `line` held before. -/
theorem execAll_feed_line {bs : List Byte} (hr : s.ready) (h0 : s.lf.idx = 0) (hd : ∀ b ∈ bs, b ≠ s.cfg.delim)
    (hcap : bs.length < s.cfg.lineCap) :
    execAll ((bs ++ [s.cfg.delim]).map .feed) s = .next (flushed bs (storeBytes bs s)) := by
  have hroom := execAll_feed_room hr hd (by omega)
  have hslice : (storeBytes bs s).lf.line.slice 0 (storeBytes bs s).lf.idx = .ok bs := by
    rw [storeBytes_line, storeBytes_idx, h0, Nat.zero_add, slice_writeAll]
  have hflush : exec (.feed s.cfg.delim) (storeBytes bs s) = .next (flushed bs (storeBytes bs s)) :=
    (exec_feed_ready _ (s := storeBytes bs s) hr).trans (feedOnce_delim rfl hslice)
  rw [List.map_append, execAll_append, hroom, andThen_next, List.map_singleton, execAll, hflush, andThen_next, execAll]

/-! ### DRAIN -/

theorem exec_drain_ready (hr : s.ready) : exec .drain s = .next (s.begin (.drain .pop)) := whenTaken_ready hr _

theorem consumerTurn_drain {a : DrainAt} (hh : s.cons.halted = false) (hq : s.cons.seq = .drain a) :
    consumerTurn s = drainTurn a s := by
  simp [consumerTurn, hh, hq]

theorem drainTurn_pop (h : popOnce s = .next t) : drainTurn .pop s = .next (t.goto (.drain (.test t.popResult))) := by
  rw [drainTurn, h, andThen_next]

theorem drainTurn_feed (h : feedOnce b s = .next t) : drainTurn (.feed b) s = .next (t.goto (.drain .again)) := by
  rw [drainTurn, h, andThen_next]

end Sys2Proof.Machine
end

/-! ## The rules and properties of LF (41_lineframer.md R141 to R150) -/

section
namespace Sys2Proof.Machine

/-- Settles O35: the first line leaves the framer empty and C ready, and what it left in `line` is overwritten before the
second flush reads it (`execAll_feed_line`). -/
theorem sameLineTwiceGivesTwoEqualLines : Obligations.SameLineTwiceGivesTwoEqualLines := by
  intro s bs _ hr h0 hd hcap
  have first := execAll_feed_line hr h0 hd hcap
  have second := execAll_feed_line (s := flushed bs (storeBytes bs s)) hr rfl hd hcap
  refine ⟨flushed bs (storeBytes bs (flushed bs (storeBytes bs s))), ?_, rfl, ?_⟩
  · rw [List.map_append, execAll_append, first, andThen_next]
    exact second
  · simp

/-- Settles O31: the delimiter test and then the capacity test pick the arm. -/
theorem feedFollowsItsRule : Obligations.FeedFollowsItsRule := by
  intro b s hr
  rw [exec_feed_ready b hr]
  exact ⟨rfl, rfl, fun hd _ h => feedOnce_delim hd h, feedOnce_room, fun hd hcap _ h => feedOnce_fill hd hcap h⟩

/-- Settles O36: the consumer's place picks the step, and POP and FEED are whole inside their turns. -/
theorem drainFollowsItsSteps : Obligations.DrainFollowsItsSteps := by
  refine ⟨fun s hr => ⟨rfl, rfl, exec_drain_ready hr⟩, fun s hh => ⟨?_, ?_, ?_, ?_, ?_⟩⟩
  · intro t hq hpop
    rw [consumerTurn_drain hh hq, drainTurn_pop hpop]
    rfl
  · exact fun hq => consumerTurn_drain hh hq
  · exact fun b hq => consumerTurn_drain hh hq
  · intro t b hq hfeed
    rw [consumerTurn_drain hh hq, drainTurn_feed hfeed]
    rfl
  · exact fun hq => consumerTurn_drain hh hq

end Sys2Proof.Machine
end

/-! ## Laws of NOP and of the transaction procedure (42_nand_sequencer.md R160, R162) -/

section
namespace Sys2Proof.Machine

variable {s : State} {op : NandOp}

/-- NOP answers the state it is given, whether its request is taken or ignored. -/
theorem exec_nop (s : State) : exec .nop s = .next s := ite_self _

theorem consumerTurn_nand {a : NandAt} (hh : s.cons.halted = false) (hq : s.cons.seq = .nand op a) :
    consumerTurn s = nandTurn op a s := by
  simp [consumerTurn, hh, hq]

/-- Step T1 is taken once NS is idle and chip-select is high. -/
theorem nandTurn_t1_free (hidle : s.ns.nsState = .idle) (hcs : s.ns.csN = true) :
    nandTurn op .t1 s = .next (assertCs op s) :=
  congrArg _ (if_pos ⟨hidle, hcs⟩)

/-- Step T1 waits while NS is not idle or chip-select is low (70_reset_and_hazards.md R262 (b)). -/
theorem nandTurn_t1_wait (h : s.ns.nsState ≠ .idle ∨ s.ns.csN = false) : nandTurn op .t1 s = .next s := by
  refine congrArg _ (if_neg ?_)
  rintro ⟨hidle, hcs⟩
  rcases h with hbusy | hlow
  · exact hbusy hidle
  · rw [hcs] at hlow
    cases hlow

/-- An answered exchange of `n` bytes has `n` received bytes. -/
theorem busOutcome_ok_length {n : Nat} {rx : List Byte} (h : busOutcome n s = .ok rx) : rx.length = n := by
  rcases busOutcome_bounds n s with ⟨rx', hrx, hlen⟩ | ⟨e, k, herr, _⟩
  · rw [h] at hrx
    cases hrx
    exact hlen
  · rw [h] at herr
    cases herr

/-- A failed exchange of `n` bytes has transferred at most `n`. -/
theorem busOutcome_err_le {n e k : Nat} (h : busOutcome n s = .err e k) : k ≤ n := by
  rcases busOutcome_bounds n s with ⟨rx, hok, _⟩ | ⟨e', k', herr, hle⟩
  · rw [h] at hok
    cases hok
  · rw [h] at herr
    cases herr
    exact hle

/-- After an answered exchange the received bytes stand in `xbuf` where `keep` says so, and nothing else of NS changes. -/
theorem exchanged_ok (op : NandOp) (tx rx : List Byte) (s : State) :
    exchanged op tx (.ok rx) s =
      { s with
        ns := { s.ns with xbuf := if op.keep then s.ns.xbuf.writeAll 0 rx else s.ns.xbuf }
        history := s.history ++ [.xfer tx rx] } := by
  cases op <;> rfl

end Sys2Proof.Machine
end

/-! ## The rules of NS: NOP and the transaction procedure (42_nand_sequencer.md R160, R162) -/

section
namespace Sys2Proof.Machine

/-- Settles O38: a taken NOP and an ignored one answer the same state. -/
theorem nopChangesNothing : Obligations.NopChangesNothing :=
  fun s => ⟨rfl, rfl, exec_nop s⟩

/-- Settles O39: the consumer's place picks the step; at T1 the state of NS and chip-select pick step or wait, and at T2 V's
answer picks the outcome, within the bounds of `busOutcome_bounds`. -/
theorem transactFollowsItsSteps : Obligations.TransactFollowsItsSteps := by
  intro op s hh
  refine ⟨?_, ?_, ?_, ?_, ?_⟩
  · intro hq hidle hcs
    rw [consumerTurn_nand hh hq, nandTurn_t1_free hidle hcs]
    rfl
  · intro hq hwait
    rw [consumerTurn_nand hh hq, nandTurn_t1_wait hwait]
  · intro tx rx hq hslice hbus
    refine ⟨busOutcome_ok_length hbus, s.answered.env, ?_⟩
    rw [consumerTurn_nand hh hq, nandTurn_t2 hslice, hbus, exchanged_ok]
    rfl
  · intro tx e k hq hslice hbus
    refine ⟨busOutcome_err_le hbus, s.answered.env, ?_⟩
    rw [consumerTurn_nand hh hq, nandTurn_t2 hslice, hbus]
    rfl
  · intro o hq
    rw [consumerTurn_nand hh hq]
    rfl

end Sys2Proof.Machine
end

/-! ## `fatal` and the halted consumer (60_exceptions.md R226, R232; 10_state.md R49)

While `halted` is 1 the command port takes no request and C has no step; what is left to an operation, an input or an idle
turn is a PUSH, a SYNC step or nothing, and none of these touches what is C's. -/

section
namespace Sys2Proof.Machine

variable {s t : State} {i : Instr}

/-! ### What is C's -/

/-- What a step of C can change: C itself, NS, LF, the index that POP publishes, and POP's result. -/
def State.consumerPart (s : State) : Consumer × Nand × Framer × Nat × Bool × Byte :=
  (s.cons, s.ns, s.lf, s.rb.tail, s.rb.rValid, s.rb.rData)

theorem consumerPart_eq_iff : t.consumerPart = s.consumerPart ↔
    t.cons = s.cons ∧ t.ns = s.ns ∧ t.lf = s.lf ∧ t.rb.tail = s.rb.tail ∧
      t.rb.rValid = s.rb.rValid ∧ t.rb.rData = s.rb.rData := by
  simp only [State.consumerPart, Prod.mk.injEq]

theorem overflow_consumerPart (b : Byte) (s : State) :
    (enterError (.overflow b) s).consumerPart = s.consumerPart := rfl

theorem acceptPush_consumerPart (b : Byte) (s : State) : (acceptPush b s).consumerPart = s.consumerPart := rfl

/-! ### PUSH and SYNC: an answer in every state, and nothing of C's -/

theorem exec_push_consumerPart (b : Byte) (s : State) :
    ∃ t, exec (.push b) s = .next t ∧ t.consumerPart = s.consumerPart := by
  cases hf : s.fullP with
  | true => exact ⟨_, exec_push_full b hf, overflow_consumerPart b s⟩
  | false => exact ⟨_, exec_push_room b hf, acceptPush_consumerPart b s⟩

theorem exec_syncH_consumerPart (k : Nat) (s : State) :
    ∃ t, exec (.syncH k) s = .next t ∧ t.consumerPart = s.consumerPart := by
  by_cases hk : exec (.syncH k) s = .next s
  · exact ⟨s, hk, rfl⟩
  · exact ⟨_, exec_syncH_enabled (syncHEnabled_of_exec_ne hk), rfl⟩

theorem exec_syncT_consumerPart (k : Nat) (s : State) :
    ∃ t, exec (.syncT k) s = .next t ∧ t.consumerPart = s.consumerPart := by
  by_cases hk : exec (.syncT k) s = .next s
  · exact ⟨s, hk, rfl⟩
  · exact ⟨_, exec_syncT_enabled (syncTEnabled_of_exec_ne hk), rfl⟩

/-! ### `fatal` -/

/-- At a halted state a further `fatal` has no effect (R232). -/
theorem enterError_fatal_halted (hh : s.cons.halted = true) : enterError .fatal s = s := if_pos hh

/-- `fatal` sets `halted`, and is recorded if `halted` was 0. -/
theorem enterError_fatal (s : State) : enterError .fatal s =
    { s with
      cons := { s.cons with halted := true }
      history := if s.cons.halted then s.history else s.history ++ [.fatal] } := by
  cases hh : s.cons.halted with
  | true =>
    have hcons : s.cons = { s.cons with halted := true } := by rw [← hh]
    rw [enterError_fatal_halted hh, if_pos rfl, ← hcons]
  | false =>
    rw [enterError, if_neg (by simp [hh])]
    rfl

/-! ### The moves of a halted state -/

section Halted

variable (hh : s.cons.halted = true)
include hh

theorem goesOn_halted : s.goesOn = false := by rw [State.goesOn, hh, Bool.not_true, Bool.and_false]

theorem goOn_halted : goOn s = .next s := by simp [goOn, goesOn_halted hh]

/-- The command port ignores every operation. -/
theorem exec_command_halted (hc : i.format = .C) : exec i s = .next s := by
  have ignored (o : Out) : whenTaken s o = .next s := whenTaken_ignored (.inr hh) o
  cases i with
  | push _ | syncH _ | syncT _ => cases hc
  | pop | feed _ | drain | nop | nandReset | nandReadId => exact ignored _
  | nandReadPage page =>
    simp only [exec, execNandReadPage]
    split <;> exact ignored _

theorem exec_consumerPart_halted (h : exec i s = .next t) : t.consumerPart = s.consumerPart := by
  have of_answer (ha : ∃ u, exec i s = .next u ∧ u.consumerPart = s.consumerPart) :
      t.consumerPart = s.consumerPart := by
    obtain ⟨u, hu, hpart⟩ := ha
    cases h.symm.trans hu
    exact hpart
  cases i with
  | push b => exact of_answer (exec_push_consumerPart b s)
  | syncH k => exact of_answer (exec_syncH_consumerPart k s)
  | syncT k => exact of_answer (exec_syncT_consumerPart k s)
  | pop | feed _ | drain | nop | nandReset | nandReadId | nandReadPage _ =>
    exact of_answer ⟨s, exec_command_halted hh rfl, rfl⟩

theorem execRequest_consumerPart_halted {r : Request} (h : execRequest r s = .next t) :
    t.consumerPart = s.consumerPart := by
  rw [execRequest] at h
  split at h
  · exact exec_consumerPart_halted hh h
  · cases h; rfl
  · rw [whenTaken_ignored (.inr hh)] at h
    cases h; rfl

theorem takeRequest_consumerPart_halted {who : Agent} {r : Request} (h : takeRequest who r s = .next t) :
    t.consumerPart = s.consumerPart := by
  have hedge : commandEdge r s = execRequest r s := by simp [commandEdge, goesOn_halted hh]
  rw [takeRequest, hedge, ite_self] at h
  split at h
  · cases h; rfl
  · split at h
    · cases h
    · exact execRequest_consumerPart_halted hh h

theorem freeTurn_consumerPart_halted (h : freeTurn s = .next t) : t.consumerPart = s.consumerPart := by
  simp only [freeTurn] at h
  split at h
  · exact exec_consumerPart_halted (i := .push _) (s := (s.spend 1).spend 1) hh h
  · rw [goOn_halted (s := s.spend 1) hh] at h
    cases h; rfl
  · exact exec_consumerPart_halted (i := .syncH _) (s := (s.spend 1).spend 1) hh h
  · exact exec_consumerPart_halted (i := .syncT _) (s := (s.spend 1).spend 1) hh h

/-- No input but reset touches what is C's. -/
theorem takeInput_consumerPart_halted {j : Input} (hj : j ≠ .reset) (h : takeInput j s = .next t) :
    t.consumerPart = s.consumerPart := by
  cases j with
  | request who r => exact takeRequest_consumerPart_halted hh h
  | consumerStep => cases (goOn_halted hh).symm.trans h; rfl
  | consumerRest =>
    rw [takeInput, goesOn_halted hh] at h
    cases h; rfl
  | syncHead => exact exec_consumerPart_halted (i := .syncH _) (s := s.spend 1) hh h
  | syncTail => exact exec_consumerPart_halted (i := .syncT _) (s := s.spend 1) hh h
  | freeMove => exact freeTurn_consumerPart_halted hh h
  | fatal =>
    rw [takeInput, enterError_fatal_halted hh] at h
    cases h; rfl
  | reset => exact absurd rfl hj
  | answer a => cases h; rfl
  | hostRead p =>
    simp only [takeInput] at h
    split at h
    · cases h; rfl
    · cases h
  | foreignMaster => cases h

theorem idleTurn_consumerPart_halted (h : idleTurn s = .next t) : t.consumerPart = s.consumerPart := by
  rw [idleTurn, goesOn_halted hh, if_neg Bool.false_ne_true] at h
  split at h
  · exact exec_consumerPart_halted (i := .syncH _) (s := s.spend 1) hh h
  · split at h
    · exact exec_consumerPart_halted (i := .syncT _) (s := s.spend 1) hh h
    · cases h; rfl

/-- Until reset no step touches what is C's. -/
theorem step_consumerPart_halted (hreset : s.upcoming.head? ≠ some .reset) (h : step s = .next t) :
    t.consumerPart = s.consumerPart := by
  rw [step, turn] at h
  split at h
  · exact idleTurn_consumerPart_halted (s := s.lowerPulse) hh h
  · next j rest hup =>
    have hnext : s.upcoming = j :: rest := hup
    have hj : j ≠ .reset := by
      rintro rfl
      exact hreset (by rw [hnext, List.head?_cons])
    exact takeInput_consumerPart_halted (s := s.lowerPulse.popInput) hh hj h

end Halted

/-- Settles O53: `fatal` by its two arms; a halted state by `step_consumerPart_halted`; PUSH and SYNC answer in every state,
halted or not; and a run that is over has `halted` at 0. -/
theorem fatalStopsTheConsumerForGood : Obligations.FatalStopsTheConsumerForGood := by
  refine ⟨?_, ?_, ?_, ?_, ?_⟩
  · intro s rest hin
    rw [step_of_inputs hin, takeInput, enterError_fatal]
    rfl
  · intro s t hh hreset h
    exact consumerPart_eq_iff.1 (step_consumerPart_halted hh hreset h)
  · intro s b
    obtain ⟨t, ht, -⟩ := exec_push_consumerPart b s
    exact ⟨t, ht⟩
  · intro s k
    obtain ⟨t, ht, -⟩ := exec_syncH_consumerPart k s
    obtain ⟨u, hu, -⟩ := exec_syncT_consumerPart k s
    exact ⟨⟨t, ht⟩, ⟨u, hu⟩⟩
  · rintro s hh ⟨-, -, hrun, -⟩
    exact Bool.false_ne_true (hrun.symm.trans hh)

end Sys2Proof.Machine
end

/-! ## The memories stay canonical and inside their spaces (20_memory.md R61 to R63) -/

section
namespace Sys2Proof.Machine

variable {s t : State} {m : Memory} {n : Nat} {c : Config} {op : NandOp}

/-- A memory in canonical form whose listed addresses lie below `n`: what `SpaceInv` says of each of the three. -/
def Memory.Within (n : Nat) (m : Memory) : Prop := m.wf ∧ ∀ c ∈ m, c.1 < n

theorem spaceInv_iff : SpaceInv s ↔
    s.rb.mem.Within s.cfg.rbN ∧ s.lf.line.Within s.cfg.lineCap ∧ s.ns.xbuf.Within s.cfg.xbLen := Iff.rfl

theorem Memory.Within.nil (n : Nat) : Memory.Within n [] := ⟨List.Pairwise.nil, by simp⟩

theorem Memory.Within.write (h : m.Within n) {a : Nat} (ha : a < n) (v : Byte) : (m.write a v).Within n :=
  ⟨write_wf h.1 a v, write_bound h.2 ha v⟩

theorem Memory.Within.writeAll (h : m.Within n) {image : List Byte} (hlen : image.length ≤ n) :
    (m.writeAll 0 image).Within n :=
  ⟨writeAll_wf image h.1 0, writeAll_bound image h.2 (by omega)⟩

/-! ### The exchange lengths (42_nand_sequencer.md R163, R167, R171) -/

theorem one_le_idLen (hc : c.wf = true) : 1 ≤ c.idLen := by
  simp only [Config.wf, Config.idOk, Bool.and_eq_true, decide_eq_true_eq] at hc
  omega

theorem idLen_le_xbLen (c : Config) : c.idLen ≤ c.xbLen := by
  cases hp : c.page <;> simp [Config.xbLen, hp]

/-- Every exchange of an operation that may run fits into `xbuf`. -/
theorem xferLen_le_xbLen (hc : c.wf = true) (hl : ∀ l, op = .readPage l → c.page = some l) : op.xferLen c ≤ c.xbLen := by
  have hid := idLen_le_xbLen c
  cases op with
  | reset => exact (one_le_idLen hc).trans hid
  | readId => exact hid
  | readPage l => simp [NandOp.xferLen, Config.xbLen, hl l rfl]

theorem Seq.page_of_legal {a : NandAt} (h : (Seq.nand op a).legal c = true) : ∀ l, op = .readPage l → c.page = some l := by
  rintro l rfl
  cases a with
  | settle => cases h
  | t1 | t2 | t3 _ | check _ | step4 => simpa [Seq.legal] using h

/-! ### What a move does to each memory -/

/-- What a step of a NAND operation does to `xbuf`: only the end of T2 writes it (R162). -/
theorem nandTurn_xbuf {a : NandAt} (h : nandTurn op a s = .next t) :
    t.ns.xbuf = s.ns.xbuf ∨ t.ns.xbuf = [] ∨ ∃ rx, rx.length = op.xferLen s.cfg ∧ t.ns.xbuf = s.ns.xbuf.writeAll 0 rx := by
  rcases nandTurn_next h with ⟨_, _, _, rfl⟩ | ⟨_, _, rfl⟩ | ⟨_, tx, o, _, ho, rfl⟩ | ⟨o, _, rfl⟩ | ⟨e, k, _, rfl⟩ |
    ⟨rx, _, rfl⟩ | ⟨_, _, rfl⟩ | ⟨_, _, m, d, _, _, rfl⟩ | ⟨_, l, d, _, _, rfl⟩ | ⟨_, _, rfl⟩ | ⟨_, _, rfl⟩
  case inr.inr.inl =>
    cases o with
    | err e k => exact .inr (.inl (by simp))
    | ok rx =>
      cases hk : op.keep with
      | false => exact .inl (by simp [hk])
      | true => exact .inr (.inr ⟨rx, busOutcome_ok_length ho.symm, by simp [hk]⟩)
  all_goals exact .inl rfl

/-- What a move does to `xbuf`: nothing, no value left, or bytes from 0 on that fit. -/
theorem Move.xbuf_cases (m : Move s t) (hc : s.cfg.wf = true) (hl : s.cons.seq.legal s.cfg = true) :
    t.ns.xbuf = s.ns.xbuf ∨ t.ns.xbuf = [] ∨
      ∃ image, image.length ≤ s.cfg.xbLen ∧ t.ns.xbuf = s.ns.xbuf.writeAll 0 image := by
  have hid := idLen_le_xbLen s.cfg
  have hpos := one_le_idLen hc
  cases m with
  | still h => exact .inl (by rw [h])
  | push b h => exact .inl (by rw [h]; split <;> simp)
  | pop _ h => exact .inl (by rw [(popOnce_keeps_ns_cons h).1])
  | feed b _ h => exact .inl (by rw [(feedOnce_keeps_ns_cons h).1])
  | beginDrain _ h => exact .inl (by rw [h, begin_ns])
  | beginReset _ h => exact .inr (.inr ⟨_, by rw [frameReset_length]; omega, h ▸ startNand_xbuf _ _ s⟩)
  | beginReadId _ h => exact .inr (.inr ⟨_, by rw [frameReadId_length _ hpos]; exact hid, h ▸ startNand_xbuf _ _ s⟩)
  | beginReadPage page l _ hp h =>
    have hlen : l.frameLen ≤ s.cfg.xbLen := xferLen_le_xbLen (op := .readPage l) hc (by rintro _ ⟨⟩; exact hp)
    exact .inr (.inr ⟨_, by rw [frameReadPage_length]; exact hlen, h ▸ startNand_xbuf _ _ s⟩)
  | drain a _ _ _ h => exact .inl (by rw [drainTurn_keeps_ns h])
  | nand op a _ _ hs h =>
    rw [hs] at hl
    have hlen := xferLen_le_xbLen hc (Seq.page_of_legal hl)
    rcases nandTurn_xbuf h with hx | hx | ⟨rx, hrx, hx⟩
    · exact .inl hx
    · exact .inr (.inl hx)
    · exact .inr (.inr ⟨rx, hrx ▸ hlen, hx⟩)
  | syncH k _ h | syncT k _ h => exact .inl (by rw [h])
  | fatal h => exact .inl (by rw [h, fatal_ns])
  | reset h => exact .inr (.inl (by rw [h]; rfl))

theorem QueueMove.mem_within (q : QueueMove s t) (hh : s.rb.head < s.cfg.rbN) (hm : s.rb.mem.Within s.cfg.rbN) :
    t.rb.mem.Within s.cfg.rbN := by
  cases q with
  | kept h => exact h.mem ▸ hm
  | push b _ h => exact h ▸ hm.write hh b
  | pop b _ _ h => exact h.mem ▸ hm
  | syncH k _ h | syncT k _ h => exact h ▸ hm
  | reset h => exact h ▸ .nil _

theorem feedOnce_line_within {b : Byte} (h : feedOnce b s = .next t) (hidx : s.lf.idx < s.cfg.lineCap)
    (hm : s.lf.line.Within s.cfg.lineCap) : t.lf.line.Within s.cfg.lineCap := by
  rcases feedOnce_next h with ⟨_, x, _, rfl⟩ | ⟨_, _, rfl⟩ | ⟨_, _, x, _, rfl⟩
  · exact hm
  · exact hm.write hidx b
  · exact hm.write hidx b

theorem Move.line_within (m : Move s t) (hidx : s.lf.idx < s.cfg.lineCap) (hm : s.lf.line.Within s.cfg.lineCap) :
    t.lf.line.Within s.cfg.lineCap := by
  rcases m.lf_cases with hf | ⟨b, u, hu, hf⟩ | hf
  · exact hf ▸ hm
  · exact hf ▸ feedOnce_line_within hu hidx hm
  · exact hf ▸ .nil _

theorem Move.xbuf_within (m : Move s t) (hc : s.cfg.wf = true) (hl : s.cons.seq.legal s.cfg = true)
    (hm : s.ns.xbuf.Within s.cfg.xbLen) : t.ns.xbuf.Within s.cfg.xbLen := by
  rcases m.xbuf_cases hc hl with hx | hx | ⟨image, hlen, hx⟩
  · exact hx ▸ hm
  · exact hx ▸ .nil _
  · exact hx ▸ hm.writeAll hlen

theorem Move.spaceInv (m : Move s t) (hi : s.Inv) : SpaceInv t := by
  obtain ⟨hc, ⟨hhead, -⟩, ⟨hidx, -⟩, ⟨-, -, -, -, -, hl, -⟩, hmem, hline, hxbuf⟩ := hi
  rw [spaceInv_iff, m.keeps_cfg]
  exact ⟨m.queueMove.mem_within hhead hmem, m.line_within hidx hline, m.xbuf_within hc hl hxbuf⟩

end Sys2Proof.Machine
end

/-! ## The invariant of the machine (10_state.md R28, R33, R48, R49)

`NandInv` is `PlaceInv`, which every move is known to keep, and the clauses below. -/

section
namespace Sys2Proof.Machine

variable {s t : State} {op : NandOp} {q : Seq}

/-- The clauses of `NandInv` that speak of the exchange and of DRAIN's local variable. -/
structure OperandInv (s : State) : Prop where
  xlen    : s.ns.xlen = s.cons.seq.xlen s.cfg
  held    : ∀ i < s.cons.seq.xbufHeld s.cfg, (s.ns.xbuf.read i).isSome = true
  legal   : s.cons.seq.legal s.cfg = true
  drained : s.cons.seq.drained = none ∨ s.cons.seq.drained = some s.popResult

theorem nandInv_iff : NandInv s ↔ PlaceInv s ∧ OperandInv s := by
  constructor
  · rintro ⟨hcs, hsettle, hplace, hxlen, hheld, hlegal, hbusy, hdrained⟩
    exact ⟨⟨hcs, hsettle, hplace, hbusy⟩, ⟨hxlen, hheld, hlegal, hdrained⟩⟩
  · rintro ⟨⟨hcs, hsettle, hplace, hbusy⟩, ⟨hxlen, hheld, hlegal, hdrained⟩⟩
    exact ⟨hcs, hsettle, hplace, hxlen, hheld, hlegal, hbusy, hdrained⟩

theorem OperandInv.congr (h : OperandInv s) (hc : t.cfg = s.cfg) (hns : t.ns = s.ns) (hq : t.cons.seq = s.cons.seq)
    (hr : t.popResult = s.popResult) : OperandInv t := by
  obtain ⟨hxlen, hheld, hlegal, hdrained⟩ := h
  constructor <;> simp only [hc, hns, hq, hr] <;> assumption

/-- A place at which no exchange runs, nothing of `xbuf` is still to be read and DRAIN has no result in hand. -/
structure Seq.Free (c : Config) (q : Seq) : Prop where
  xlen    : q.xlen c = 0
  held    : q.xbufHeld c = 0
  legal   : q.legal c = true
  drained : q.drained = none

theorem Seq.free_idle (c : Config) : Seq.idle.Free c := ⟨rfl, rfl, rfl, rfl⟩
theorem Seq.free_drain_pop (c : Config) : (Seq.drain .pop).Free c := ⟨rfl, rfl, rfl, rfl⟩
theorem Seq.free_drain_again (c : Config) : (Seq.drain .again).Free c := ⟨rfl, rfl, rfl, rfl⟩
theorem Seq.free_settle (c : Config) : (Seq.nand .reset .settle).Free c := ⟨rfl, rfl, rfl, rfl⟩

/-- At a free place the clauses ask for `xlen` = 0 alone. -/
theorem OperandInv.of_free (hx : t.ns.xlen = 0) (hq : t.cons.seq = q) (hf : q.Free t.cfg) : OperandInv t := by
  obtain ⟨hxlen, hheld, hlegal, hdrained⟩ := hf
  exact ⟨by rw [hq, hx, hxlen], by simp [hq, hheld], by rw [hq, hlegal], .inl (by rw [hq, hdrained])⟩

/-- Between two places that no exchange runs at, `xlen` stays 0. -/
theorem OperandInv.move_to_free (h : OperandInv s) (h0 : s.cons.seq.xlen s.cfg = 0) (hx : t.ns.xlen = s.ns.xlen)
    (hq : t.cons.seq = q) (hf : q.Free t.cfg) : OperandInv t :=
  .of_free (hx.trans (h.xlen.trans h0)) hq hf

/-! ### Over every move -/

/-- Step 1 of a NAND operation leaves its whole image in `xbuf`. -/
theorem startNand_operandInv (h : OperandInv s) (hs : s.cons.seq = .idle) {image : List Byte}
    (hlen : image.length = op.xferLen s.cfg) (hl : ∀ l, op = .readPage l → s.cfg.page = some l) :
    OperandInv (startNand op image s) := by
  have hxlen : s.ns.xlen = 0 := by rw [h.xlen, hs]; rfl
  refine ⟨hxlen, fun i hi => ?_, ?_, .inl rfl⟩
  · have hi : i < image.length := hlen ▸ hi
    rw [startNand_xbuf, read_writeAll, if_pos ⟨i.zero_le, by omega⟩]
    simpa using hi
  · cases op with
    | reset | readId => rfl
    | readPage l => simp [Seq.legal, hl l rfl]

theorem drainTurn_operandInv {a : DrainAt} (hi : OperandInv s) (hs : s.cons.seq = .drain a)
    (h : drainTurn a s = .next t) : OperandInv t := by
  have h0 : s.cons.seq.xlen s.cfg = 0 := by rw [hs]; rfl
  have hxlen : s.ns.xlen = 0 := hi.xlen.trans h0
  have hns : t.ns.xlen = s.ns.xlen := by rw [drainTurn_keeps_ns h]
  rcases drainTurn_next h with ⟨rfl, u, hu, rfl⟩ | ⟨b, rfl, rfl⟩ | ⟨rfl, rfl⟩ | ⟨b, rfl, u, hu, rfl⟩ | ⟨rfl, rfl⟩
  · exact ⟨hns.trans hxlen, by simp [Seq.xbufHeld], rfl, .inr rfl⟩
  · have hres : some (some b) = some s.popResult := by
      rcases hi.drained with hd | hd
      · rw [hs] at hd; cases hd
      · rwa [hs] at hd
    exact ⟨hxlen, by simp [Seq.xbufHeld], rfl, .inr hres⟩
  · exact hi.move_to_free h0 rfl rfl (Seq.free_idle _)
  · exact hi.move_to_free h0 hns rfl (Seq.free_drain_again _)
  · exact hi.move_to_free h0 rfl rfl (Seq.free_drain_pop _)

theorem Seq.legal_of_page {c : Config} {a : NandAt} (hp : ∀ l, op = .readPage l → c.page = some l) (ha : a ≠ .settle) :
    (Seq.nand op a).legal c = true := by
  cases op with
  | reset => rfl
  | readId =>
    cases a with
    | settle => exact absurd rfl ha
    | t1 | t2 | t3 _ | check _ | step4 => rfl
  | readPage l =>
    cases a with
    | settle => exact absurd rfl ha
    | t1 | t2 | t3 _ | check _ | step4 => exact decide_eq_true (hp l rfl)

/-- A step inside a NAND operation to a place that still reads `xbuf` keeps the clauses if every byte of the exchange that
held a value still does, and if it reads no more than was held. -/
theorem OperandInv.move_in_nand {a : NandAt} (hi : OperandInv s) (hs : s.cons.seq = .nand op a) (a' : NandAt) (ha : a' ≠ .settle)
    (hc : t.cfg = s.cfg) (hq : t.cons.seq = .nand op a') (hx : t.ns.xlen = (Seq.nand op a').xlen s.cfg)
    (hheld : ∀ i < (Seq.nand op a').xbufHeld s.cfg,
      ((∀ j < (Seq.nand op a).xbufHeld s.cfg, (s.ns.xbuf.read j).isSome = true) → (t.ns.xbuf.read i).isSome = true)) :
    OperandInv t := by
  obtain ⟨-, hread, hlegal, -⟩ := hi
  rw [hs] at hread hlegal
  refine ⟨by rw [hx, hq, hc], fun i hlt => ?_, ?_, .inl (by rw [hq]; rfl)⟩
  · rw [hq, hc] at hlt
    exact hheld i hlt hread
  · rw [hq, hc]
    exact Seq.legal_of_page (Seq.page_of_legal hlegal) ha

/-- After T2 every byte of an answered exchange holds a value: it did before, and the received bytes have values. -/
theorem exchanged_operandInv (hi : OperandInv s) (hs : s.cons.seq = .nand op .t2) (tx : List Byte) (o : BusOutcome) :
    OperandInv ((exchanged op tx o s.answered).goto (.nand op (.t3 o))) := by
  have hxlen : s.ns.xlen = op.xferLen s.cfg := by rw [hi.xlen, hs]; rfl
  cases o with
  | err e k => exact hi.move_in_nand hs (.t3 (.err e k)) nofun (by simp) rfl hxlen (fun i hlt => absurd hlt i.not_lt_zero)
  | ok rx =>
    refine hi.move_in_nand hs (.t3 (.ok rx)) nofun (by simp) rfl (by simpa [Seq.xlen] using hxlen) fun i hlt hread => ?_
    have hsome := hread i hlt
    cases hk : op.keep with
    | false => simpa [hk] using hsome
    | true =>
      simp only [goto_ns, exchanged_ok_ns, hk, if_true, read_writeAll]
      split
      · next hin => simp; omega
      · exact hsome

theorem nandTurn_operandInv {a : NandAt} (hi : OperandInv s) (hs : s.cons.seq = .nand op a)
    (h : nandTurn op a s = .next t) : OperandInv t := by
  have hxlen : s.ns.xlen = (Seq.nand op a).xlen s.cfg := hs ▸ hi.xlen
  rcases nandTurn_next h with ⟨rfl, _, _, rfl⟩ | ⟨_, _, rfl⟩ | ⟨rfl, tx, o, _, _, rfl⟩ | ⟨o, rfl, rfl⟩ | ⟨e, k, rfl, rfl⟩ |
    ⟨rx, rfl, rfl⟩ | ⟨rfl, rfl, rfl⟩ | ⟨rfl, _, m, d, _, _, rfl⟩ | ⟨rfl, l, d, _, _, rfl⟩ | ⟨rfl, _, rfl⟩ | ⟨rfl, _, rfl⟩
  · exact hi.move_in_nand hs .t2 nofun rfl rfl rfl fun i hlt hread => hread i hlt
  · exact hi
  · exact exchanged_operandInv hi hs tx o
  · refine hi.move_in_nand hs (.check o) nofun rfl rfl rfl fun i hlt hread => ?_
    cases o with
    | ok rx => exact hread i hlt
    | err e k => exact absurd hlt i.not_lt_zero
  · exact .of_free hxlen rfl (Seq.free_idle _)
  · exact hi.move_in_nand hs .step4 nofun rfl rfl hxlen fun i hlt hread => hread i hlt
  · exact .of_free hxlen rfl (Seq.free_settle _)
  · exact .of_free hxlen rfl (Seq.free_idle _)
  · exact .of_free hxlen rfl (Seq.free_idle _)
  · exact ⟨hi.xlen, hi.held, hi.legal, hi.drained⟩
  · exact .of_free hxlen rfl (Seq.free_idle _)

theorem Move.operandInv (m : Move s t) (hc : s.cfg.wf = true) (hp : PlaceInv s) (hi : OperandInv s) : OperandInv t := by
  have idle (hr : s.ready) : s.cons.seq = .idle := hp.seq_of_ready hr
  have resting (hr : s.ready) : s.ns.xlen = 0 := by rw [hi.xlen, idle hr]; rfl
  cases m with
  | still h => exact h ▸ hi
  | push b h => subst h; split <;> exact hi.congr rfl rfl rfl rfl
  | pop hr h =>
    obtain ⟨hns, hcons⟩ := popOnce_keeps_ns_cons h
    exact .of_free (by rw [hns, resting hr]) (by rw [hcons, idle hr]) (Seq.free_idle _)
  | feed b hr h =>
    obtain ⟨hns, hcons⟩ := feedOnce_keeps_ns_cons h
    exact .of_free (by rw [hns, resting hr]) (by rw [hcons, idle hr]) (Seq.free_idle _)
  | beginDrain hr h => exact h ▸ .of_free (resting hr) rfl (Seq.free_drain_pop _)
  | beginReset hr h => exact h ▸ startNand_operandInv hi (idle hr) (frameReset_length _) nofun
  | beginReadId hr h => exact h ▸ startNand_operandInv hi (idle hr) (frameReadId_length _ (one_le_idLen hc)) nofun
  | beginReadPage page l hr hl h =>
    exact h ▸ startNand_operandInv hi (idle hr) (frameReadPage_length _ l page) (by rintro _ ⟨⟩; exact hl)
  | drain a _ _ hs h => exact drainTurn_operandInv hi hs h
  | nand op a _ _ hs h => exact nandTurn_operandInv hi hs h
  | syncH k _ h | syncT k _ h => exact h ▸ hi.congr rfl rfl rfl rfl
  | fatal h =>
    exact h ▸ hi.congr (enterError_cfg _ s) (fatal_ns s) (fatal_seq s) (by rw [State.popResult, fatal_rb, State.popResult])
  | reset h => exact h ▸ .of_free rfl rfl (Seq.free_idle _)

theorem Move.inv (m : Move s t) (hi : s.Inv) : t.Inv := by
  have hspace := m.spaceInv hi
  obtain ⟨hc, hring, hline, hnand, -⟩ := hi
  obtain ⟨hplace, hoperand⟩ := nandInv_iff.1 hnand
  exact ⟨m.keeps_cfg ▸ hc, m.queueMove.ringInv hring, m.lineInv hline,
    nandInv_iff.2 ⟨m.placeInv hplace, m.operandInv hc hplace hoperand⟩, hspace⟩

/-- Settles O51: each part of the invariant is kept by every move, and speaks of nothing that the end of the pulse or the
model's own fields change. -/
theorem stepKeepsInvariant : Obligations.StepKeepsInvariant := by
  intro s t hi h
  obtain ⟨e, m⟩ := step_move h
  exact m.inv hi

end Sys2Proof.Machine
end

/-! ## What a step comes to

Whatever the schedule and the inputs, a step is an operation of the decoded request, a turn of C, the `fatal` or the reset
input, a read that gives no value, a refusal, or nothing; so a claim about every outcome of every step is a claim about
`exec` and `consumerTurn`. -/

section
namespace Sys2Proof.Machine

variable {s t : State} {o : Out} {next : Option Input}

/-- The outcomes of a turn from `s` (the pulse ended) when the world does `next`. -/
inductive TurnOutcome (next : Option Input) (s : State) : Out → Prop where
  | exec (e : Env) (i : Instr) : TurnOutcome next s (exec i { s with env := e })
  | consumer (e : Env) (hg : s.goesOn = true) : TurnOutcome next s (consumerTurn { s with env := e })
  | still (e : Env) : TurnOutcome next s (.next { s with env := e })
  | refused (r : Refusal) : TurnOutcome next s (.refused r)
  | fatal (e : Env) : TurnOutcome next s (.next (enterError .fatal { s with env := e }))
  | reset (e : Env) (h : next = some .reset) : TurnOutcome next s (.next (State.resetBlock { s with env := e }))
  | hostRead (p : HostPort) (f : Fault) (h : next = some (.hostRead p)) (hf : readPort p s = .error f) :
      TurnOutcome next s (.fault f)

theorem execRequest_outcome (r : Request) (s : State) : TurnOutcome next s (execRequest r s) := by
  rw [execRequest]
  split
  · exact .exec s.env _
  · exact .still s.env
  · rcases whenTaken_cases s (.refused .reservedCode) with ⟨_, e⟩ | ⟨_, e⟩ <;> rw [e]
    · exact .refused _
    · exact .still s.env

theorem takeRequest_outcome (who : Agent) (r : Request) (s : State) : TurnOutcome next s (takeRequest who r s) := by
  rw [takeRequest]
  split
  · exact .still s.env
  · split
    · exact .refused _
    · split
      · rw [commandEdge]
        split
        · next hg => exact .consumer s.env hg
        · exact execRequest_outcome r s
      · exact execRequest_outcome r s

theorem goOn_outcome (e : Env) : TurnOutcome next s (goOn { s with env := e }) := by
  rw [goOn]
  split
  · next hg => exact .consumer e hg
  · exact .still e

theorem freeTurn_outcome (s : State) : TurnOutcome next s (freeTurn s) := by
  simp only [freeTurn]
  split
  · exact .exec ((s.spend 1).spend 1).env (.push _)
  · exact goOn_outcome (s.spend 1).env
  · exact .exec ((s.spend 1).spend 1).env (.syncH _)
  · exact .exec ((s.spend 1).spend 1).env (.syncT _)

theorem takeInput_outcome (i : Input) (s : State) : TurnOutcome (some i) s (takeInput i s) := by
  cases i with
  | request who r => exact takeRequest_outcome who r s
  | consumerStep => exact goOn_outcome s.env
  | consumerRest =>
    rw [takeInput]
    split
    · next hg => exact .consumer (s.putBack .consumerRest).env hg
    · exact .still s.env
  | syncHead => exact .exec (s.spend 1).env (.syncH _)
  | syncTail => exact .exec (s.spend 1).env (.syncT _)
  | freeMove => exact freeTurn_outcome s
  | fatal => exact .fatal s.env
  | reset => exact .reset s.env rfl
  | answer a => exact .still _
  | hostRead p =>
    simp only [takeInput]
    split
    · exact .still s.env
    · next f hf => exact .hostRead p f rfl hf
  | foreignMaster => exact .refused _

theorem idleTurn_outcome (s : State) : TurnOutcome next s (idleTurn s) := by
  rw [idleTurn]
  split
  · next hg => exact .consumer s.env hg
  · split
    · exact .exec (s.spend 1).env (.syncH _)
    · split
      · exact .exec (s.spend 1).env (.syncT _)
      · exact .still s.env

/-- The next input may be taken before or after the model's own fields change: no outcome depends on them. -/
theorem TurnOutcome.of_env {e : Env} (h : TurnOutcome next { s with env := e } o) : TurnOutcome next s o := by
  cases h with
  | exec e' i => exact .exec e' i
  | consumer e' hg => exact .consumer e' hg
  | still e' => exact .still e'
  | refused r => exact .refused r
  | fatal e' => exact .fatal e'
  | reset e' h => exact .reset e' h
  | hostRead p f h hf => exact .hostRead p f h (by cases p <;> exact hf)

theorem step_of_upcoming {i : Input} {rest : List Input} (h : s.upcoming = i :: rest) :
    step s = takeInput i s.lowerPulse.popInput := by
  rw [step, turn, show s.lowerPulse.upcoming = i :: rest from h]

theorem step_outcome (s : State) : TurnOutcome s.upcoming.head? s.lowerPulse (step s) := by
  cases h : s.upcoming with
  | nil =>
    rw [step, turn, show s.lowerPulse.upcoming = [] from h]
    exact idleTurn_outcome s.lowerPulse
  | cons i rest =>
    rw [step_of_upcoming h]
    exact (takeInput_outcome i s.lowerPulse.popInput).of_env

end Sys2Proof.Machine
end

/-! ## No operation and no turn of C reads an element that holds no value (10_state.md R56)

From a good state POP finds its slot written, the flush its line, T2 its image, and step 4 the bytes it reports. -/

section
namespace Sys2Proof.Machine

variable {s : State} {op : NandOp}

theorem popOnce_completes (hi : RingInv s) : ∃ t, popOnce s = .next t := by
  by_cases h : s.rb.headC = s.rb.tail
  · exact ⟨_, popOnce_empty h⟩
  · obtain ⟨b, hb⟩ := hi.tail_written h
    exact ⟨_, popOnce_some h hb⟩

/-- The bytes of the line so far. -/
theorem LineInv.slice_exists (hl : LineInv s) : ∃ x, s.lf.line.slice 0 s.lf.idx = .ok x :=
  Machine.slice_exists fun i hi => by rw [Nat.zero_add]; exact (hl.2 i hi).1

/-- The bytes of the line with the next one written. -/
theorem LineInv.slice_write_exists (hl : LineInv s) (b : Byte) :
    ∃ x, (s.lf.line.write s.lf.idx b).slice 0 (s.lf.idx + 1) = .ok x :=
  Machine.slice_exists fun i hi => by
    rw [Nat.zero_add, read_write]
    split
    · rfl
    · exact (hl.2 i (by omega)).1

theorem feedOnce_completes (hl : LineInv s) (b : Byte) : ∃ t, feedOnce b s = .next t := by
  by_cases hd : b = s.cfg.delim
  · obtain ⟨x, hx⟩ := hl.slice_exists
    exact ⟨_, feedOnce_delim hd hx⟩
  · by_cases hcap : s.lf.idx + 1 = s.cfg.lineCap
    · obtain ⟨x, hx⟩ := hl.slice_write_exists b
      exact ⟨_, feedOnce_fill hd hcap (hcap ▸ hx)⟩
    · exact ⟨_, feedOnce_room hd hcap⟩

theorem drainTurn_completes {a : DrainAt} (hr : RingInv s) (hl : LineInv s) : ∃ t, drainTurn a s = .next t := by
  cases a with
  | pop =>
    obtain ⟨t, ht⟩ := popOnce_completes hr
    exact ⟨_, drainTurn_pop ht⟩
  | test r => cases r <;> exact ⟨_, rfl⟩
  | feed b =>
    obtain ⟨t, ht⟩ := feedOnce_completes hl b
    exact ⟨_, drainTurn_feed ht⟩
  | again => exact ⟨_, rfl⟩

/-- The identifiers lie inside the Read-ID exchange (R168). -/
theorem idIdx_lt_idLen {c : Config} (hc : c.wf = true) : c.idMfrIdx < c.idLen ∧ c.idDevIdx < c.idLen := by
  simp only [Config.wf, Config.idOk, Bool.and_eq_true, decide_eq_true_eq] at hc
  exact hc.2

/-- Step 4 reads inside the exchange. -/
theorem nandStep4_completes (hc : s.cfg.wf = true) (hx : ∀ i < op.xferLen s.cfg, (s.ns.xbuf.read i).isSome = true) :
    ∃ t, nandStep4 op s = .next t := by
  cases op with
  | reset => exact ⟨_, rfl⟩
  | readId =>
    obtain ⟨hmfr, hdev⟩ := idIdx_lt_idLen hc
    obtain ⟨m, hm⟩ := Option.isSome_iff_exists.1 (hx _ hmfr)
    obtain ⟨d, hd⟩ := Option.isSome_iff_exists.1 (hx _ hdev)
    exact ⟨_, decodeId_ok hm hd⟩
  | readPage l =>
    obtain ⟨data, hdata⟩ := slice_exists (m := s.ns.xbuf) (a := 1 + l.addrBytes + l.dummyBytes) (n := l.dataBytes)
      fun i hi => hx _ (by rw [NandOp.xferLen, PageLayout.frameLen]; omega)
    exact ⟨_, pageData_ok hdata⟩

theorem nandTurn_completes {a : NandAt} (hc : s.cfg.wf = true) (hi : OperandInv s) (hs : s.cons.seq = .nand op a) :
    ∃ t, nandTurn op a s = .next t := by
  have hheld := hi.held
  rw [hs] at hheld
  cases a with
  | t1 => exact ⟨_, rfl⟩
  | t2 =>
    obtain ⟨tx, htx⟩ := slice_exists (m := s.ns.xbuf) (a := 0) fun i hlt => by rw [Nat.zero_add]; exact hheld i hlt
    exact ⟨_, nandTurn_t2 htx⟩
  | t3 o => exact ⟨_, rfl⟩
  | check o => cases o <;> exact ⟨_, rfl⟩
  | step4 => exact nandStep4_completes hc hheld
  | settle => exact ⟨_, rfl⟩

theorem consumerTurn_completes (hi : s.Inv) : ∃ t, consumerTurn s = .next t := by
  obtain ⟨hc, hring, hline, hnand, -⟩ := hi
  cases hh : s.cons.halted with
  | true => exact ⟨s, by rw [consumerTurn, if_pos hh]⟩
  | false =>
    cases hs : s.cons.seq with
    | idle => exact ⟨s, by simp [consumerTurn, hh, hs]⟩
    | drain a => exact consumerTurn_drain hh hs ▸ drainTurn_completes hring hline
    | nand op a => exact consumerTurn_nand hh hs ▸ nandTurn_completes hc (nandInv_iff.1 hnand).2 hs

theorem faultFree_of_completes {o : Out} (h : ∃ t, o = .next t) : faultFree o := by
  obtain ⟨t, rfl⟩ := h
  trivial

/-- A request that is ignored does not fault. -/
theorem faultFree_whenTaken {o : Out} (h : faultFree o) : faultFree (whenTaken s o) := by
  rcases whenTaken_cases s o with ⟨_, e⟩ | ⟨_, e⟩ <;> rw [e]
  · exact h
  · trivial

theorem exec_faultFree (hi : s.Inv) (i : Instr) : faultFree (exec i s) := by
  obtain ⟨-, hring, hline, -⟩ := hi
  cases i with
  | push _ | syncH _ | syncT _ => trivial
  | pop => exact faultFree_whenTaken (faultFree_of_completes (popOnce_completes hring))
  | feed b => exact faultFree_whenTaken (faultFree_of_completes (feedOnce_completes hline b))
  | drain | nop | nandReset | nandReadId => exact faultFree_whenTaken trivial
  | nandReadPage page =>
    refine faultFree_whenTaken ?_
    split <;> trivial

/-- Why a read of a result port gives no value. -/
theorem readPort_error {p : HostPort} {f : Fault} (h : readPort p s = .error f) :
    (p = .rData ∧ s.rb.rValid = false) ∨ ((p = .nandMfr ∨ p = .nandDev) ∧ s.ns.idValid = false) ∨
      ∃ i, p = .xData i ∧ (memRead .XB i s = none ∨ s.cfg.xbLen ≤ i) := by
  cases p with
  | cBusy | halted | rValid | nandStatus => cases h
  | rData =>
    cases hv : s.rb.rValid with
    | true => simp [readPort, hv] at h
    | false => exact .inl ⟨rfl, rfl⟩
  | nandMfr =>
    cases hv : s.ns.idValid with
    | true => simp [readPort, hv] at h
    | false => exact .inr (.inl ⟨.inl rfl, rfl⟩)
  | nandDev =>
    cases hv : s.ns.idValid with
    | true => simp [readPort, hv] at h
    | false => exact .inr (.inl ⟨.inr rfl, rfl⟩)
  | xData i =>
    refine .inr (.inr ⟨i, rfl, ?_⟩)
    by_cases hlen : s.cfg.xbLen ≤ i
    · exact .inr hlen
    · cases hr : memRead .XB i s with
      | none => exact .inl rfl
      | some b => simp [readPort, xData, hlen, hr] at h

/-- Settles O54: in a good state neither an operation nor a turn of C faults, so what came next was a host read, of an
element that holds no value. -/
theorem onlyHostReadsCanFault : Obligations.OnlyHostReadsCanFault := by
  intro s f hi h
  have hout := step_outcome s
  rw [h] at hout
  generalize ho : (Host.Outcome.fault f : Out) = o at hout
  cases hout with
  | exec e i =>
    have hfree := exec_faultFree (s := { s.lowerPulse with env := e }) hi i
    rw [← ho] at hfree
    exact hfree.elim
  | consumer e _ =>
    obtain ⟨t, ht⟩ := consumerTurn_completes (s := { s.lowerPulse with env := e }) hi
    rw [ht] at ho
    cases ho
  | still | refused | fatal | reset => cases ho
  | hostRead p f' hnext hf =>
    obtain ⟨rest, hup⟩ := List.head?_eq_some_iff.1 hnext
    exact ⟨p, rest, hup, readPort_error (s := s.lowerPulse) hf⟩

end Sys2Proof.Machine
end

/-! ## What a step records (00_scope.md R12)

An operation or a turn of C appends one Overflow, one event of a flushed line, or events of neither kind. -/

section
namespace Sys2Proof.Machine

variable {s t u : State} {b : Byte} {x : List Byte}

/-- An event that is neither a dropped push nor an emitted line. -/
def Event.Plain : Event → Prop
  | .overflow _ => False
  | .lineOut _ => False
  | _ => True

/-- The bytes that a flush may find in `line`: no delimiter among them, and no more than fit. -/
def FlushText (c : Config) (x : List Byte) : Prop := c.delim ∉ x ∧ x.length ≤ c.lineCap

/-- What is recorded between `s` and `t`, and what that says of the pulse `w_ovf`. -/
inductive Recorded (s t : State) : Prop where
  | overflow (b : Byte) (h : t.history = s.history ++ [.overflow b]) (hw : t.rb.wOvf = true)
  | line (x : List Byte) (hx : LineInv s → FlushText s.cfg x) (h : t.history = s.history ++ [lineEvent s.cfg x])
      (hw : t.rb.wOvf = s.rb.wOvf)
  | plain (l : List Event) (hl : ∀ e ∈ l, e.Plain) (h : t.history = s.history ++ l)
      (hw : t.rb.wOvf = true → s.rb.wOvf = true)

theorem Recorded.nothing (hh : t.history = s.history) (hr : t.rb.wOvf = s.rb.wOvf) : Recorded s t :=
  .plain [] (by simp) (by rw [hh, List.append_nil]) (hr ▸ id)

theorem Recorded.one {e : Event} (he : e.Plain) (hh : t.history = s.history ++ [e])
    (hr : t.rb.wOvf = true → s.rb.wOvf = true) : Recorded s t :=
  .plain [e] (by simpa using he) hh hr

/-- A further change of neither the history nor the pulse. -/
theorem Recorded.trans_nothing (h : Recorded s t) (hh : u.history = t.history) (hr : u.rb.wOvf = t.rb.wOvf) :
    Recorded s u := by
  cases h with
  | overflow b h hw => exact .overflow b (hh.trans h) (hr.trans hw)
  | line x hx h hw => exact .line x hx (hh.trans h) (hr.trans hw)
  | plain l hl h hw => exact .plain l hl (hh.trans h) (hr ▸ hw)

/-- What is recorded does not depend on the model's own fields. -/
theorem Recorded.of_env {e : Env} (h : Recorded { s with env := e } t) : Recorded s t := by
  cases h with
  | overflow b h hw => exact .overflow b h hw
  | line x hx h hw => exact .line x hx h hw
  | plain l hl h hw => exact .plain l hl h hw

/-! ### The text of a flush -/

/-- Bytes read from below the cursor are no delimiters. -/
theorem LineInv.flushText (hl : LineInv s) (h : s.lf.line.slice 0 s.lf.idx = .ok x) : FlushText s.cfg x := by
  obtain ⟨hidx, hline⟩ := hl
  obtain ⟨hlen, hread⟩ := slice_ok_iff.1 h
  refine ⟨fun hmem => ?_, by omega⟩
  obtain ⟨i, hi⟩ := List.mem_iff_getElem?.1 hmem
  have hlt : i < s.lf.idx := hlen ▸ (List.getElem?_eq_some_iff.1 hi).1
  have hdelim := (hline i hlt).2
  rw [← hi, ← hread i hlt, Nat.zero_add] at hdelim
  exact hdelim rfl

/-- So are they with one more byte written that is no delimiter. -/
theorem LineInv.flushText_write (hl : LineInv s) (hb : b ≠ s.cfg.delim)
    (h : (s.lf.line.write s.lf.idx b).slice 0 (s.lf.idx + 1) = .ok x) : FlushText s.cfg x := by
  obtain ⟨hidx, hline⟩ := hl
  obtain ⟨hlen, hread⟩ := slice_ok_iff.1 h
  refine ⟨fun hmem => ?_, by omega⟩
  obtain ⟨i, hi⟩ := List.mem_iff_getElem?.1 hmem
  have hlt : i < s.lf.idx + 1 := hlen ▸ (List.getElem?_eq_some_iff.1 hi).1
  have hwritten := hread i hlt
  rw [hi, Nat.zero_add, read_write] at hwritten
  split at hwritten
  · exact hb (Option.some.inj hwritten)
  · exact (hline i (by omega)).2 hwritten

/-! ### The operations -/

theorem push_recorded (b : Byte) (s : State) :
    Recorded s (if s.fullP then enterError (.overflow b) s else acceptPush b s) := by
  split
  · exact .overflow b rfl rfl
  · exact .one (e := .pushed b) trivial rfl (by simp)

theorem popOnce_recorded (h : popOnce s = .next t) : Recorded s t := by
  rcases popOnce_next h with ⟨_, rfl⟩ | ⟨_, b, _, rfl⟩
  · exact .one (e := .popEmpty) trivial rfl id
  · exact .one (e := .popped b) trivial rfl id

theorem feedOnce_recorded (h : feedOnce b s = .next t) : Recorded s t := by
  rcases feedOnce_next h with ⟨_, x, hx, rfl⟩ | ⟨_, _, rfl⟩ | ⟨hb, _, x, hx, rfl⟩
  · exact .line x (fun hl => hl.flushText hx) rfl rfl
  · exact .nothing rfl rfl
  · exact .line x (fun hl => hl.flushText_write hb hx) rfl rfl

theorem drainTurn_recorded {a : DrainAt} (h : drainTurn a s = .next t) : Recorded s t := by
  rcases drainTurn_next h with ⟨_, u, hu, rfl⟩ | ⟨b, _, rfl⟩ | ⟨_, rfl⟩ | ⟨b, _, u, hu, rfl⟩ | ⟨_, rfl⟩
  · exact (popOnce_recorded hu).trans_nothing rfl rfl
  · exact .nothing rfl rfl
  · exact .nothing rfl rfl
  · exact (feedOnce_recorded hu).trans_nothing rfl rfl
  · exact .nothing rfl rfl

theorem exchanged_recorded (op : NandOp) (tx : List Byte) (o : BusOutcome) (s : State) :
    Recorded s (exchanged op tx o s.answered) := by
  cases o with
  | ok rx => exact .one (e := .xfer tx rx) trivial (by simp) (by simp)
  | err e k => exact .one (e := .xferErr e k) trivial rfl id

theorem nandTurn_recorded {op : NandOp} {a : NandAt} (h : nandTurn op a s = .next t) : Recorded s t := by
  rcases nandTurn_next h with ⟨_, _, _, rfl⟩ | ⟨_, _, rfl⟩ | ⟨_, tx, o, _, _, rfl⟩ | ⟨o, _, rfl⟩ | ⟨e, k, _, rfl⟩ |
    ⟨rx, _, rfl⟩ | ⟨_, _, rfl⟩ | ⟨_, _, m, d, _, _, rfl⟩ | ⟨_, l, d, _, _, rfl⟩ | ⟨_, _, rfl⟩ | ⟨_, _, rfl⟩
  · exact .one (e := .csLow) trivial rfl id
  · exact .nothing rfl rfl
  · exact (exchanged_recorded op tx o s).trans_nothing rfl rfl
  · exact .one (e := .csHigh) trivial rfl id
  · exact .one (e := .nandDone (.busError e)) trivial rfl id
  · exact .nothing rfl rfl
  · exact .one (e := .settleStart) trivial rfl id
  · exact .one (e := .nandDone (.okId m d)) trivial rfl id
  · exact .one (e := .nandDone (.okPage d)) trivial rfl id
  · exact .nothing rfl rfl
  · exact .plain [.settleDone, .nandDone .ok] (by simp [Event.Plain]) (by simp) id

theorem consumerTurn_recorded (h : consumerTurn s = .next t) : Recorded s t := by
  cases hh : s.cons.halted with
  | true =>
    rw [consumerTurn, if_pos hh] at h
    cases h; exact .nothing rfl rfl
  | false =>
    cases hs : s.cons.seq with
    | idle =>
      simp only [consumerTurn, hh, hs] at h
      cases h; exact .nothing rfl rfl
    | drain a => exact drainTurn_recorded (consumerTurn_drain hh hs ▸ h)
    | nand op a => exact nandTurn_recorded (consumerTurn_nand hh hs ▸ h)

theorem whenTaken_next {o : Out} (h : whenTaken s o = .next t) : o = .next t ∨ t = s := by
  rcases whenTaken_cases s o with ⟨_, e⟩ | ⟨_, e⟩ <;> rw [e] at h
  · exact .inl h
  · exact .inr (by cases h; rfl)

/-- A request of the command port records what its operation does, if it is taken. -/
theorem whenTaken_recorded {o : Out} (h : whenTaken s o = .next t) (ho : o = .next t → Recorded s t) : Recorded s t := by
  rcases whenTaken_next h with h | rfl
  · exact ho h
  · exact .nothing rfl rfl

theorem exec_recorded {i : Instr} (h : exec i s = .next t) : Recorded s t := by
  cases i with
  | push b => cases h; exact push_recorded b s
  | pop => exact whenTaken_recorded h popOnce_recorded
  | feed b => exact whenTaken_recorded h feedOnce_recorded
  | drain | nop | nandReset | nandReadId => exact whenTaken_recorded h (by rintro ⟨⟩; exact .nothing rfl rfl)
  | nandReadPage page =>
    refine whenTaken_recorded h fun h => ?_
    split at h <;> cases h
    exact .nothing rfl rfl
  | syncH k | syncT k =>
    cases h
    split <;> exact .nothing rfl rfl

theorem fatal_recorded (s : State) : Recorded s (enterError .fatal s) := by
  rcases fatal_history s with h | h
  · exact .nothing h (by rw [fatal_rb])
  · exact .one (e := .fatal) trivial h (by rw [fatal_rb]; exact id)

/-! ### Every step -/

theorem step_recorded (hreset : s.upcoming.head? ≠ some .reset) (h : step s = .next t) : Recorded s.lowerPulse t := by
  have hout := step_outcome s
  rw [h] at hout
  generalize ho : (Host.Outcome.next t : Out) = o at hout
  cases hout with
  | exec e i => exact (exec_recorded ho.symm).of_env
  | consumer e _ => exact (consumerTurn_recorded ho.symm).of_env
  | still e => cases ho; exact .nothing rfl rfl
  | fatal e => cases ho; exact (fatal_recorded _).of_env
  | reset e hr => exact absurd hr hreset
  | refused | hostRead => cases ho

theorem step_of_reset (hreset : s.upcoming.head? = some .reset) : step s = .next s.lowerPulse.popInput.resetBlock := by
  obtain ⟨rest, hup⟩ := List.head?_eq_some_iff.1 hreset
  rw [step_of_upcoming hup, takeInput]

theorem newEvents_of_append {l : List Event} (h : t.history = s.history ++ l) : newEvents s t = l := by
  rw [newEvents, h, List.drop_left]

/-- Reset records nothing and empties the history (70_reset_and_hazards.md R250). -/
theorem newEvents_resetBlock (u : State) : newEvents s u.resetBlock = [] := List.drop_nil

end Sys2Proof.Machine
end

/-! ## The history, the pulse, and what is emitted (00_scope.md R12; 10_state.md R30; 41_lineframer.md R143) -/

section
namespace Sys2Proof.Machine

variable {s t : State}

/-- Settles O57: a step that is no reset appends what it records. -/
theorem historyOnlyGrows : Obligations.HistoryOnlyGrows := by
  intro s t h
  refine ⟨fun hreset => ?_, fun hreset => ?_⟩
  · rcases step_recorded hreset h with ⟨b, h, _⟩ | ⟨x, _, h, _⟩ | ⟨l, _, h, _⟩ <;>
      exact h ▸ List.prefix_append ..
  · rw [step_of_reset hreset] at h
    cases h; rfl

/-- A line event is no dropped push. -/
theorem lineEvent_ne_overflow (c : Config) (x : List Byte) (b : Byte) : lineEvent c x ≠ .overflow b := by
  rw [lineEvent]; split <;> exact nofun

/-- Settles O56: the pulse has ended when the step begins, so after the step it is 1 exactly if the step records the Overflow
that raises it. -/
theorem overflowPulseIsOneStepLong : Obligations.OverflowPulseIsOneStepLong := by
  intro s t h
  by_cases hreset : s.upcoming.head? = some .reset
  · rw [step_of_reset hreset] at h
    cases h
    simp [newEvents_resetBlock, State.reset]
  · rcases step_recorded hreset h with ⟨b, h, hw⟩ | ⟨x, _, h, hw⟩ | ⟨l, hl, h, hw⟩
    · rw [newEvents_of_append (s := s) h, hw]
      exact iff_of_true rfl ⟨b, rfl⟩
    · rw [newEvents_of_append (s := s) h, hw]
      refine iff_of_false (by simp) ?_
      rintro ⟨b, hb⟩
      exact lineEvent_ne_overflow _ _ b (List.singleton_inj.1 hb)
    · rw [newEvents_of_append (s := s) h]
      refine iff_of_false (fun hone => Bool.false_ne_true (hw hone)) ?_
      rintro ⟨b, rfl⟩
      exact hl _ List.mem_cons_self

/-- The emitted line is the trimmed text of a flush, and that text is valid. -/
theorem eq_trimEnd_of_lineEvent {c : Config} {x l : List Byte} (h : .lineOut l = lineEvent c x) :
    l = trimEnd c.ws x ∧ textValid x = true := by
  rw [lineEvent] at h
  split at h
  · next hv => cases h; exact ⟨rfl, hv⟩
  · cases h

/-- Settles O33: the text of a flush holds no delimiter and fits (`LineInv.flushText`); trimming only takes from its end,
stops at a byte that is no WS byte, and keeps its validity (`trimmingKeepsValidity`). -/
theorem emittedLinesAreCleanText : Obligations.EmittedLinesAreCleanText := by
  rintro s t l ⟨-, -, hline, -⟩ h hmem
  by_cases hreset : s.upcoming.head? = some .reset
  · rw [step_of_reset hreset] at h
    cases h
    rw [newEvents_resetBlock] at hmem
    cases hmem
  rcases step_recorded hreset h with ⟨b, h, _⟩ | ⟨x, hx, h, _⟩ | ⟨es, hes, h, _⟩
  · rw [newEvents_of_append (s := s) h] at hmem
    cases List.mem_singleton.1 hmem
  · rw [newEvents_of_append (s := s) h] at hmem
    obtain ⟨rfl, hvalid⟩ := eq_trimEnd_of_lineEvent (List.mem_singleton.1 hmem)
    obtain ⟨hdelim, hcap⟩ := hx hline
    obtain ⟨⟨suffix, hsplit, -⟩, hlast, hkeeps⟩ := trimmingKeepsValidity s.cfg.ws x
    have hbegins : trimEnd s.cfg.ws x <+: x := ⟨suffix, hsplit.symm⟩
    exact ⟨fun hd => hdelim (hbegins.subset hd), hbegins.length_le.trans hcap, hlast,
      fun hws => (hkeeps hws).trans hvalid⟩
  · rw [newEvents_of_append (s := s) h] at hmem
    exact (hes _ hmem).elim

end Sys2Proof.Machine
end

/-! ## The request formats (30_encoding.md R91 to R93) -/

section
namespace Sys2Proof.Machine

variable {s : State} {c : Config} {i : Instr} {r : Request} {k : Nat}

/-! ### From the operation to its request and back -/

theorem pagePort_of_fits {page : Nat} (h : pageFits c page = true) : pagePort c page = page := by
  cases hp : c.page with
  | none => simp [pagePort, hp]
  | some l =>
    simp only [pageFits, hp, decide_eq_true_eq] at h
    simp [pagePort, hp, Nat.mod_eq_of_lt h]

theorem pageFits_pagePort (c : Config) (page : Nat) : pageFits c (pagePort c page) = true := by
  cases hp : c.page with
  | none => simp [pageFits, hp]
  | some l => simpa [pageFits, pagePort, hp] using Nat.mod_lt _ (Nat.two_pow_pos _)

@[simp] theorem encode_format (c : Config) (i : Instr) : (encode c i).format = i.format := by
  cases i <;> rfl

theorem decode_encode (h : i.wf c = true) : decode c (encode c i) = .ok i := by
  cases i with
  | push b => exact decode_push c b
  | pop | feed _ | drain | nop | nandReset | nandReadId => rfl
  | nandReadPage page => exact congrArg (fun p => Except.ok (Instr.nandReadPage p)) (pagePort_of_fits h)
  | syncH k => exact decode_syncH c (of_decide_eq_true h)
  | syncT k => exact decode_syncT c (of_decide_eq_true h)

/-- Settles O4: by the format of the operation; a page that fits passes the `PAGE_AW` wires whole. -/
theorem decodeOfEncodeIsIdentity : Obligations.DecodeOfEncodeIsIdentity := fun _ _ => decode_encode

/-! ### From the request to its operation and back -/

/-- Bit 8 of a write word is `w_en` (R91). -/
theorem extract_en_iff (word : BitVec 9) : word.extractLsb' 8 1 = 1#1 ↔ 256 ≤ word.toNat := by
  have := word.isLt
  rw [← BitVec.toNat_inj, BitVec.extractLsb'_toNat, Nat.shiftRight_eq_div_pow]
  simp
  omega

theorem decode_idle_word {word : BitVec 9} (h : word.toNat < 256) : decode c (.w word) = .error .noRequest :=
  if_neg (by rw [extract_en_iff]; omega)

theorem decode_push_word {word : BitVec 9} (h : 256 ≤ word.toNat) :
    decode c (.w word) = .ok (.push (word.extractLsb' 0 8)) :=
  if_pos ((extract_en_iff word).2 h)

/-- A write word with `w_en` = 1 is its flag and its byte. -/
theorem append_extract_byte {word : BitVec 9} (h : 256 ≤ word.toNat) : 1#1 ++ word.extractLsb' 0 8 = word := by
  rw [← (extract_en_iff word).2 h]
  exact BitVec.extractLsb'_append_extractLsb'_eq_extractLsb' (by rfl) |>.trans (by simp)

/-- The codes of the command port, but for the reserved one. -/
theorem decodeC_ok {op : BitVec 3} {byte : Byte} {page : Nat} (h : decodeC c op byte page = .ok i) :
    (op = 0b000#3 ∧ i = .nop) ∨ (op = 0b001#3 ∧ i = .pop) ∨ (op = 0b010#3 ∧ i = .feed byte) ∨ (op = 0b011#3 ∧ i = .drain) ∨
    (op = 0b100#3 ∧ i = .nandReset) ∨ (op = 0b101#3 ∧ i = .nandReadId) ∨
    (op = 0b110#3 ∧ i = .nandReadPage (pagePort c page)) := by
  simp only [decodeC] at h
  split_ifs at h <;> cases h <;> simp [*]

theorem decodeC_ne_noRequest (c : Config) (op : BitVec 3) (byte : Byte) (page : Nat) :
    decodeC c op byte page ≠ .error .noRequest := by
  simp only [decodeC]
  split_ifs <;> exact nofun

/-- A label of `1 + IDX_W` bits is its select bit and its distance (R93). -/
theorem encode_decodeS {label : Nat} (h : label < 2 * c.rbN) : encode c (decodeS c label) = .s label := by
  have hpos := rbN_pos c
  have hmod := Nat.mod_add_div label c.rbN
  rw [decodeS]
  split
  · next hsel =>
    have hge : c.rbN ≤ label := Nat.ge_two_pow_of_testBit hsel
    have hdiv : label / c.rbN = 1 := by
      rw [Nat.div_eq_iff hpos]; omega
    rw [hdiv] at hmod
    exact congrArg Request.s (by omega)
  · next hsel =>
    have hlt : label < c.rbN := by
      by_contra hge
      have : label = c.rbN + (label - c.rbN) := by omega
      rw [this, Config.rbN, Nat.testBit_two_pow_add_eq, Nat.testBit_lt_two_pow (by rw [Config.rbN] at *; omega)] at hsel
      exact hsel rfl
    exact congrArg Request.s (Nat.mod_eq_of_lt hlt)

theorem decodeS_wf (c : Config) (label : Nat) : (decodeS c label).wf c = true := by
  have hlt : label % c.rbN < c.rbN := Nat.mod_lt _ (rbN_pos c)
  rw [decodeS]
  split <;> exact decide_eq_true hlt

theorem decodeS_format (c : Config) (label : Nat) : (decodeS c label).format = .S := by
  rw [decodeS]
  split <;> rfl

theorem wf_of_decode (h : decode c r = .ok i) : i.wf c = true := by
  cases r with
  | w word =>
    simp only [decode, decodeW] at h
    split at h <;> cases h
    rfl
  | c op byte page =>
    rcases decodeC_ok h with ⟨_, rfl⟩ | ⟨_, rfl⟩ | ⟨_, rfl⟩ | ⟨_, rfl⟩ | ⟨_, rfl⟩ | ⟨_, rfl⟩ | ⟨_, rfl⟩
    case inr.inr.inr.inr.inr.inr => exact pageFits_pagePort c page
    all_goals rfl
  | s label => cases h; exact decodeS_wf c label

theorem format_of_decode (h : decode c r = .ok i) : r.format = i.format := by
  cases r with
  | w word =>
    simp only [decode, decodeW] at h
    split at h <;> cases h
    rfl
  | c op byte page =>
    rcases decodeC_ok h with ⟨_, rfl⟩ | ⟨_, rfl⟩ | ⟨_, rfl⟩ | ⟨_, rfl⟩ | ⟨_, rfl⟩ | ⟨_, rfl⟩ | ⟨_, rfl⟩ <;> rfl
  | s label => cases h; exact (decodeS_format c label).symm

/-- The encoding carries the table bits of every request that decodes to it. -/
theorem tableBits_of_decode (h : decode c r = .ok i) (hlabel : ∀ label, r = .s label → label < 2 * c.rbN) :
    (encode c i).tableBits = r.tableBits := by
  cases r with
  | w word =>
    have hen : 256 ≤ word.toNat := by
      by_contra hlt
      rw [decode_idle_word (by omega)] at h
      cases h
    rw [decode_push_word hen] at h
    cases h
    exact congrArg BitVec.toNat (append_extract_byte hen)
  | c op byte page =>
    rcases decodeC_ok h with ⟨rfl, rfl⟩ | ⟨rfl, rfl⟩ | ⟨rfl, rfl⟩ | ⟨rfl, rfl⟩ | ⟨rfl, rfl⟩ | ⟨rfl, rfl⟩ | ⟨rfl, rfl⟩ <;> rfl
  | s label =>
    cases h
    rw [encode_decodeS (hlabel label rfl)]

theorem decodeC_feed {op : BitVec 3} {byte b : Byte} {page : Nat} (h : decodeC c op byte page = .ok (.feed b)) :
    op = 0b010#3 ∧ b = byte := by
  rcases decodeC_ok h with ⟨_, h⟩ | ⟨_, h⟩ | ⟨hop, h⟩ | ⟨_, h⟩ | ⟨_, h⟩ | ⟨_, h⟩ | ⟨_, h⟩ <;> cases h
  exact ⟨hop, rfl⟩

theorem decodeC_nandReadPage {op : BitVec 3} {byte : Byte} {page p : Nat}
    (h : decodeC c op byte page = .ok (.nandReadPage p)) : op = 0b110#3 ∧ p = pagePort c page := by
  rcases decodeC_ok h with ⟨_, h⟩ | ⟨_, h⟩ | ⟨_, h⟩ | ⟨_, h⟩ | ⟨_, h⟩ | ⟨_, h⟩ | ⟨hop, h⟩ <;> cases h
  exact ⟨hop, rfl⟩

/-- Settles O5: the codes of the command port are told apart by `decodeC_ok`, the write word and the label are read back
whole. -/
theorem decodedRequestIsTheEncodedOne : Obligations.DecodedRequestIsTheEncodedOne := by
  intro c r i h
  have hformat := format_of_decode h
  refine ⟨wf_of_decode h, hformat, (encode_format c i).trans hformat.symm, tableBits_of_decode h, ?_, ?_⟩
  · rintro op byte b page rfl rfl
    obtain ⟨rfl, rfl⟩ := decodeC_feed h
    rfl
  · rintro op byte page p rfl rfl
    obtain ⟨rfl, rfl⟩ := decodeC_nandReadPage h
    exact ⟨fun hp => by simp [encode, pagePort, hp], fun l hp => by simp [encode, pagePort, hp]⟩

/-- Settles O6: by evaluation of the decoder on each word. -/
theorem specWordsDecode : Obligations.SpecWordsDecode := by
  unfold Obligations.SpecWordsDecode
  decide

/-! ### The operands on the wire (R103) -/

theorem addrBytes_msb_succ (a page : Nat) : addrBytes true (a + 1) page = pageByte page a :: addrBytes true a page := by
  simp only [addrBytes, if_true, List.range_succ_eq_map, List.map_cons, List.map_map]
  refine congrArg₂ _ rfl (List.map_congr_left fun j _ => ?_)
  simp only [Function.comp_apply]
  congr 1
  omega

theorem addrBytes_lsb_succ (a page : Nat) : addrBytes false (a + 1) page = addrBytes false a page ++ [pageByte page a] := by
  simp [addrBytes, List.range_succ]

theorem pageByte_toNat (page j : Nat) : (pageByte page j).toNat = page / 256 ^ j % 256 := by
  rw [pageByte, BitVec.toNat_ofNat, Nat.shiftRight_eq_div_pow, Nat.pow_mul]

/-- Read as a base-256 number after the digits `acc`, the bytes are the low `a` digits of the page address. -/
theorem foldl_addrBytes_msb (a page acc : Nat) :
    (addrBytes true a page).foldl (fun acc b => acc * 256 + b.toNat) acc = acc * 256 ^ a + page % 256 ^ a := by
  induction a generalizing acc with
  | zero => simp [addrBytes, Nat.mod_one]
  | succ a ih =>
    rw [addrBytes_msb_succ, List.foldl_cons, ih, pageByte_toNat, Nat.mod_pow_succ, Nat.pow_succ]
    ring

theorem addrBytes_lsb_eq_reverse (a page : Nat) : addrBytes false a page = (addrBytes true a page).reverse := by
  induction a with
  | zero => rfl
  | succ a ih => rw [addrBytes_lsb_succ, addrBytes_msb_succ, List.reverse_cons, ih]

/-- Settles O45: the bytes are the base-256 digits of the page address, and `a` of them are enough. -/
theorem addressBytesCarryThePageAddress : Obligations.AddressBytesCarryThePageAddress := by
  intro a page h
  refine ⟨addrBytes_length true a page, ?_, addrBytes_lsb_eq_reverse a page⟩
  have hfit : page < 256 ^ a := by rwa [Nat.pow_mul] at h
  rw [foldl_addrBytes_msb, Nat.zero_mul, Nat.zero_add, Nat.mod_eq_of_lt hfit]

end Sys2Proof.Machine
end

/-! ## Requests at their ports (30_encoding.md R90 to R95) -/

section
namespace Sys2Proof.Machine

variable {s : State} {i : Instr} {r : Request} {rest : List Input}

/-- A request from its operation's owner runs the operation, unless the command port is at an edge of a running one. -/
theorem takeRequest_owner (h : decode s.cfg r = .ok i) :
    takeRequest i.format.owner r s = if i.format = .C ∧ s.goesOn = true then consumerTurn s else exec i s := by
  have hrun : execRequest r s = exec i s := by simp only [execRequest, h]
  have hown : foreignRequest i.format i.format.owner = none := if_pos rfl
  simp only [takeRequest, commandEdge, h, hrun, format_of_decode h, hown, reduceCtorEq, if_false]
  by_cases hf : i.format = .C <;> simp [hf]

/-- Whatever stands on a port, a foreign agent's request is refused. -/
theorem takeRequest_foreign {who : Agent} {refusal : Refusal} (h : decode s.cfg r ≠ .error .noRequest)
    (hf : foreignRequest r.format who = some refusal) : takeRequest who r s = .refused refusal := by
  rw [takeRequest, if_neg h, hf]

theorem takeRequest_idle_word {word : BitVec 9} (who : Agent) (h : word.toNat < 256) :
    takeRequest who (.w word) s = .next s := if_pos (decode_idle_word h)

theorem step_of_request {who : Agent} (h : s.env.inputs = .request who r :: rest) :
    step s = takeRequest who r (s.taking rest) := step_of_inputs h

theorem goesOn_of_ready (h : s.cons.cBusy = false ∨ s.cons.halted = true) : s.goesOn = false := by
  rcases h with h | h <;> simp [State.goesOn, h]

/-- Settles O7: the request's format is its operation's, so its agent is the owner (`takeRequest_owner`). -/
theorem stepRunsTheDecodedRequest : Obligations.StepRunsTheDecodedRequest := by
  intro s r rest i hin hd
  have hstep : step s = _ := (step_of_request hin).trans (takeRequest_owner (s := s.taking rest) hd)
  refine ⟨fun hf => ?_, fun _ hfree => ?_, fun hf hb hh => ?_⟩
  · exact hstep.trans (if_neg fun hc => hf hc.1)
  · have hg : (s.taking rest).goesOn = false := goesOn_of_ready (s := s.taking rest) hfree
    exact hstep.trans (if_neg (by simp [hg]))
  · have hg : (s.taking rest).goesOn = true := by simp [State.goesOn, State.taking, hb, hh]
    exact hstep.trans (if_pos ⟨hf, hg⟩)

/-- Settles O9: such a word is no request (`decode_idle_word`). -/
theorem idleWriteWordChangesNothing : Obligations.IdleWriteWordChangesNothing :=
  fun _ who _ _ hlt hin => (step_of_request hin).trans (takeRequest_idle_word who hlt)

/-- Settles O10: each request decodes to an operation or to the reserved code, so it is no idle word, and its format and its
agent pick the refusal. -/
theorem excludedRequestsAreRefused : Obligations.ExcludedRequestsAreRefused := by
  intro s rest
  have foreign {who : Agent} {r : Request} {refusal : Refusal} (hd : decode s.cfg r ≠ .error .noRequest)
      (hf : foreignRequest r.format who = some refusal) (hin : s.env.inputs = .request who r :: rest) :
      step s = .refused refusal :=
    (step_of_request hin).trans (takeRequest_foreign (s := s.taking rest) hd hf)
  refine ⟨fun b p hr hin => ?_, fun word hen => ⟨?_, ?_⟩, fun op b p => ⟨?_, ?_⟩, fun label who hwho => ?_, fun hin => ?_⟩
  · have hg : (s.taking rest).goesOn = false := goesOn_of_ready (s := s.taking rest) (.inl hr.1)
    have hport : commandEdge (.c 0b111#3 b p) (s.taking rest) = execRequest (.c 0b111#3 b p) (s.taking rest) := by
      simp [commandEdge, hg]
    exact (step_of_request hin).trans (hport.trans (whenTaken_ready (s := s.taking rest) hr _))
  · exact foreign (by simp [decode_push_word hen]) rfl
  · rintro who (rfl | rfl | rfl) <;> exact foreign (by simp [decode_push_word hen]) rfl
  · exact foreign (decodeC_ne_noRequest s.cfg op b p) rfl
  · rintro who (rfl | rfl | rfl) <;> exact foreign (decodeC_ne_noRequest s.cfg op b p) rfl
  · refine foreign nofun ?_
    cases who with
    | synchroniser => exact absurd rfl hwho
    | producer | consumer | secondProducer | secondConsumer => rfl
  · exact step_of_inputs hin

/-- Settles O11: every operation of the command port goes through the same test. -/
theorem busyOrHaltedPortIgnoresRequests : Obligations.BusyOrHaltedPortIgnoresRequests := by
  intro s i hc h
  have ignored (o : Out) : whenTaken s o = .next s := whenTaken_ignored h o
  cases i with
  | push _ | syncH _ | syncT _ => cases hc
  | pop | feed _ | drain | nop | nandReset | nandReadId | nandReadPage _ => exact ignored _

/-! ### A bare table word (log 12, log 13) -/

/-- A bare table word leaves the page port at 0. -/
theorem tableRequest_page {nbits w : Nat} {op : BitVec 3} {b : Byte} {page : Nat}
    (h : tableRequest nbits w = some (.c op b page)) : page = 0 := by
  simp only [tableRequest] at h
  split_ifs at h <;> cases h
  rfl

/-- Its operation is one that a configuration with the table's widths can carry. -/
theorem wf_of_decodeTableWord {c : Config} {nbits w : Nat} (hc : c.idxW = 8) (hr : tableRequest nbits w = some r)
    (hd : decode {} r = .ok i) : i.wf c = true := by
  have hwf := wf_of_decode hd
  have hn : c.rbN = ({} : Config).rbN := congrArg (2 ^ ·) hc
  cases i with
  | push _ | pop | feed _ | drain | nop | nandReset | nandReadId => rfl
  | syncH k | syncT k =>
    have hk : k < ({} : Config).rbN := of_decide_eq_true hwf
    exact decide_eq_true (hn ▸ hk)
  | nandReadPage p =>
    cases r with
    | w word =>
      have := format_of_decode hd
      cases this
    | s label =>
      have := format_of_decode hd
      cases this
    | c op b page =>
      obtain ⟨-, rfl⟩ := decodeC_nandReadPage hd
      obtain rfl := tableRequest_page hr
      cases hp : c.page <;> simp [Instr.wf, pageFits, hp]

/-- A placed request is the next one, and its port takes it. -/
theorem step_present (hd : decode s.cfg r = .ok i) :
    step (s.present r) = exec i { s with
      rb := { s.rb with wOvf := false }
      cons := if i.format = .C then { cBusy := false, halted := false, seq := .idle } else s.cons } := by
  have hf := format_of_decode hd
  have hidle : ¬ (i.format = .C ∧ ((s.present r).taking s.env.inputs).goesOn = true) := by
    rintro ⟨hc, hg⟩
    simp [State.goesOn, State.taking, State.present, hf, hc] at hg
  calc step (s.present r)
      _ = takeRequest i.format.owner r ((s.present r).taking s.env.inputs) := hf ▸ step_of_request rfl
      _ = exec i ((s.present r).taking s.env.inputs) := (takeRequest_owner (s := (s.present r).taking s.env.inputs) hd).trans (if_neg hidle)
      _ = _ := by rw [State.taking, State.present, hf]

/-- Settles O8: under the table's own widths the operation of the word is encoded and placed, and decodes to itself. -/
theorem placedTableWordIsExecuted : Obligations.PlacedTableWordIsExecuted := by
  intro s nbits w i hidx hw
  rw [decodeTableWord] at hw
  cases hr : tableRequest nbits w with
  | none => simp [hr] at hw
  | some r =>
    have hd : decode {} r = .ok i := by
      simp only [hr] at hw
      cases hdec : decode {} r with
      | error e => simp [hdec, Except.toOption] at hw
      | ok j => simpa [hdec, Except.toOption] using hw
    have hplace : s.withFetchWord nbits w = s.present (encode s.cfg i) := by simp [State.withFetchWord, hr, hd]
    rw [hplace]
    exact step_present (decode_encode (wf_of_decodeTableWord hidx hr hd))

/-- Settles O44: the taken request finds no lengths. -/
theorem readPageWithoutLengthsIsRefused : Obligations.ReadPageWithoutLengthsIsRefused := by
  intro s page hr hp
  rw [exec, execNandReadPage, hp]
  exact whenTaken_ready hr _

end Sys2Proof.Machine
end

/-! ## Reset and the host's reads (70_reset_and_hazards.md R250; 20_memory.md R68) -/

section
namespace Sys2Proof.Machine

/-- Settles O2: the default parameters by evaluation, each unit by its own lemma, the empty memories in every space. -/
theorem resetSatisfiesInvariant : Obligations.ResetSatisfiesInvariant :=
  ⟨⟨by decide, resetBlock_ringInv .reset, lineInv_of_idx_zero (by decide) rfl,
    nandInv_iff.2 ⟨resetBlock_placeInv .reset, .of_free rfl rfl (Seq.free_idle _)⟩,
    spaceInv_iff.2 ⟨.nil _, .nil _, .nil _⟩⟩,
    resetBlock_fifoInv .reset⟩

/-- Settles O3: the input is taken, and `resetBlock` keeps the parameters and the world's plans. -/
theorem resetInputRestoresResetState : Obligations.ResetInputRestoresResetState :=
  fun _ _ hin => step_of_inputs hin

/-- The end of the pulse and the taking of an input change no result output. -/
@[simp] theorem readPort_taking (p : HostPort) (rest : List Input) (s : State) : readPort p (s.taking rest) = readPort p s := by
  cases p <;> rfl

/-- Settles O55: the read is taken at a state whose outputs are those of `s`, and gives its value or its fault alone. -/
theorem hostReadsHaveNoSideEffect : Obligations.HostReadsHaveNoSideEffect := by
  intro s p rest hin
  have hstep : step s = takeInput (.hostRead p) (s.taking rest) := step_of_inputs hin
  simp only [takeInput, readPort_taking] at hstep
  refine ⟨fun v hv => ?_, fun f hf => ?_, fun hv => if_pos hv, fun hv => ⟨if_pos hv, if_pos hv⟩⟩
  · rw [hstep, hv]; rfl
  · rw [hstep, hf]

/-- Settles O20: in each of the three cases the step is not enabled. -/
theorem disabledSyncChangesNothing : Obligations.DisabledSyncChangesNothing := by
  intro s k
  constructor
  · intro hoff
    by_contra hne
    obtain ⟨hfree, hpos, hk⟩ := syncHEnabled_iff.1 (syncHEnabled_of_exec_ne hne)
    rcases hoff with hzero | h0 | hfar
    · simp [hzero] at hfree
    · omega
    · omega
  · intro hoff
    by_contra hne
    obtain ⟨hfree, hpos, hk⟩ := syncTEnabled_iff.1 (syncTEnabled_of_exec_ne hne)
    rcases hoff with hzero | h0 | hfar
    · simp [hzero] at hfree
    · omega
    · omega

end Sys2Proof.Machine
end

/-! ## Who writes what (60_exceptions.md R234; 20_memory.md; 42_nand_sequencer.md R161) -/

section
namespace Sys2Proof.Machine

variable {s t u : State} {op : NandOp}

/-- No step of a NAND operation touches RB (R161). -/
theorem nandTurn_keeps_rb {a : NandAt} (h : nandTurn op a s = .next t) : t.rb = s.rb := by
  rcases nandTurn_next h with ⟨_, _, _, rfl⟩ | ⟨_, _, rfl⟩ | ⟨_, tx, o, _, _, rfl⟩ | ⟨o, _, rfl⟩ | ⟨e, k, _, rfl⟩ |
    ⟨rx, _, rfl⟩ | ⟨_, _, rfl⟩ | ⟨_, _, m, d, _, _, rfl⟩ | ⟨_, l, d, _, _, rfl⟩ | ⟨_, _, rfl⟩ | ⟨_, _, rfl⟩ <;> simp

theorem feedOnce_keeps_rb {b : Byte} (h : feedOnce b s = .next t) : t.rb = s.rb := by
  rcases feedOnce_next h with ⟨_, x, _, rfl⟩ | ⟨_, _, rfl⟩ | ⟨_, _, x, _, rfl⟩ <;> rfl

/-- Everything a turn of C that answers a next state can be. -/
theorem consumerTurn_next (h : consumerTurn s = .next t) :
    t = s ∨ (∃ a, s.cons.seq = .drain a ∧ drainTurn a s = .next t) ∨
      (∃ op a, s.cons.seq = .nand op a ∧ nandTurn op a s = .next t) := by
  rw [consumerTurn] at h
  split at h
  · exact .inl (by cases h; rfl)
  · split at h
    · exact .inl (by cases h; rfl)
    · next a hs => exact .inr (.inl ⟨a, hs, h⟩)
    · next op a hs => exact .inr (.inr ⟨op, a, hs, h⟩)

/-- Settles O47: a turn of C is a step of the operation whose place it stands at. -/
theorem nandAndPipelineStayApart : Obligations.NandAndPipelineStayApart := by
  intro s t h
  rcases consumerTurn_next h with rfl | ⟨a, hs, h⟩ | ⟨op, a, hs, h⟩
  · exact ⟨fun _ => ⟨rfl, rfl⟩, fun _ => rfl⟩
  · exact ⟨fun hin => absurd hin (by rw [hs]; exact Bool.false_ne_true), fun _ => drainTurn_keeps_ns h⟩
  · exact ⟨fun _ => ⟨nandTurn_keeps_rb h, nandTurn_keeps_lf h⟩, fun hout => absurd hout (by rw [hs]; exact nofun)⟩

/-! ### What C leaves alone -/

/-- What a step of C leaves of RB: what P owns, the view that S brings to C, and with lagging views the other one. -/
structure ProducerKept (s t : State) : Prop where
  head  : t.rb.head = s.rb.head
  mem   : t.rb.mem = s.rb.mem
  headC : t.rb.headC = s.rb.headC
  wOvf  : t.rb.wOvf = s.rb.wOvf
  tailP : s.cfg.syncLag = .free → t.rb.tailP = s.rb.tailP

theorem ProducerKept.of_rb (h : t.rb = s.rb) : ProducerKept s t := by
  constructor <;> simp [h]

theorem popOnce_producerKept (h : popOnce s = .next t) : ProducerKept s t := by
  rcases popOnce_next h with ⟨_, rfl⟩ | ⟨_, b, _, rfl⟩
  · exact ⟨rfl, rfl, rfl, rfl, fun _ => rfl⟩
  · exact ⟨rfl, rfl, rfl, rfl, fun hfree => by simp [hfree]⟩

theorem drainTurn_producerKept {a : DrainAt} (h : drainTurn a s = .next t) : ProducerKept s t := by
  rcases drainTurn_next h with ⟨_, u, hu, rfl⟩ | ⟨b, _, rfl⟩ | ⟨_, rfl⟩ | ⟨b, _, u, hu, rfl⟩ | ⟨_, rfl⟩
  · obtain ⟨hhead, hmem, hview, hw, htail⟩ := popOnce_producerKept hu
    exact ⟨hhead, hmem, hview, hw, htail⟩
  · exact .of_rb rfl
  · exact .of_rb rfl
  · exact .of_rb (t := u.goto _) (feedOnce_keeps_rb (t := u) hu)
  · exact .of_rb rfl

theorem consumerTurn_producerKept (h : consumerTurn s = .next t) : ProducerKept s t := by
  rcases consumerTurn_next h with rfl | ⟨a, _, h⟩ | ⟨op, a, _, h⟩
  · exact .of_rb rfl
  · exact drainTurn_producerKept h
  · exact .of_rb (nandTurn_keeps_rb h)

/-- An operation of the command port, taken or ignored. -/
theorem exec_command_producerKept {i : Instr} (hc : i.format = .C) (h : exec i s = .next t) : ProducerKept s t := by
  have quiet {o : Out} (h : whenTaken s o = .next t) (ho : o = .next t → t.rb = s.rb) : ProducerKept s t := by
    rcases whenTaken_next h with h | rfl
    · exact .of_rb (ho h)
    · exact .of_rb rfl
  cases i with
  | push _ | syncH _ | syncT _ => cases hc
  | pop =>
    rcases whenTaken_next h with h | rfl
    · exact popOnce_producerKept h
    · exact .of_rb rfl
  | feed b => exact quiet h feedOnce_keeps_rb
  | drain | nop | nandReset | nandReadId => exact quiet h (by rintro ⟨⟩; rfl)
  | nandReadPage page =>
    refine quiet h fun h => ?_
    split at h <;> cases h
    rfl

/-! ### Requests, by who presents them -/

/-- Each agent owns one format (R234). -/
theorem format_eq_of_owner : ∀ {f g : Format}, f.owner = g.owner → f = g
  | .W, .W, _ | .C, .C, _ | .S, .S, _ => rfl

/-- A request that its format's owner presents is taken. -/
theorem owner_of_foreignRequest {f : Format} {who : Agent} (h : foreignRequest f who = none) : who = f.owner := by
  by_contra hne
  simp only [foreignRequest, if_neg hne] at h
  split at h <;> cases h

theorem execRequest_next {r : Request} (h : execRequest r s = .next t) :
    t = s ∨ ∃ i, decode s.cfg r = .ok i ∧ exec i s = .next t := by
  rw [execRequest] at h
  split at h
  · next i hd => exact .inr ⟨i, hd, h⟩
  · exact .inl (by cases h; rfl)
  · rcases whenTaken_next h with h | rfl
    · cases h
    · exact .inl rfl

/-- A request that answers a next state changed nothing, was an edge of C's operation, or ran its owner's operation. -/
theorem takeRequest_next {who : Agent} {r : Request} (h : takeRequest who r s = .next t) :
    t = s ∨ (who = .consumer ∧ consumerTurn s = .next t) ∨ ∃ i : Instr, who = i.format.owner ∧ exec i s = .next t := by
  rw [takeRequest] at h
  split at h
  · exact .inl (by cases h; rfl)
  · split at h
    · cases h
    · next hforeign =>
      obtain rfl := owner_of_foreignRequest hforeign
      have hrun (h : execRequest r s = .next t) :
          t = s ∨ ∃ i : Instr, r.format.owner = i.format.owner ∧ exec i s = .next t :=
        (execRequest_next h).imp_right fun ⟨i, hd, hexec⟩ => ⟨i, by rw [format_of_decode hd], hexec⟩
      split at h
      · next hf =>
        rw [commandEdge] at h
        split at h
        · exact .inr (.inl ⟨by rw [hf]; rfl, h⟩)
        · exact (hrun h).imp_right .inr
      · exact (hrun h).imp_right .inr

/-- What a PUSH leaves alone (40_ringbuffer.md R124): all but the slot at `head`, `head`, the pulse, and `head_c` with exact
views. -/
structure PushFrame (b : Byte) (s t : State) : Prop where
  cfg      : t.cfg = s.cfg
  part     : t.consumerPart = s.consumerPart
  env      : t.env = s.env
  tailP    : t.rb.tailP = s.rb.tailP
  headC    : s.cfg.syncLag = .free → t.rb.headC = s.rb.headC
  other    : ∀ a, a ≠ s.rb.head → t.rb.mem.read a = s.rb.mem.read a
  full     : s.fullP = true → t.rb.head = s.rb.head ∧ t.rb.headC = s.rb.headC ∧ t.rb.mem = s.rb.mem
  accepted : s.fullP = false → t.rb.mem.read s.rb.head = some b

theorem exec_push_frame {b : Byte} (h : exec (.push b) s = .next t) : PushFrame b s t := by
  cases hf : s.fullP with
  | true =>
    rw [exec_push_full b hf] at h
    cases h
    exact ⟨rfl, overflow_consumerPart b s, rfl, rfl, fun _ => rfl, fun _ _ => rfl, fun _ => ⟨rfl, rfl, rfl⟩,
      fun hroom => absurd hf (by simp [hroom])⟩
  | false =>
    rw [exec_push_room b hf] at h
    cases h
    exact ⟨rfl, acceptPush_consumerPart b s, rfl, rfl, fun hfree => by simp [hfree],
      fun a ha => read_write_other s.rb.mem b ha, fun hfull => absurd hf (by simp [hfull]),
      fun _ => read_write_same s.rb.mem s.rb.head b⟩

/-- Settles O13: one frame for the two arms (`exec_push_frame`). -/
theorem pushChangesOnlyItsSlotAndHead : Obligations.PushChangesOnlyItsSlotAndHead := by
  intro b s t h
  obtain ⟨hcfg, hpart, henv, htailP, hview, hother, hfull, haccepted⟩ := exec_push_frame h
  obtain ⟨hcons, hns, hlf, htail, hvalid, hdata⟩ := consumerPart_eq_iff.1 hpart
  refine ⟨hcfg, hlf, hns, hcons, henv, htail, htailP, hvalid, hdata, hview, hother, fun hf => ?_, haccepted⟩
  obtain ⟨hhead, hheadC, hmem⟩ := hfull hf
  exact ⟨hhead, hheadC, fun a => congrArg (·.read a) hmem⟩

/-- What a SYNC step leaves alone: everything but the two views. -/
theorem exec_sync_frame {i : Instr} (hs : i.format = .S) (h : exec i s = .next t) :
    t = { s with rb := { s.rb with headC := t.rb.headC, tailP := t.rb.tailP } } := by
  cases i with
  | push _ | pop | feed _ | drain | nop | nandReset | nandReadId | nandReadPage _ => cases hs
  | syncH k | syncT k =>
    cases h
    split <;> rfl

/-- Settles O52: a request runs an operation of the agent that presents it, or C's own next step (`takeRequest_next`), and
each agent's operations have their frame. -/
theorem agentsWriteOnlyTheirOwnState : Obligations.AgentsWriteOnlyTheirOwnState := by
  refine ⟨fun s t who r rest hin h => ?_, fun s t h => ?_⟩
  · rw [step_of_request hin] at h
    refine ⟨?_, ?_, ?_, ?_⟩
    · rintro rfl
      rcases takeRequest_next h with rfl | ⟨hwho, _⟩ | ⟨i, hown, h⟩
      · exact ⟨rfl, rfl, rfl, rfl, fun _ => rfl, rfl, rfl, rfl⟩
      · cases hwho
      · cases i with
        | push b =>
          obtain ⟨-, hpart, -, htailP, hview, -⟩ := exec_push_frame h
          obtain ⟨hcons, hns, hlf, htail, hvalid, hdata⟩ := consumerPart_eq_iff.1 hpart
          exact ⟨htail, htailP, hvalid, hdata, hview, hlf, hns, hcons⟩
        | pop | feed _ | drain | nop | nandReset | nandReadId | nandReadPage _ | syncH _ | syncT _ => cases hown
    · rintro rfl
      have hkept : ProducerKept (s.taking rest) t := by
        rcases takeRequest_next h with rfl | ⟨_, h⟩ | ⟨i, hown, h⟩
        · exact .of_rb rfl
        · exact consumerTurn_producerKept h
        · exact exec_command_producerKept (format_eq_of_owner hown.symm) h
      obtain ⟨hhead, hmem, hview, -, htail⟩ := hkept
      exact ⟨hhead, hmem, hview, htail⟩
    · rintro rfl
      rcases takeRequest_next h with rfl | ⟨hwho, _⟩ | ⟨i, hown, h⟩
      · exact ⟨rfl, rfl, rfl, rfl, rfl⟩
      · cases hwho
      · have hframe := exec_sync_frame (s := s.taking rest) (format_eq_of_owner hown.symm) h
        rw [hframe]
        exact ⟨rfl, rfl, rfl, rfl, rfl⟩
    · intro hwho
      rcases takeRequest_next h with rfl | ⟨rfl, _⟩ | ⟨i, rfl, h⟩
      · rfl
      · simp at hwho
      · cases i <;> simp [Instr.format, Format.owner] at hwho
  · obtain ⟨hhead, hmem, hview, hw, htail⟩ := consumerTurn_producerKept h
    exact ⟨hhead, hmem, hview, hw, htail⟩

/-- Settles O16: what C leaves of RB, and that POP is no step of LF or NS. -/
theorem popChangesOnlyTailAndResult : Obligations.PopChangesOnlyTailAndResult := by
  intro s t h
  obtain ⟨hhead, hmem, hview, hw, htail⟩ := exec_command_producerKept rfl h
  rcases whenTaken_next h with hpop | rfl
  · obtain ⟨hns, hcons⟩ := popOnce_keeps_ns_cons hpop
    refine ⟨popOnce_keeps_cfg hpop, popOnce_keeps_lf hpop, hns, hcons, ?_⟩
    rcases popOnce_next hpop with ⟨_, rfl⟩ | ⟨hne, b, _, rfl⟩
    · exact ⟨rfl, rfl, rfl, fun _ => rfl, hhead, hview, hw, htail, fun _ => ⟨rfl, rfl⟩⟩
    · exact ⟨rfl, rfl, rfl, fun _ => rfl, hhead, hview, hw, htail, fun hempty => absurd (emptyC_iff.1 hempty) hne⟩
  · exact ⟨rfl, rfl, rfl, rfl, rfl, rfl, rfl, fun _ => rfl, rfl, rfl, rfl, fun _ => rfl, fun _ => ⟨rfl, rfl⟩⟩

end Sys2Proof.Machine
end

/-! ## The views, the order of a PUSH and a POP, and exact views (10_state.md R25 to R27; 20_memory.md R75, R83) -/

section
namespace Sys2Proof.Machine

variable {s t u : State} {b c : Byte} {i j : Instr}

/-! ### SYNC steps -/

/-- Settles O21: a distance of the ring order grows or shrinks by `k`, and the order bounds it. -/
theorem syncAdvancesTheViewAndNeverLeads : Obligations.SyncAdvancesTheViewAndNeverLeads := by
  rintro s k ⟨-, hi, -⟩
  have hn := rbN_pos s.cfg
  have hcount := hi.count_eq
  have hcountP := hi.countP_eq
  obtain ⟨hh, ht, hc, hp, hsum, -⟩ := hi
  refine ⟨fun t he h => ?_, fun t he h => ?_⟩
  · obtain ⟨-, -, hk⟩ := syncHEnabled_iff.1 he
    rw [exec_syncH_enabled he] at h
    cases h
    have hview : ringDist s.cfg.rbN s.rb.tail ((s.rb.headC + k) % s.cfg.rbN) = s.countC + k :=
      ringDist_add_right ht hc (by omega)
    refine ⟨hview, ?_, rfl, rfl⟩
    calc ringDist s.cfg.rbN s.rb.tail ((s.rb.headC + k) % s.cfg.rbN)
        _ = s.countC + k := hview
        _ ≤ s.count := by rw [hcount, State.countC]; omega
  · obtain ⟨-, -, hk⟩ := syncTEnabled_iff.1 he
    rw [exec_syncT_enabled he] at h
    cases h
    have hview : ringDist s.cfg.rbN ((s.rb.tailP + k) % s.cfg.rbN) s.rb.head = s.countP - k :=
      ringDist_advance hp hh (by rw [State.countP] at hcountP; omega)
    refine ⟨?_, ?_, rfl, rfl⟩
    · calc ringDist s.cfg.rbN ((s.rb.tailP + k) % s.cfg.rbN) s.rb.head + k
          _ = s.countP - k + k := by rw [hview]
          _ = s.countP := by omega
    · calc s.count
          _ ≤ s.countP - k := by omega
          _ = ringDist s.cfg.rbN ((s.rb.tailP + k) % s.cfg.rbN) s.rb.head := hview.symm

/-! ### PUSH and POP in either order -/

theorem execAll_pair (h : exec i s = .next t) (h' : exec j t = .next u) : execAll [i, j] s = .next u := by
  rw [execAll, h, andThen_next, execAll, h', andThen_next, execAll]

/-- Where POP's test finds a byte, the slot that PUSH writes is not the one that POP reads. -/
theorem RingInv.tail_ne_head (hi : RingInv s) (hne : s.rb.headC ≠ s.rb.tail) : s.rb.tail ≠ s.rb.head := by
  have hseen := hi.visible_pos hne
  have hcount := hi.count_eq
  intro e
  have hzero : s.count = 0 := by rw [State.count, e, ringDist_rbN_self]
  omega

/-- Settles O24: with lagging views neither operation changes what the other one tests or reads, so in each of the four
combinations of their arms the two orders meet. -/
theorem pushAndPopCommute : Obligations.PushAndPopCommute := by
  rintro b s ⟨-, hi, -⟩ hr hfree
  by_cases hempty : s.rb.headC = s.rb.tail
  · cases hf : s.fullP with
    | true =>
      exact ⟨_, _, .overflow b, .popEmpty,
        execAll_pair (exec_push_full b hf) ((exec_pop_ready (s := enterError (.overflow b) s) hr).trans (popOnce_empty hempty)),
        execAll_pair ((exec_pop_ready hr).trans (popOnce_empty hempty)) (exec_push_full (s := popNone s) b hf),
        by simp, by simp, rfl⟩
    | false =>
      have hempty' : (acceptPush b s).rb.headC = (acceptPush b s).rb.tail := by simpa [hfree] using hempty
      exact ⟨_, _, .pushed b, .popEmpty,
        execAll_pair (exec_push_room b hf) ((exec_pop_ready (s := acceptPush b s) hr).trans (popOnce_empty hempty')),
        execAll_pair ((exec_pop_ready hr).trans (popOnce_empty hempty)) (exec_push_room (s := popNone s) b hf),
        by simp, by simp, rfl⟩
  · obtain ⟨c, hc⟩ := hi.tail_written hempty
    have hpop : exec .pop s = .next (popSome c s) := (exec_pop_ready hr).trans (popOnce_some hempty hc)
    have hfull : (popSome c s).fullP = s.fullP := by simp [State.fullP, hfree]
    cases hf : s.fullP with
    | true =>
      exact ⟨_, _, .overflow b, .popped c,
        execAll_pair (exec_push_full b hf)
          ((exec_pop_ready (s := enterError (.overflow b) s) hr).trans (popOnce_some hempty hc)),
        execAll_pair hpop (exec_push_full b (hfull.trans hf)), by simp, by simp, rfl⟩
    | false =>
      have hempty' : (acceptPush b s).rb.headC ≠ (acceptPush b s).rb.tail := by simpa [hfree] using hempty
      have hc' : (acceptPush b s).rb.mem.read (acceptPush b s).rb.tail = some c :=
        (read_write_other _ _ (hi.tail_ne_head hempty)).trans hc
      exact ⟨_, _, .pushed b, .popped c,
        execAll_pair (exec_push_room b hf) ((exec_pop_ready (s := acceptPush b s) hr).trans (popOnce_some hempty' hc')),
        execAll_pair hpop (exec_push_room b (hfull.trans hf)), by simp, by simp, rfl⟩

/-! ### The zero-lag block (R83) -/

/-- A full SYNC_H step, if there is a distance to go, brings `head_c` up to `head`. -/
theorem execAll_full_syncH (hfree : s.cfg.syncLag = .free) (hc : s.rb.headC < s.cfg.rbN) (hh : s.rb.head < s.cfg.rbN) :
    execAll (if s.rb.headC = s.rb.head then [] else [.syncH (ringDist s.cfg.rbN s.rb.headC s.rb.head)]) s =
      .next { s with rb := { s.rb with headC := s.rb.head } } := by
  split
  · next h => rw [execAll, ← h]
  · next h =>
    have hpos : 1 ≤ ringDist s.cfg.rbN s.rb.headC s.rb.head := Nat.pos_of_ne_zero fun z => h ((ringDist_eq_zero hc hh).1 z)
    rw [execAll, exec_syncH_enabled (syncHEnabled_iff.2 ⟨hfree, hpos, le_rfl⟩), andThen_next, execAll, add_ringDist_mod hc hh]

/-- A full SYNC_T step, if there is a distance to go, brings `tail_p` up to `tail`. -/
theorem execAll_full_syncT (hfree : s.cfg.syncLag = .free) (hp : s.rb.tailP < s.cfg.rbN) (ht : s.rb.tail < s.cfg.rbN) :
    execAll (if s.rb.tailP = s.rb.tail then [] else [.syncT (ringDist s.cfg.rbN s.rb.tailP s.rb.tail)]) s =
      .next { s with rb := { s.rb with tailP := s.rb.tail } } := by
  split
  · next h => rw [execAll, ← h]
  · next h =>
    have hpos : 1 ≤ ringDist s.cfg.rbN s.rb.tailP s.rb.tail := Nat.pos_of_ne_zero fun z => h ((ringDist_eq_zero hp ht).1 z)
    rw [execAll, exec_syncT_enabled (syncTEnabled_iff.2 ⟨hfree, hpos, le_rfl⟩), andThen_next, execAll, add_ringDist_mod hp ht]

theorem acceptPush_eq (b : Byte) (s : State) : acceptPush b s =
    { s with
      rb := { s.rb with
        mem := s.rb.mem.write s.rb.head b
        head := ringSucc s.cfg.rbN s.rb.head
        headC := if s.cfg.syncLag = .zero then ringSucc s.cfg.rbN s.rb.head else s.rb.headC
        wOvf := false }
      history := s.history ++ [.pushed b] } := rfl

/-- The block with lagging views in the same state. -/
def State.lagging (s : State) : State := { s with cfg := { s.cfg with syncLag := .free } }

/-- A PUSH of the zero-lag block is that of the lagging one with `head_c` then brought up to `head`. -/
theorem exec_push_lagging (b : Byte) (hzero : s.cfg.syncLag = .zero) (hview : s.rb.headC = s.rb.head)
    (h : exec (.push b) s = .next t) :
    ∃ u, exec (.push b) s.lagging = .next u ∧ u.cfg = s.lagging.cfg ∧ u.rb.headC = s.rb.headC ∧
      (u.rb.head = s.rb.head ∨ u.rb.head = ringSucc s.cfg.rbN s.rb.head) ∧
      t = { u with cfg := s.cfg, rb := { u.rb with headC := u.rb.head } } := by
  cases hf : s.fullP with
  | true =>
    rw [exec_push_full b hf] at h
    cases h
    refine ⟨_, exec_push_full (s := s.lagging) b hf, rfl, rfl, .inl rfl, ?_⟩
    simp only [enterError, State.raise, State.lagging, ← hview]
  | false =>
    rw [exec_push_room b hf] at h
    cases h
    refine ⟨_, exec_push_room (s := s.lagging) b hf, rfl, rfl, .inr rfl, ?_⟩
    rw [acceptPush_eq, if_pos hzero]
    rfl

/-- A POP of the zero-lag block is that of the lagging one with `tail_p` then brought up to `tail`. -/
theorem exec_pop_lagging (hzero : s.cfg.syncLag = .zero) (hview : s.rb.tailP = s.rb.tail) (h : exec .pop s = .next t) :
    ∃ u, exec .pop s.lagging = .next u ∧ u.cfg = s.lagging.cfg ∧ u.rb.tailP = s.rb.tailP ∧
      (u.rb.tail = s.rb.tail ∨ u.rb.tail = ringSucc s.cfg.rbN s.rb.tail) ∧
      t = { u with cfg := s.cfg, rb := { u.rb with tailP := u.rb.tail } } := by
  rcases whenTaken_cases s (popOnce s) with ⟨hr, e⟩ | ⟨hbusy, e⟩
  · rcases popOnce_next (e.symm.trans h) with ⟨hempty, rfl⟩ | ⟨hne, c, hc, rfl⟩
    · refine ⟨_, (exec_pop_ready (s := s.lagging) hr).trans (popOnce_empty hempty), rfl, rfl, .inl rfl, ?_⟩
      simp only [popNone, State.raise, State.spend, State.freeByte, State.lagging, ← hview]
    · refine ⟨_, (exec_pop_ready (s := s.lagging) hr).trans (popOnce_some hne hc), rfl, rfl, .inr rfl, ?_⟩
      simp only [popSome, State.publishTail, if_pos hzero]
      rfl
  · cases e.symm.trans h
    refine ⟨s.lagging, whenTaken_ignored (s := s.lagging) hbusy _, rfl, rfl, .inl rfl, ?_⟩
    have hself : s.rb = { s.rb with tailP := s.rb.tail } := by rw [← hview]
    exact congrArg (fun r => { s with rb := r }) hself

/-- Settles O25: the lagging operation leaves its view where it was, and the SYNC step closes the distance. -/
theorem zeroLagStepsAreLaggingStepsThenSync : Obligations.ZeroLagStepsAreLaggingStepsThenSync := by
  rintro b s ⟨-, ⟨hh, ht, hc, hp, -, -, hz⟩, -⟩ hzero
  obtain ⟨hviewH, hviewT⟩ := hz hzero
  have hsucc (a : Nat) : ringSucc s.cfg.rbN a < s.cfg.rbN := ringSucc_lt (rbN_pos _)
  refine ⟨fun t h => ?_, fun t h => ?_⟩
  · obtain ⟨u, hu, hcfg, hheadC, hhead, rfl⟩ := exec_push_lagging b hzero hviewH h
    have hn : u.cfg.rbN = s.cfg.rbN := by rw [hcfg]; rfl
    refine ⟨u, _, hu, execAll_full_syncH (by rw [hcfg]; rfl) (by rw [hheadC, hn]; exact hc) ?_, rfl⟩
    rcases hhead with e | e <;> rw [e, hn]
    · exact hh
    · exact hsucc _
  · obtain ⟨u, hu, hcfg, htailP, htail, rfl⟩ := exec_pop_lagging hzero hviewT h
    have hn : u.cfg.rbN = s.cfg.rbN := by rw [hcfg]; rfl
    refine ⟨u, _, hu, execAll_full_syncT (by rw [hcfg]; rfl) (by rw [htailP, hn]; exact hp) ?_, rfl⟩
    rcases htail with e | e <;> rw [e, hn]
    · exact ht
    · exact hsucc _

end Sys2Proof.Machine
end

/-! ## With nothing pending (00_scope.md R16; log 5) -/

section
namespace Sys2Proof.Machine

variable {s t u : State} {n : Nat}

theorem step_of_undisturbed (h : s.undisturbed) : step s = idleTurn s.lowerPulse := by
  obtain ⟨hin, hcyc⟩ := h
  simp [step, turn, State.upcoming, hin, hcyc]

/-- With nothing pending, an operation of C that can go on does. -/
theorem step_of_busy (h : s.undisturbed) (hb : s.cons.cBusy = true) (hh : s.cons.halted = false) :
    step s = consumerTurn s.lowerPulse := by
  have hg : s.lowerPulse.goesOn = true := by simp [State.goesOn, hb, hh]
  rw [step_of_undisturbed h, idleTurn, if_pos hg]

theorem stepN_succ (h : step s = .next t) : stepN (n + 1) s = stepN n t := by
  rw [stepN, h, andThen_next]

/-- How far the two views are behind together. -/
def State.lag (s : State) : Nat :=
  ringDist s.cfg.rbN s.rb.headC s.rb.head + ringDist s.cfg.rbN s.rb.tailP s.rb.tail

/-- `t` is `s` with its views brought nearer, the pulse ended, and free values drawn. -/
def ViewsMoved (s t : State) : Prop :=
  t = { s with
    rb := { s.rb with headC := t.rb.headC, tailP := t.rb.tailP, wOvf := false }
    env := { s.env with freeCount := t.env.freeCount } }

/-- While a view lags and C is at rest, a step with nothing pending brings it nearer and moves nothing else but the pulse. -/
theorem step_of_lagging (hi : RingInv s) (hu : s.undisturbed) (hrest : s.cons.cBusy = false ∨ s.cons.halted = true)
    (hlag : 0 < s.lag) : ∃ t, step s = .next t ∧ t.lag < s.lag ∧ ViewsMoved s t := by
  obtain ⟨hh, ht, hc, hp, -, -, hz⟩ := hi
  have hfree : s.cfg.syncLag = .free := by
    cases hl : s.cfg.syncLag with
    | free => rfl
    | zero =>
      obtain ⟨hviewH, hviewT⟩ := hz hl
      simp [State.lag, hviewH, hviewT] at hlag
  have hg : s.lowerPulse.goesOn = false := goesOn_of_ready (s := s.lowerPulse) hrest
  rw [step_of_undisturbed hu, idleTurn, if_neg (by simp [hg])]
  by_cases hH : syncHEnabled 1 s.lowerPulse = true
  · obtain ⟨-, -, hd⟩ := syncHEnabled_iff.1 hH
    obtain ⟨h1, h2⟩ := freeAdvance_bounds hd s.lowerPulse
    rw [if_pos hH]
    refine ⟨_, exec_syncH_enabled (s := s.lowerPulse.spend 1) (syncHEnabled_iff.2 ⟨hfree, h1, h2⟩), ?_, rfl⟩
    have hnear := ringDist_advance hc hh h2
    simp only [State.lag, spend_rb, spend_cfg, lowerPulse_cfg, lowerPulse_headC, lowerPulse_head, lowerPulse_tailP,
      lowerPulse_tail] at h1 h2 hnear ⊢
    omega
  · have hH0 : ringDist s.cfg.rbN s.rb.headC s.rb.head = 0 := by
      by_contra hne
      exact hH (syncHEnabled_iff.2 ⟨hfree, le_rfl, Nat.pos_of_ne_zero hne⟩)
    have hd : 1 ≤ ringDist s.cfg.rbN s.rb.tailP s.rb.tail := by rw [State.lag, hH0] at hlag; omega
    have hT : syncTEnabled 1 s.lowerPulse = true := syncTEnabled_iff.2 ⟨hfree, le_rfl, hd⟩
    obtain ⟨h1, h2⟩ := freeAdvance_bounds hd s.lowerPulse
    rw [if_neg hH, if_pos hT]
    refine ⟨_, exec_syncT_enabled (s := s.lowerPulse.spend 1) (syncTEnabled_iff.2 ⟨hfree, h1, h2⟩), ?_, rfl⟩
    have hnear := ringDist_advance hp ht h2
    simp only [State.lag, spend_rb, spend_cfg, lowerPulse_cfg, lowerPulse_headC, lowerPulse_head, lowerPulse_tailP,
      lowerPulse_tail] at h1 h2 hnear ⊢
    omega

/-- No lag is left exactly when both views have reached their indices. -/
theorem RingInv.views_of_lag_zero (hi : RingInv s) (h : s.lag = 0) : s.rb.headC = s.rb.head ∧ s.rb.tailP = s.rb.tail := by
  obtain ⟨hh, ht, hc, hp, -⟩ := hi
  obtain ⟨hH, hT⟩ := Nat.add_eq_zero_iff.1 h
  exact ⟨(ringDist_eq_zero hc hh).1 hH, (ringDist_eq_zero hp ht).1 hT⟩

/-- In at most as many steps as the views lag they reach their indices. -/
theorem views_reached (hi : RingInv s) (hu : s.undisturbed) (hrest : s.cons.cBusy = false ∨ s.cons.halted = true) :
    ∃ n t, n ≤ s.lag ∧ stepN n s = .next t ∧
      t = { s with
        rb := { s.rb with headC := s.rb.head, tailP := s.rb.tail, wOvf := t.rb.wOvf }
        env := { s.env with freeCount := t.env.freeCount } } ∧
      (t.rb.wOvf = true → s.rb.wOvf = true) := by
  induction hm : s.lag using Nat.strongRecOn generalizing s with
  | ind m ih =>
    rcases Nat.eq_zero_or_pos s.lag with h0 | hpos
    · obtain ⟨hviewH, hviewT⟩ := hi.views_of_lag_zero h0
      exact ⟨0, s, Nat.zero_le _, rfl, by rw [← hviewH, ← hviewT], id⟩
    · obtain ⟨s₁, hstep, hless, hmoved⟩ := step_of_lagging hi hu hrest hpos
      have hi₁ : RingInv s₁ := step_keeps_ringInv hi hstep
      rw [hmoved] at hi₁ hless
      obtain ⟨n, t, hn, hrun, ht, hw⟩ := ih _ (hm ▸ hless) hi₁ hu hrest rfl
      rw [← hmoved] at hrun
      exact ⟨n + 1, t, by omega, (stepN_succ hstep).trans hrun, ht, fun h => absurd (hw h) Bool.false_ne_true⟩

/-- Settles O59: each step brings a lagging view nearer, and together they lag by less than the ring has slots. -/
theorem idleStepsBringTheViewsUpToDate : Obligations.IdleStepsBringTheViewsUpToDate := by
  rintro s ⟨-, hi, -⟩ hu hrest
  obtain ⟨n, t, hn, hrun, ht, hw⟩ := views_reached hi hu hrest
  obtain ⟨-, -, -, -, hsum, -⟩ := hi
  exact ⟨n, t, by rw [State.lag] at hn; omega, hrun, ht, hw⟩

end Sys2Proof.Machine
end

/-! ## FEED's frame and the capacity flush (41_lineframer.md R142, R144, R153) -/

section
namespace Sys2Proof.Machine

variable {s t : State} {b : Byte}

theorem one_le_lineCap {c : Config} (hc : c.wf = true) : 1 ≤ c.lineCap := by
  simp only [Config.wf, Config.lineOk, Bool.and_eq_true, decide_eq_true_eq] at hc
  omega

/-- Settles O32: `LineInv` makes the flush's bytes readable, and the three arms of FEED have one frame. -/
theorem feedCompletesAndTouchesOnlyTheLine : Obligations.FeedCompletesAndTouchesOnlyTheLine := by
  rintro b s ⟨-, -, hline, -⟩ hr
  obtain ⟨t, ht⟩ := feedOnce_completes hline b
  refine ⟨t, (exec_feed_ready b hr).trans ht, ?_⟩
  have hother (a : Nat) (ha : a ≠ s.lf.idx) : (s.lf.line.write s.lf.idx b).read a = s.lf.line.read a :=
    read_write_other s.lf.line b ha
  have hsame := read_write_same s.lf.line s.lf.idx b
  rcases feedOnce_next ht with ⟨hd, x, _, rfl⟩ | ⟨hd, _, rfl⟩ | ⟨hd, _, x, _, rfl⟩
  · exact ⟨rfl, rfl, rfl, rfl, rfl, fun _ _ => rfl, fun _ => rfl, fun hne => absurd hd hne⟩
  · exact ⟨rfl, rfl, rfl, rfl, rfl, hother, fun he => absurd he hd, fun _ => hsame⟩
  · exact ⟨rfl, rfl, rfl, rfl, rfl, hother, fun he => absurd he hd, fun _ => hsame⟩

theorem writeAll_concat (m : Memory) (a : Nat) (bs : List Byte) (b : Byte) :
    m.writeAll a (bs ++ [b]) = (m.writeAll a bs).write (a + bs.length) b := by
  induction bs generalizing m a with
  | nil => rfl
  | cons x xs ih =>
    rw [List.cons_append, Memory.writeAll, ih, Memory.writeAll, List.length_cons, Nat.add_right_comm, Nat.add_assoc]

/-- As many bytes as the line holds, none of them a delimiter, are flushed whole by the last of them. -/
theorem execAll_feed_fill {bs : List Byte} (hr : s.ready) (h0 : s.lf.idx = 0) (hd : ∀ x ∈ bs ++ [b], x ≠ s.cfg.delim)
    (hcap : (bs ++ [b]).length = s.cfg.lineCap) :
    execAll ((bs ++ [b]).map .feed) s = .next (flushed (bs ++ [b]) (storeLine b (storeBytes bs s))) := by
  obtain ⟨hbs, hb⟩ := List.forall_mem_append.1 hd
  have hlen : bs.length + 1 = s.cfg.lineCap := by rwa [List.length_append, List.length_singleton] at hcap
  have hroom := execAll_feed_room hr hbs (by omega)
  have hslice : ((storeBytes bs s).lf.line.write (storeBytes bs s).lf.idx b).slice 0 (storeBytes bs s).cfg.lineCap =
      .ok (bs ++ [b]) := by
    rw [storeBytes_line, storeBytes_idx, storeBytes_cfg, h0, ← writeAll_concat, ← hcap, slice_writeAll]
  have hfill : exec (.feed b) (storeBytes bs s) = .next (flushed (bs ++ [b]) (storeLine b (storeBytes bs s))) :=
    (exec_feed_ready b (s := storeBytes bs s) hr).trans
      (feedOnce_fill (hb b List.mem_cons_self) (by rw [storeBytes_idx, storeBytes_cfg]; omega) hslice)
  rw [List.map_append, execAll_append, hroom, andThen_next, List.map_singleton, execAll, hfill, andThen_next, execAll]

/-- An empty line is valid text, and there is nothing to trim. -/
theorem lineEvent_nil (c : Config) : lineEvent c [] = .lineOut [] := rfl

/-- Settles O34: up to the capacity nothing is flushed, at the capacity everything is, and the delimiter then finds an empty
line. -/
theorem capacityFlushCutsTheLine : Obligations.CapacityFlushCutsTheLine := by
  rintro s bs ⟨hc, -⟩ hr h0 hd
  refine ⟨fun hlt => ?_, fun hcap => ?_⟩
  · exact ⟨_, execAll_feed_room hr hd (by omega), by rw [storeBytes_idx, h0, Nat.zero_add], rfl⟩
  · have hpos := one_le_lineCap hc
    obtain ⟨init, b, rfl⟩ : ∃ init b, bs = init ++ [b] :=
      ⟨_, _, (List.dropLast_concat_getLast (List.ne_nil_of_length_pos (by omega))).symm⟩
    have hflush : exec (.feed s.cfg.delim) (flushed (init ++ [b]) (storeLine b (storeBytes init s))) = _ :=
      (exec_feed_ready _ (s := flushed (init ++ [b]) (storeLine b (storeBytes init s))) hr).trans (feedOnce_delim rfl rfl)
    exact ⟨_, _, execAll_feed_fill hr h0 hd hcap, rfl, rfl, hflush, congrArg _ (congrArg (fun e => [e]) (lineEvent_nil _))⟩

end Sys2Proof.Machine
end

/-! ## An undisturbed DRAIN (41_lineframer.md R148, R149)

Each visible byte is one round of four steps: POP, the test, FEED, and back to POP; the last POP finds the ring empty. -/

section
namespace Sys2Proof.Machine

variable {s t u r : State} {b : Byte} {bs : List Byte}

/-! ### Many steps -/

theorem stepN_add (m n : Nat) (s : State) : stepN (m + n) s = andThen (stepN m s) (stepN n) := by
  induction m generalizing s with
  | zero => rw [Nat.zero_add, stepN, andThen_next]
  | succ m ih =>
    rw [Nat.succ_add, stepN, stepN]
    cases step s with
    | next t => exact ih t
    | fault f | refused f => rfl

theorem stepN_keeps_inv {n : Nat} (hi : s.Inv) (h : stepN n s = .next t) : t.Inv := by
  induction n generalizing s with
  | zero => cases h; exact hi
  | succ n ih =>
    obtain ⟨u, hu, ht⟩ := andThen_eq_next.1 h
    exact ih (stepKeepsInvariant s u hi hu) ht

/-! ### What FEED does, wherever the line is the same -/

/-- FEED's effect depends on the parameters and on LF alone: the same line and the same events. -/
theorem feedOnce_transfer (h : feedOnce b s = .next t) : ∃ es : List Event,
    t = { s with lf := t.lf, history := s.history ++ es } ∧ pushedBytes es = [] ∧ poppedBytes es = [] ∧
    ∀ r : State, r.cfg = s.cfg → r.lf = s.lf → feedOnce b r = .next { r with lf := t.lf, history := r.history ++ es } := by
  have single (c : Config) (x : List Byte) : pushedBytes [lineEvent c x] = [] ∧ poppedBytes [lineEvent c x] = [] :=
    lineEvent_offQueue c x
  rcases feedOnce_next h with ⟨hd, x, hx, rfl⟩ | ⟨hd, hcap, rfl⟩ | ⟨hd, hcap, x, hx, rfl⟩
  · refine ⟨[lineEvent s.cfg x], rfl, (single _ x).1, (single _ x).2, fun r hc hl => ?_⟩
    rw [feedOnce_delim (hc ▸ hd) (hl ▸ hx), flushed, hc, hl]
    rfl
  · refine ⟨[], by rw [List.append_nil]; rfl, rfl, rfl, fun r hc hl => ?_⟩
    rw [feedOnce_room (hc ▸ hd) (by rwa [hc, hl]), List.append_nil, storeLine, memWrite, State.bank, hl]
    rfl
  · refine ⟨[lineEvent s.cfg x], rfl, (single _ x).1, (single _ x).2, fun r hc hl => ?_⟩
    rw [feedOnce_fill (text := x) (hc ▸ hd) (by rwa [hc, hl]) (by rw [hc, hl, ← hcap, hx]), flushed, storeLine_cfg, hc,
      storeLine, memWrite, State.bank, hl]
    rfl

/-! ### The visible bytes -/

/-- Where no byte is visible POP's test finds the ring empty. -/
theorem RingInv.empty_of_visible_nil (hi : RingInv s) (hv : s.visible []) : s.rb.headC = s.rb.tail := by
  by_contra hne
  have hseen := hi.visible_pos hne
  obtain ⟨b, hb⟩ := hi.tail_written hne
  rw [State.visible, hi.content_eq_cons hne hb, State.countC] at hv
  simp [List.take_eq_nil_iff] at hv
  omega

/-- The first visible byte is the one POP takes, and the others stay visible. -/
theorem RingInv.pop_visible (hi : RingInv s) (hv : s.visible (b :: bs)) :
    s.rb.headC ≠ s.rb.tail ∧ s.rb.mem.read s.rb.tail = some b ∧ (popSome b s).visible bs := by
  have hne : s.rb.headC ≠ s.rb.tail := by
    intro e
    rw [State.visible, State.countC, e, ringDist_rbN_self] at hv
    simp at hv
  obtain ⟨c, hc⟩ := hi.tail_written hne
  have hseen := hi.visible_pos hne
  have hcons := hi.content_eq_cons hne hc
  obtain ⟨-, ht, hview, -⟩ := hi
  have hcount : s.countC = (popSome c s).countC + 1 := by
    have hadvance : (popSome c s).countC = s.countC - 1 := ringDist_advance ht hview hseen
    have hpos : 0 < s.countC := hseen
    omega
  rw [State.visible, hcons, hcount, List.take_succ_cons, List.map_cons, List.cons.injEq, Option.some.injEq] at hv
  obtain ⟨rfl, hrest⟩ := hv
  exact ⟨hne, hc, hrest⟩

/-! ### One round -/

/-- In a good state a ready consumer is at rest. -/
theorem cons_of_ready (hi : s.Inv) (hr : s.ready) : s.cons = { cBusy := false, halted := false, seq := .idle } := by
  obtain ⟨-, -, -, hnand, -⟩ := hi
  have hidle := hnand.placeInv.seq_of_ready hr
  obtain ⟨hbusy, hhalted⟩ := hr
  calc s.cons
      _ = ⟨s.cons.cBusy, s.cons.halted, s.cons.seq⟩ := rfl
      _ = ⟨false, false, .idle⟩ := by rw [hbusy, hhalted, hidle]

/-- C is inside DRAIN at `q`, and no other agent will move. -/
structure DrainAlone (q : DrainAt) (s : State) : Prop where
  cons : s.cons = { cBusy := true, halted := false, seq := .drain q }
  alone : s.undisturbed

theorem DrainAlone.step {q : DrainAt} (h : DrainAlone q s) : step s = drainTurn q s.lowerPulse := by
  obtain ⟨hcons, halone⟩ := h
  rw [step_of_busy halone (by rw [hcons]) (by rw [hcons])]
  exact consumerTurn_drain (s := s.lowerPulse) (by rw [lowerPulse_cons, hcons]) (by rw [lowerPulse_cons, hcons])

/-- `s` with `b` popped inside DRAIN, which goes on at `q`. -/
def afterPop (b : Byte) (q : DrainAt) (s : State) : State :=
  { s with
    rb := { (popSome b s).rb with wOvf := false }
    cons := { s.cons with seq := .drain q }
    history := s.history ++ [.popped b] }

/-- `s` with `b` popped and fed inside DRAIN, which goes on at `q`: `f` is the line framer and `es` what FEED records. -/
def afterByte (b : Byte) (f : Framer) (es : List Event) (q : DrainAt) (s : State) : State :=
  { s with
    rb := { (popSome b s).rb with wOvf := false }
    lf := f
    cons := { s.cons with seq := .drain q }
    history := s.history ++ [.popped b] ++ es }

theorem drain_round (hd : DrainAlone .pop s) (hline : LineInv s) (hne : s.rb.headC ≠ s.rb.tail)
    (hb : s.rb.mem.read s.rb.tail = some b) : ∃ f es, stepN 4 s = .next (afterByte b f es .pop s) ∧
      pushedBytes es = [] ∧ poppedBytes es = [] ∧
      ∀ r : State, r.cfg = s.cfg → r.lf = s.lf → feedOnce b r = .next { r with lf := f, history := r.history ++ es } := by
  have hcons (q : DrainAt) : { s.cons with seq := .drain q } = { cBusy := true, halted := false, seq := .drain q } := by
    rw [hd.cons]
  have hpop : step s = .next (afterPop b (.test (some b)) s) :=
    hd.step.trans (drainTurn_pop (popOnce_some (s := s.lowerPulse) hne hb))
  have htest : step (afterPop b (.test (some b)) s) = .next (afterPop b (.feed b) s) :=
    DrainAlone.step (s := afterPop b _ s) ⟨hcons _, hd.alone⟩
  have hloaded : DrainAlone (.feed b) (afterPop b (.feed b) s) := ⟨hcons _, hd.alone⟩
  obtain ⟨v, hv⟩ := feedOnce_completes (s := (afterPop b (.feed b) s).lowerPulse) hline b
  obtain ⟨es, hform, hpushed, hpopped, hfeed⟩ := feedOnce_transfer hv
  have hfed : step (afterPop b (.feed b) s) = .next (afterByte b v.lf es .again s) :=
    (hloaded.step.trans (drainTurn_feed hv)).trans (congrArg (fun w => Host.Outcome.next (State.goto (.drain .again) w)) hform)
  have hagain : step (afterByte b v.lf es .again s) = .next (afterByte b v.lf es .pop s) :=
    DrainAlone.step (s := afterByte b _ _ _ s) ⟨hcons _, hd.alone⟩
  refine ⟨v.lf, es, ?_, hpushed, hpopped, hfeed⟩
  rw [stepN_succ hpop, stepN_succ htest, stepN_succ hfed, stepN_succ hagain, stepN]

/-- The last POP finds the ring empty, and the test ends the operation. -/
theorem drain_end (hd : DrainAlone .pop s) (hempty : s.rb.headC = s.rb.tail) :
    stepN 2 s = .next (popNone s.lowerPulse).lowerPulse.finish := by
  have hcons {q : DrainAt} : { s.cons with seq := .drain q } = { cBusy := true, halted := false, seq := .drain q } := by
    rw [hd.cons]
  have hpop : step s = .next ((popNone s.lowerPulse).goto (.drain (.test none))) :=
    hd.step.trans (drainTurn_pop (popOnce_empty hempty))
  have htest : step ((popNone s.lowerPulse).goto (.drain (.test none))) = .next (popNone s.lowerPulse).lowerPulse.finish :=
    DrainAlone.step (s := (popNone s.lowerPulse).goto (.drain (.test none))) ⟨hcons, hd.alone⟩
  rw [stepN_succ hpop, stepN_succ htest, stepN]

/-! ### Every round -/

@[simp] theorem emittedLines_append (h l : List Event) : emittedLines (h ++ l) = emittedLines h ++ emittedLines l :=
  List.filterMap_append ..

/-- `t` is where DRAIN ends that began at `s` with `bs` visible, and `u` where feeding those bytes to `r` ends. -/
structure Drained (bs : List Byte) (s r t u : State) : Prop where
  cons   : t.cons = { s.cons with cBusy := false, seq := .idle }
  ns     : t.ns = s.ns
  lf     : t.lf = u.lf
  lines  : ∃ l, emittedLines t.history = emittedLines s.history ++ l ∧ emittedLines u.history = emittedLines r.history ++ l
  popped : poppedBytes t.history = poppedBytes s.history ++ bs
  pushed : pushedBytes t.history = pushedBytes s.history
  tail   : t.rb.tail = s.rb.headC
  head   : t.rb.head = s.rb.head
  mem    : t.rb.mem = s.rb.mem
  rValid : t.rb.rValid = false

/-- One more byte in front. -/
theorem Drained.cons_byte {f : Framer} {es : List Event} (hpushed : pushedBytes es = []) (hpopped : poppedBytes es = [])
    (h : Drained bs (afterByte b f es .pop s) { r with lf := f, history := r.history ++ es } t u) :
    Drained (b :: bs) s r t u := by
  obtain ⟨hcons, hns, hlf, ⟨l, hlt, hlu⟩, hpop, hpush, htail, hhead, hmem, hvalid⟩ := h
  have hnone : emittedLines [.popped b] = [] := rfl
  refine ⟨hcons, hns, hlf, ⟨emittedLines es ++ l, ?_, ?_⟩, ?_, ?_, htail, hhead, hmem, hvalid⟩
  · simpa only [afterByte, emittedLines_append, hnone, List.append_nil, List.append_assoc, List.nil_append] using hlt
  · simpa only [emittedLines_append, List.append_assoc] using hlu
  · simp only [afterByte, poppedBytes_append, hpopped, poppedBytes_popped, List.append_nil, List.append_assoc] at hpop
    exact hpop
  · simpa only [afterByte, pushedBytes_append, hpushed, pushedBytes_popped, List.append_nil] using hpush

/-- From `pop` on, four steps a visible byte and two more. -/
theorem drain_visible (hi : s.Inv) (hd : DrainAlone .pop s) (hv : s.visible bs) (hr : r.ready) (hc : r.cfg = s.cfg)
    (hl : r.lf = s.lf) :
    ∃ t u, stepN (4 * bs.length + 2) s = .next t ∧ execAll (bs.map .feed) r = .next u ∧ Drained bs s r t u := by
  obtain ⟨-, hring, hline, -⟩ := id hi
  induction bs generalizing s r with
  | nil =>
    have hempty := hring.empty_of_visible_nil hv
    have hnone : emittedLines [.popEmpty] = [] := rfl
    have hoff : Event.popEmpty.offQueue := ⟨rfl, rfl⟩
    refine ⟨(popNone s.lowerPulse).lowerPulse.finish, r, drain_end hd hempty, rfl, ⟨rfl, rfl, hl.symm, ⟨[], ?_, ?_⟩, ?_, ?_, hempty.symm, rfl, rfl, rfl⟩⟩
    · simp [hnone]
    · simp
    · simpa using hoff.poppedBytes_append s.history
    · simpa using hoff.pushedBytes_append s.history
  | cons b bs ih =>
    obtain ⟨hne, hb, hrest⟩ := hring.pop_visible hv
    obtain ⟨f, es, hround, hpushed, hpopped, hfeed⟩ := drain_round hd hline hne hb
    have hi' := stepN_keeps_inv hi hround
    have hcons : (afterByte b f es .pop s).cons = { cBusy := true, halted := false, seq := .drain .pop } := by
      rw [afterByte, hd.cons]
    obtain ⟨-, hring', hline', -⟩ := id hi'
    obtain ⟨t, u, ht, hu, hdone⟩ := ih (s := afterByte b f es .pop s) (r := { r with lf := f, history := r.history ++ es })
      hi' ⟨hcons, hd.alone⟩ hrest hr hc rfl hring' hline'
    refine ⟨t, u, ?_, ?_, hdone.cons_byte hpushed hpopped⟩
    · rw [List.length_cons, show 4 * (bs.length + 1) + 2 = 4 + (4 * bs.length + 2) by omega, stepN_add, hround, andThen_next,
        ht]
    · rw [List.map_cons, execAll, exec_feed_ready b hr, hfeed r hc hl, andThen_next, hu]

/-- Settles O37: the request begins DRAIN at `pop`, with LF and C's visible bytes as they were. -/
theorem drainFeedsEveryVisibleByte : Obligations.DrainFeedsEveryVisibleByte := by
  intro s bs hi hr halone hv
  have hbegin : exec .drain s = .next (s.begin (.drain .pop)) := exec_drain_ready hr
  have hcons := cons_of_ready hi hr
  have hi' : (s.begin (.drain .pop)).Inv := (exec_move hbegin).inv hi
  obtain ⟨t, u, ht, hu, hdone⟩ := drain_visible (r := s) hi' ⟨by rw [State.begin, hcons], halone⟩ hv hr rfl rfl
  obtain ⟨hc, hns, hlf, ⟨l, hlt, hlu⟩, hpop, hpush, htail, hhead, hmem, hvalid⟩ := hdone
  exact ⟨_, t, u, hbegin, ht, hu, by rw [hc, State.begin, hcons], hns, hlf, hlt.trans hlu.symm, hpop, hpush, htail, hhead,
    hmem, hvalid⟩

end Sys2Proof.Machine
end

/-! ## Laws of the NAND operations, turn by turn (42_nand_sequencer.md R163, R167, R171) -/

section
namespace Sys2Proof.Machine

variable {s t : State} {op : NandOp}

theorem exec_nandReset_ready (hr : s.ready) : exec .nandReset s = .next (startNand .reset (frameReset s.cfg) s) :=
  whenTaken_ready hr _

theorem exec_nandReadId_ready (hr : s.ready) : exec .nandReadId s = .next (startNand .readId (frameReadId s.cfg) s) :=
  whenTaken_ready hr _

theorem exec_nandReadPage_ready {l : PageLayout} (page : Nat) (hr : s.ready) (hl : s.cfg.page = some l) :
    exec (.nandReadPage page) s = .next (startNand (.readPage l) (frameReadPage s.cfg l page) s) := by
  rw [exec, execNandReadPage, hl]
  exact whenTaken_ready hr _

theorem nandTurn_settle_counts (h : 0 < s.ns.settleCnt) :
    nandTurn op .settle s = .next { s with ns := { s.ns with settleCnt := s.ns.settleCnt - 1 } } :=
  congrArg _ (if_pos h)

theorem nandTurn_settle_ends (h : s.ns.settleCnt = 0) : nandTurn op .settle s = .next (endSettle s) :=
  congrArg _ (if_neg (by omega))

/-- Only NAND_RESET settles, and while NS settles C stands at the count-down. -/
theorem seq_of_settling (hp : PlaceInv s) (ho : OperandInv s) (h : s.ns.nsState = .settling) :
    s.cons.seq = .nand .reset .settle := by
  have hplace := hp.place.symm.trans h
  have hlegal := ho.legal
  cases hs : s.cons.seq with
  | idle | drain _ => rw [hs] at hplace; cases hplace
  | nand op a =>
    rw [hs] at hplace hlegal
    cases a with
    | t1 | t2 | t3 _ | check _ | step4 => cases hplace
    | settle =>
      cases op with
      | reset => rfl
      | readId | readPage _ => cases hlegal

/-- A code on a busy command port is the edge of C's next step (log 9). -/
theorem takeRequest_busy {r : Request} (hf : r.format = .C) (hg : s.goesOn = true) :
    takeRequest .consumer r s = consumerTurn s := by
  cases r with
  | w _ | s _ => cases hf
  | c o b page =>
    have hd : decode s.cfg (.c o b page) ≠ .error .noRequest := decodeC_ne_noRequest s.cfg o b page
    rw [takeRequest, if_neg hd]
    exact if_pos hg

/-- Settles O41: the request performs step 1, C's place picks every further step, and while NS settles that place is the
count-down (`seq_of_settling`). -/
theorem nandOperationsFollowTheirSteps : Obligations.NandOperationsFollowTheirSteps := by
  refine ⟨fun s hr => ?_, fun op s hh => ?_, fun s r rest hi hh hset hpos hf hin => ?_⟩
  · refine ⟨rfl, rfl, fun page l hl hlt => ?_, exec_nandReset_ready hr, exec_nandReadId_ready hr,
      fun page l hl => exec_nandReadPage_ready page hr hl⟩
    exact decode_encode (i := .nandReadPage page) (by simpa [Instr.wf, pageFits, hl] using hlt)
  · refine ⟨fun e k hq => ?_, fun rx hq => ?_, fun hq => ?_, fun hq hpos => ?_, fun hq h0 => ?_, fun m d hq hm hd => ?_,
      fun l data hq hdata => ?_⟩
    · exact ⟨s.freeByte, (s.spend 1).freeByte, s.env.freeCount + 2, consumerTurn_nand hh hq⟩
    · exact consumerTurn_nand hh hq
    · exact consumerTurn_nand hh hq
    · exact (consumerTurn_nand hh hq).trans (nandTurn_settle_counts hpos)
    · rw [consumerTurn_nand hh hq, nandTurn_settle_ends h0, show [Event.settleDone, .nandDone .ok] =
        [.settleDone] ++ [.nandDone .ok] from rfl, ← List.append_assoc]
      rfl
    · exact (consumerTurn_nand hh hq).trans (decodeId_ok hm hd)
    · exact (consumerTurn_nand hh hq).trans (pageData_ok hdata)
  · obtain ⟨-, -, -, hnand, -⟩ := hi
    obtain ⟨hp, ho⟩ := nandInv_iff.1 hnand
    have hq := seq_of_settling hp ho hset
    have hbusy : s.cons.cBusy = true := hp.busy.2 (by rw [hq]; exact nofun)
    have hg : (s.taking rest).goesOn = true := by simp [State.goesOn, State.taking, hbusy, hh]
    refine ⟨hp.csN_of_settling hset, hbusy, ?_⟩
    calc step s
        _ = takeRequest .consumer r (s.taking rest) := step_of_request hin
        _ = consumerTurn (s.taking rest) := takeRequest_busy hf hg
        _ = nandTurn .reset .settle (s.taking rest) := consumerTurn_nand (s := s.taking rest) hh hq
        _ = _ := nandTurn_settle_counts (s := s.taking rest) hpos

end Sys2Proof.Machine
end

/-! ## Undisturbed NAND operations (42_nand_sequencer.md R162 to R173)

The state at each place of an operation is the state that the request found, with NS, C's place, the events so far and the
model's own fields written out; the transaction is run once for the three operations. -/

section
namespace Sys2Proof.Machine

variable {s t : State} {op : NandOp} {a : NandAt} {ns : Nand} {es : List Event} {e : Env} {c : Consumer}

/-- C inside a NAND operation at `a`. -/
def inNandOp (op : NandOp) (a : NandAt) : Consumer := { cBusy := true, halted := false, seq := .nand op a }

/-- C at rest. -/
def atRest : Consumer := { cBusy := false, halted := false, seq := .idle }

/-- `s` as the steps since have left it: the pulse over, `es` recorded. -/
def since (c : Consumer) (ns : Nand) (es : List Event) (e : Env) (s : State) : State :=
  { s with
    rb := { s.rb with wOvf := false }
    ns := ns
    cons := c
    history := s.history ++ es
    env := e }

/-- With nothing pending the next step is the operation's. -/
theorem step_since (hu : e.inputs = [] ∧ e.cycle = []) :
    step (since (inNandOp op a) ns es e s) = nandTurn op a (since (inNandOp op a) ns es e s) :=
  (step_of_busy (s := since (inNandOp op a) ns es e s) hu rfl rfl).trans
    (consumerTurn_nand (s := since (inNandOp op a) ns es e s) rfl rfl)

/-! ### The transaction -/

/-- What `xbuf` holds after an exchange (R162, R173). -/
def xbufAfter (op : NandOp) (o : BusOutcome) (m : Memory) : Memory :=
  match o with
  | .ok rx => if op.keep then m.writeAll 0 rx else m
  | .err _ _ => []

/-- What an exchange records. -/
def exchangeEvent (tx : List Byte) : BusOutcome → Event
  | .ok rx => .xfer tx rx
  | .err e k => .xferErr e k

theorem exchanged_eq (op : NandOp) (tx : List Byte) (o : BusOutcome) (s : State) : exchanged op tx o s =
    { s with
      ns := { s.ns with xbuf := xbufAfter op o s.ns.xbuf }
      history := s.history ++ [exchangeEvent tx o] } := by
  cases o with
  | ok rx => exact exchanged_ok op tx rx s
  | err e k => rfl

/-- The model's own fields once V's answer is spent. -/
def Env.answered (e : Env) : Env := { e with answers := e.answers.tail, freeCount := e.freeCount + 1 }

theorem step_t1 (hu : s.undisturbed) (hr : s.ready) {image : List Byte} (hidle : s.ns.nsState = .idle)
    (hcs : s.ns.csN = true) : step (startNand op image s) =
      .next (since (inNandOp op .t2)
        { s.ns with xbuf := s.ns.xbuf.writeAll 0 image, csN := false, nsState := .transacting, xlen := op.xferLen s.cfg }
        [.csLow] s.env s) := by
  have hh : (startNand op image s).cons.halted = false := hr.2
  rw [step_of_busy (s := startNand op image s) hu rfl hh, consumerTurn_nand (s := (startNand op image s).lowerPulse) hh rfl,
    nandTurn_t1_free (s := (startNand op image s).lowerPulse) hidle hcs]
  simp only [assertCs, startNand, State.begin, State.raise, State.goto, State.lowerPulse, since, inNandOp, hr.2]

theorem step_t2 (hu : e.inputs = [] ∧ e.cycle = []) {tx : List Byte} (htx : ns.xbuf.slice 0 (op.xferLen s.cfg) = .ok tx)
    {o : BusOutcome} (ho : busOutcome (op.xferLen s.cfg) (since (inNandOp op .t2) ns es e s) = o) :
    step (since (inNandOp op .t2) ns es e s) =
      .next (since (inNandOp op (.t3 o)) { ns with xbuf := xbufAfter op o ns.xbuf } (es ++ [exchangeEvent tx o]) e.answered s) := by
  rw [step_since hu, nandTurn_t2 (s := since (inNandOp op .t2) ns es e s) htx]
  simp only [since] at ho ⊢
  rw [ho, exchanged_eq]
  simp only [State.goto, State.answered, Env.answered, inNandOp, List.append_assoc]

theorem step_t3 (hu : e.inputs = [] ∧ e.cycle = []) {o : BusOutcome} :
    step (since (inNandOp op (.t3 o)) ns es e s) =
      .next (since (inNandOp op (.check o)) { ns with csN := true, nsState := .idle, xlen := 0 } (es ++ [.csHigh]) e s) := by
  rw [step_since hu, nandTurn]
  simp only [deassertCs, State.goto, State.raise, since, inNandOp, List.append_assoc]

/-- The transaction of an operation that a good state takes: chip-select frames one exchange of the image. -/
theorem transact_run (hi : s.Inv) (hr : s.ready) (hu : s.undisturbed) {image : List Byte}
    (hlen : image.length = op.xferLen s.cfg) {o : BusOutcome} (ho : busOutcome (op.xferLen s.cfg) s = o) :
    stepN 3 (startNand op image s) = .next (since (inNandOp op (.check o))
      { s.ns with xbuf := xbufAfter op o (s.ns.xbuf.writeAll 0 image) } [.csLow, exchangeEvent image o, .csHigh]
      s.env.answered s) := by
  obtain ⟨-, -, -, hnand, -⟩ := hi
  obtain ⟨hp, hop⟩ := nandInv_iff.1 hnand
  have hseq := hp.seq_of_ready hr
  obtain ⟨hidle, hcs, -⟩ := hp.resting (by rw [hseq]; rfl)
  have hxlen : s.ns.xlen = 0 := by rw [hop.xlen, hseq]; rfl
  have htx : (s.ns.xbuf.writeAll 0 image).slice 0 (op.xferLen s.cfg) = .ok image := hlen ▸ slice_writeAll ..
  have hns (m : Memory) : { s.ns with xbuf := m, csN := true, nsState := .idle, xlen := 0 } = { s.ns with xbuf := m } := by
    simp only [hidle, hcs, hxlen]
  have hlow := step_t1 (op := op) hu hr (image := image) hidle hcs
  have hexchange := step_t2 (es := [.csLow]) (s := s) (ns := { s.ns with
    xbuf := s.ns.xbuf.writeAll 0 image, csN := false, nsState := .transacting, xlen := op.xferLen s.cfg }) hu htx ho
  have hhigh := step_t3 (op := op) (o := o) (es := [.csLow] ++ [exchangeEvent image o]) (s := s) (e := s.env.answered)
    (ns := { s.ns with
      xbuf := xbufAfter op o (s.ns.xbuf.writeAll 0 image), csN := false, nsState := .transacting,
      xlen := op.xferLen s.cfg }) hu
  rw [stepN_succ hlow, stepN_succ hexchange, stepN_succ hhigh, stepN]
  exact congrArg (fun ns => Host.Outcome.next (since _ ns _ _ s)) (hns _)

/-! ### How an operation ends -/

/-- The settle delay counts down one a step and ends with the step that finds 0 (R163, R164). -/
theorem settle_run (hu : e.inputs = [] ∧ e.cycle = []) (n : Nat) :
    stepN (n + 1) (since (inNandOp .reset .settle) { ns with settleCnt := n } es e s) =
      .next (since atRest { ns with settleCnt := 0, nsState := .idle, nandStatus := .ok }
        (es ++ [.settleDone, .nandDone .ok]) e s) := by
  induction n with
  | zero =>
    have hend := (step_since hu).trans
      (nandTurn_settle_ends (op := .reset) (s := since (inNandOp .reset .settle) { ns with settleCnt := 0 } es e s) rfl)
    rw [stepN_succ hend, stepN]
    simp [endSettle, nandOk, State.finish, State.raise, since, inNandOp, atRest]
  | succ n ih =>
    have hcount := (step_since hu).trans
      (nandTurn_settle_counts (op := .reset) (s := since (inNandOp .reset .settle) { ns with settleCnt := n + 1 } es e s)
        n.succ_pos)
    rw [stepN_succ hcount]
    exact ih

end Sys2Proof.Machine
end

/-! ## The NAND operations from request to report (42_nand_sequencer.md R163, R167, R171, R173) -/

section
namespace Sys2Proof.Machine

variable {s t : State} {op : NandOp} {image rx : List Byte} {ns : Nand} {es : List Event} {e : Env}

/-! ### After the transaction -/

theorem step_check_ok (hu : e.inputs = [] ∧ e.cycle = []) :
    step (since (inNandOp op (.check (.ok rx))) ns es e s) = .next (since (inNandOp op .step4) ns es e s) :=
  step_since hu

theorem step_check_err (hu : e.inputs = [] ∧ e.cycle = []) {x k : Nat} : ∃ (m d : Byte) (e' : Env),
    step (since (inNandOp op (.check (.err x k))) ns es e s) =
      .next (since atRest { ns with nandStatus := .err, idValid := false, nandMfr := m, nandDev := d }
        (es ++ [.nandDone (.busError x)]) e' s) := by
  refine ⟨Config.freeByte e.freeCount, Config.freeByte (e.freeCount + 1), { e with freeCount := e.freeCount + 2 },
    (step_since hu).trans ?_⟩
  rw [nandTurn]
  simp only [enterError, State.finish, State.spend, State.raise, State.freeByte, since, inNandOp, atRest, List.append_assoc]

theorem step_startSettle (hu : e.inputs = [] ∧ e.cycle = []) :
    step (since (inNandOp .reset .step4) ns es e s) =
      .next (since (inNandOp .reset .settle) { ns with nsState := .settling, settleCnt := s.cfg.settleTicks }
        (es ++ [.settleStart]) e s) := by
  rw [step_since hu, nandTurn, nandStep4]
  simp only [startSettle, State.goto, State.raise, since, inNandOp, List.append_assoc]

theorem step_decodeId (hu : e.inputs = [] ∧ e.cycle = []) {m d : Byte} (hm : ns.xbuf.read s.cfg.idMfrIdx = some m)
    (hd : ns.xbuf.read s.cfg.idDevIdx = some d) :
    step (since (inNandOp .readId .step4) ns es e s) =
      .next (since atRest { ns with nandMfr := m, nandDev := d, idValid := true, nandStatus := .ok }
        (es ++ [.nandDone (.okId m d)]) e s) := by
  rw [step_since hu, nandTurn, nandStep4, decodeId_ok (s := since _ ns es e s) hm hd]
  simp only [nandOk, State.finish, State.raise, since, inNandOp, atRest, List.append_assoc]

theorem step_pageData (hu : e.inputs = [] ∧ e.cycle = []) {l : PageLayout} {data : List Byte}
    (h : ns.xbuf.slice (1 + l.addrBytes + l.dummyBytes) l.dataBytes = .ok data) :
    step (since (inNandOp (.readPage l) .step4) ns es e s) =
      .next (since atRest { ns with nandStatus := .ok } (es ++ [.nandDone (.okPage data)]) e s) := by
  rw [step_since hu, nandTurn, nandStep4, pageData_ok (s := since _ ns es e s) h]
  simp only [nandOk, State.finish, State.raise, since, inNandOp, atRest, List.append_assoc]

theorem stepN_one (h : step s = .next t) : stepN 1 s = .next t := stepN_succ (n := 0) h

/-- From an answered transaction of a good state to step 4. -/
theorem answered_run (hi : s.Inv) (hr : s.ready) (hu : s.undisturbed) (hlen : image.length = op.xferLen s.cfg)
    (ho : busOutcome (op.xferLen s.cfg) s = .ok rx) :
    stepN 4 (startNand op image s) = .next (since (inNandOp op .step4)
      { s.ns with xbuf := xbufAfter op (.ok rx) (s.ns.xbuf.writeAll 0 image) } [.csLow, .xfer image rx, .csHigh]
      s.env.answered s) := by
  rw [stepN_add 3 1, transact_run hi hr hu hlen ho, andThen_next]
  exact stepN_one (step_check_ok hu)

/-- An answered operation that ends in step 4 takes five steps. -/
theorem answered_end (hi : s.Inv) (hr : s.ready) (hu : s.undisturbed) (hlen : image.length = op.xferLen s.cfg)
    (ho : busOutcome (op.xferLen s.cfg) s = .ok rx)
    (hend : step (since (inNandOp op .step4)
      { s.ns with xbuf := xbufAfter op (.ok rx) (s.ns.xbuf.writeAll 0 image) } [.csLow, .xfer image rx, .csHigh]
      s.env.answered s) = .next t) : stepN 5 (startNand op image s) = .next t := by
  rw [stepN_add 4 1, answered_run hi hr hu hlen ho, andThen_next]
  exact stepN_one hend

/-- In a good state a ready consumer finds NS at rest. -/
theorem resting_of_ready (hi : s.Inv) (hr : s.ready) : NsResting s ∧ s.ns.xlen = 0 := by
  obtain ⟨-, -, -, hnand, -⟩ := hi
  obtain ⟨hp, ho⟩ := nandInv_iff.1 hnand
  have hseq := hp.seq_of_ready hr
  exact ⟨hp.resting (by rw [hseq]; rfl), by rw [ho.xlen, hseq]; rfl⟩

/-- `xbuf` after an exchange that is kept: the received bytes in front, the rest as it was. -/
theorem read_xbufAfter {m : Memory} (hk : op.keep = true) (hlen : image.length = rx.length) (b : Nat) :
    (xbufAfter op (.ok rx) (m.writeAll 0 image)).read b = if b < rx.length then rx[b]? else m.read b := by
  simp only [xbufAfter, hk, if_true, read_writeAll, hlen, Nat.zero_le, true_and, Nat.zero_add, Nat.sub_zero]
  split <;> rfl

/-! ### From request to report -/

theorem reset_run (hi : s.Inv) (hr : s.ready) (hu : s.undisturbed) (ho : busOutcome 1 s = .ok rx) :
    stepN (6 + s.cfg.settleTicks) (startNand .reset (frameReset s.cfg) s) = .next (since atRest
      { s.ns with
        xbuf := s.ns.xbuf.write 0 s.cfg.cmdReset, settleCnt := 0, nsState := .idle, nandStatus := .ok }
      [.csLow, .xfer [s.cfg.cmdReset] rx, .csHigh, .settleStart, .settleDone, .nandDone .ok] s.env.answered s) := by
  have hanswered := answered_run (op := .reset) (image := frameReset s.cfg) hi hr hu rfl ho
  rw [show 6 + s.cfg.settleTicks = 4 + ((s.cfg.settleTicks + 1) + 1) by omega, stepN_add, hanswered, andThen_next,
    stepN_succ (step_startSettle (e := s.env.answered) hu)]
  exact settle_run (ns := { s.ns with xbuf := s.ns.xbuf.write 0 s.cfg.cmdReset, nsState := .settling })
    (e := s.env.answered) hu _

/-- Settles O40: the transaction, the test, and the settle delay of `T_SETTLE` steps; NS ends as it began, but for `xbuf` and
the status. -/
theorem nandResetRunsToOk : Obligations.NandResetRunsToOk := by
  intro s rx hi hr hu ho
  obtain ⟨⟨hidle, hcs, hzero⟩, -⟩ := resting_of_ready hi hr
  refine ⟨_, _, exec_nandReset_ready hr, rfl, reset_run hi hr hu ho, (cons_of_ready hi hr).symm, rfl, rfl, ?_, rfl⟩
  simp only [since, hidle, hzero]

/-- Settles O42: the exchange is kept, so step 4 finds the received bytes at the two positions. -/
theorem nandReadIdReportsIdentifiers : Obligations.NandReadIdReportsIdentifiers := by
  intro s rx hi hr hu ho
  obtain ⟨hc, -⟩ := id hi
  have hrx : rx.length = s.cfg.idLen := busOutcome_ok_length ho
  have himage : (frameReadId s.cfg).length = s.cfg.idLen := frameReadId_length s.cfg (one_le_idLen hc)
  have hread := read_xbufAfter (op := .readId) (m := s.ns.xbuf) rfl (himage.trans hrx.symm)
  obtain ⟨hmfr, hdev⟩ := idIdx_lt_idLen hc
  rw [← hrx] at hmfr hdev
  have hm := ((hread _).trans (if_pos hmfr)).trans (List.getElem?_eq_getElem hmfr)
  have hd := ((hread _).trans (if_pos hdev)).trans (List.getElem?_eq_getElem hdev)
  have hrun := answered_end (op := .readId) hi hr hu himage ho (step_decodeId (e := s.env.answered) hu hm hd)
  exact ⟨_, _, _, _, exec_nandReadId_ready hr, rfl, hrun, List.getElem?_eq_getElem hmfr, List.getElem?_eq_getElem hdev,
    (cons_of_ready hi hr).symm, rfl, rfl, rfl, fun a ha => (hread a).trans (if_pos (hrx ▸ ha)),
    fun a ha => (hread a).trans (if_neg (by omega)), rfl⟩

/-- Settles O43: the exchange is kept, so step 4 finds the last `G` received bytes behind command, address and dummies. -/
theorem nandReadPageReturnsData : Obligations.NandReadPageReturnsData := by
  intro s page l rx hi hr hu hl _ ho
  have hrx : rx.length = l.frameLen := busOutcome_ok_length ho
  have himage : (frameReadPage s.cfg l page).length = l.frameLen := frameReadPage_length s.cfg l page
  have hread := read_xbufAfter (op := .readPage l) (m := s.ns.xbuf) rfl (himage.trans hrx.symm)
  have hdata : (xbufAfter (.readPage l) (.ok rx) (s.ns.xbuf.writeAll 0 (frameReadPage s.cfg l page))).slice
      (1 + l.addrBytes + l.dummyBytes) l.dataBytes = .ok (rx.drop (1 + l.addrBytes + l.dummyBytes)) := by
    rw [PageLayout.frameLen] at hrx
    refine slice_ok_iff.2 ⟨by rw [List.length_drop]; omega, fun i hlt => ?_⟩
    rw [List.getElem?_drop]
    exact (hread _).trans (if_pos (by omega))
  have hrun := answered_end (op := .readPage l) hi hr hu himage ho (step_pageData (e := s.env.answered) hu hdata)
  exact ⟨_, _, exec_nandReadPage_ready page hr hl, rfl, hrun, (cons_of_ready hi hr).symm, rfl, rfl, rfl,
    fun a ha => (hread a).trans (if_pos (hrx ▸ ha)), fun a ha => (hread a).trans (if_neg (by omega)), rfl⟩

/-- A failed exchange, whatever the operation: `xbuf` and the identifiers hold no value, and NS is at rest. -/
theorem failed_run (hi : s.Inv) (hr : s.ready) (hu : s.undisturbed) (hlen : image.length = op.xferLen s.cfg) {x k : Nat}
    (ho : busOutcome (op.xferLen s.cfg) s = .err x k) : ∃ (m d : Byte) (e : Env),
    stepN 4 (startNand op image s) = .next (since atRest
      { s.ns with xbuf := [], nandStatus := .err, idValid := false, nandMfr := m, nandDev := d }
      [.csLow, .xferErr x k, .csHigh, .nandDone (.busError x)] e s) := by
  obtain ⟨m, d, e, hcheck⟩ := step_check_err (op := op) (s := s) (x := x) (k := k) (e := s.env.answered)
    (ns := { s.ns with xbuf := [] }) (es := [.csLow, .xferErr x k, .csHigh]) hu
  refine ⟨m, d, e, ?_⟩
  rw [stepN_add 3 1, transact_run hi hr hu hlen ho, andThen_next]
  exact stepN_one hcheck

/-- The request of a NAND operation, its exchange length and what taking it starts. -/
theorem exec_nand_ready {i : Instr} {n : Nat} (hc : s.cfg.wf) (hr : s.ready)
    (h : (i = .nandReset ∧ n = 1) ∨ (i = .nandReadId ∧ n = s.cfg.idLen) ∨
      ∃ page l, i = .nandReadPage page ∧ s.cfg.page = some l ∧ n = l.frameLen) :
    ∃ op image, exec i s = .next (startNand op image s) ∧ image.length = op.xferLen s.cfg ∧ op.xferLen s.cfg = n := by
  obtain ⟨rfl, rfl⟩ | ⟨rfl, rfl⟩ | ⟨page, l, rfl, hl, rfl⟩ := h
  · exact ⟨.reset, _, exec_nandReset_ready hr, rfl, rfl⟩
  · exact ⟨.readId, _, exec_nandReadId_ready hr, frameReadId_length s.cfg (one_le_idLen hc), rfl⟩
  · exact ⟨.readPage l, _, exec_nandReadPage_ready page hr hl, frameReadPage_length s.cfg l page, rfl⟩

/-- Settles O46: the failed exchange empties `xbuf`, and the test after chip-select high ends the operation (R173). -/
theorem busFailureEndsTheOperation : Obligations.BusFailureEndsTheOperation := by
  intro s i n x k hi hr hu hop ho
  obtain ⟨op, image, hexec, hlen, rfl⟩ := exec_nand_ready hi.1 hr hop
  obtain ⟨⟨hidle, hcs, hzero⟩, hxlen⟩ := resting_of_ready hi hr
  obtain ⟨m, d, e, hrun⟩ := failed_run hi hr hu hlen ho
  exact ⟨_, _, hexec, hrun, busOutcome_err_le ho, hcs, hidle, rfl, (cons_of_ready hi hr).symm, hxlen, hzero, rfl,
    fun _ => rfl, rfl, rfl, rfl⟩

end Sys2Proof.Machine
end

/-! ## The host's answers (43_host_pipeline.md R192 to R205) -/

section
namespace Sys2Proof.Superloop

open Sys2Proof.Machine

variable {ws name payload : List Byte}

/-- A line that begins and ends in other bytes than whitespace is not trimmed. -/
theorem trimBoth_eq_self {first last : Byte} {mid : List Byte} (hfirst : first ∉ ws) (hlast : last ∉ ws) :
    trimBoth ws (first :: mid ++ [last]) = first :: mid ++ [last] := by
  have hdrop : (first :: mid ++ [last]).dropWhile ws.contains = first :: mid ++ [last] :=
    List.dropWhile_cons_of_neg (by simpa using hfirst)
  calc trimBoth ws (first :: mid ++ [last])
      _ = trimEnd ws (first :: mid ++ [last]) := congrArg (trimEnd ws) hdrop
      _ = first :: mid ++ [last] := List.rdropWhile_concat_neg _ _ _ (by simpa using hlast)

/-- A name without `(` is passed over whole. -/
theorem ne_paren_of_mem (hname : (0x28 : Byte) ∉ name) : ∀ b ∈ name, (b != (0x28 : Byte)) = true :=
  fun _ hb => bne_iff_ne.2 fun h => hname (h ▸ hb)

/-- Up to its first `(` a line is its name. -/
theorem nameOf_append (hname : (0x28 : Byte) ∉ name) (rest : List Byte) : nameOf (name ++ 0x28 :: rest) = name := by
  rw [nameOf, List.takeWhile_append_of_pos (ne_paren_of_mem hname), List.takeWhile_cons_of_neg (by decide), List.append_nil]

/-- Between its first `(` and a final `)` stands the payload of a line. -/
theorem payloadOf_append (hname : (0x28 : Byte) ∉ name) : payloadOf (name ++ 0x28 :: (payload ++ [0x29])) = some (some payload) := by
  rw [payloadOf, List.dropWhile_append_of_pos (ne_paren_of_mem hname), List.dropWhile_cons_of_neg (by decide)]
  have hback : (payload ++ [0x29]).reverse = 0x29#8 :: payload.reverse := List.reverse_concat ..
  simp only [hback, List.reverse_reverse]

/-- A demo command with a payload is what its payload decodes to. -/
theorem parse_demo (hd : 0x64#8 ∉ ws) (hparen : 0x29#8 ∉ ws) (payload : List Byte) :
    parse ws (nameDemo ++ 0x28 :: payload ++ [0x29]) = (decodeDemo payload).map .demo := by
  have htrim : trimBoth ws (nameDemo ++ 0x28 :: payload ++ [0x29]) = nameDemo ++ 0x28 :: (payload ++ [0x29]) :=
    (trimBoth_eq_self (mid := nameDemo.tail ++ 0x28 :: payload) hd hparen).trans (List.append_assoc nameDemo ..)
  have hname : (0x28 : Byte) ∉ nameDemo := by decide
  simp only [parse, htrim, payloadOf_append hname, nameOf_append hname]
  rfl

/-- A demo command whose payload does not decode gets the error line. -/
theorem respond_demo_of_none (h : decodeDemo payload = none) :
    respond ({} : Config).ws (nameDemo ++ 0x28 :: payload ++ [0x29]) = errLine := by
  rw [respond, parse_demo (by decide) (by decide), h]
  rfl

/-- The demo acknowledgment is ASCII without carriage return or line feed. -/
theorem of_mem_demoAck {x : Byte} (h : x ∈ demoAck) : x.toNat < 0x80 ∧ x ≠ 0x0D ∧ x ≠ 0x0A := by
  simpa [and_assoc] using (List.mem_filter.1 h).2

/-- Settles O60: the nine lines by running the parser on them, the demo commands by what their payload decodes to. -/
theorem knownNamesGetTheirResponses : Obligations.KnownNamesGetTheirResponses := by
  refine ⟨by decide, by decide, by decide, by decide, by decide, by decide, by decide, by decide, by decide,
    fun payload hfew => respond_demo_of_none (decodeDemo_of_few_colons hfew), fun payload hfields => ?_,
    fun a b => rfl, fun a => ⟨demoAck, rfl, fun x hx => of_mem_demoAck hx⟩⟩
  obtain ⟨name, hmem, hunknown⟩ | ⟨name, hknown, hmissing⟩ := hfields
  · exact respond_demo_of_none (decodeDemo_of_unknown hmem hunknown)
  · exact respond_demo_of_none (decodeDemo_of_missing hknown hmissing)

end Sys2Proof.Superloop
end
